-- ==== Sys2Proof/Word.lean ====
section
/-! DEFINITION. The word types of gf256_mult: bytes, command words, register numbers, sequences. -/

namespace Sys2Proof

/-- A field element, and every datum the hardware moves: 8 bits, unsigned (R2, R51). -/
abbrev Byte := BitVec 8

/-- A command word: 32 bits (R70). -/
abbrev CmdWord := BitVec 32

/-- The number of a scalar register S0..S15 (R21, R73). -/
abbrev SReg := Fin 16

/-- The number of a vector buffer V0..V15 (R22, R73). -/
abbrev VReg := Fin 16

/-- A sequence: a finite list of 8-bit values, element 0 at the front (R8).
Read as a polynomial, element 0 is the highest-degree coefficient (R9). -/
abbrev ByteSeq := List Byte

end Sys2Proof
end

