-- ==== Sys2Proof/Syntax.lean ====
section
/-! DEFINITION. The commands of gf256_mult: one constructor per row of the opcode map (R75).
Operands stand in the assembler's order (R81): the destination D, then the second destination C of
PDIV and CORRECT, then the sources, then the immediate. -/

namespace Sys2Proof

inductive Instr where
  /-- NOP (R270). -/
  | nop
  /-- TBLINIT primlo, gen (R103). -/
  | tblinit (primlo gen : Byte)
  /-- SLDI sD, imm (R271). -/
  | sldi (d : SReg) (imm : Byte)
  /-- GADD sD, sA, sB (R110). -/
  | gadd (d a b : SReg)
  /-- GMUL sD, sA, sB (R111). -/
  | gmul (d a b : SReg)
  /-- GDIV sD, sA, sB (R112). -/
  | gdiv (d a b : SReg)
  /-- GPOW sD, sA, sB (R113). -/
  | gpow (d a b : SReg)
  /-- GINV sD, sA (R114). -/
  | ginv (d a : SReg)
  /-- GLOG sD, sA (R115). -/
  | glog (d a : SReg)
  /-- GEXP sD, sA (R116). -/
  | gexp (d a : SReg)
  /-- VGET sD, vA, index (R272). -/
  | vget (d : SReg) (a : VReg) (index : Byte)
  /-- VSET vD, sA, index (R273). -/
  | vset (d : VReg) (a : SReg) (index : Byte)
  /-- VCAT vD, vA, vB (R274). -/
  | vcat (d a b : VReg)
  /-- VZERO vD, len (R275). -/
  | vzero (d : VReg) (len : Byte)
  /-- PADD vD, vA, vB (R146). -/
  | padd (d a b : VReg)
  /-- PMUL vD, vA, vB (R147). -/
  | pmul (d a b : VReg)
  /-- PSCALE vD, vA, sB (R148). -/
  | pscale (d a : VReg) (b : SReg)
  /-- PEVAL sD, vA, sB (R149). -/
  | peval (d : SReg) (a : VReg) (b : SReg)
  /-- PDIV vD, vC, vA, vB: quotient to D, remainder to C (R150). -/
  | pdiv (d c a b : VReg)
  /-- GENPOLY vD, r (R171). -/
  | genpoly (d : VReg) (r : Byte)
  /-- ENCODE vD, vA, r (R173). -/
  | encode (d a : VReg) (r : Byte)
  /-- SYND vD, vA, r (R182). -/
  | synd (d a : VReg) (r : Byte)
  /-- ELOC vD, vA, n (R184). -/
  | eloc (d a : VReg) (n : Byte)
  /-- FSYND vD, vA, vB (R187). -/
  | fsynd (d a b : VReg)
  /-- BMA vD, vA (R202). -/
  | bma (d a : VReg)
  /-- ROOTS vD, vA, n (R221). -/
  | roots (d a : VReg) (n : Byte)
  /-- EEVAL vD, vA, vB (R233). -/
  | eeval (d a b : VReg)
  /-- FCORR vD, vA, vB, vC (R234). -/
  | fcorr (d a b c : VReg)
  /-- CORRECT vD, vC, vA, vB, r: message to D, parity to C (R251). -/
  | correct (d c a b : VReg) (r : Byte)
  deriving DecidableEq, Repr

end Sys2Proof
end

