-- ==== Sys2Proof/WellFormed.lean ====
section
/-! DEFINITION. Which commands are well formed. The bounds of register numbers and immediates are
carried by the operand types; what is left is R77. -/

namespace Sys2Proof

/-- A command is well formed unless it is one of the two encodings that select a row and are illegal
all the same: PDIV and CORRECT naming one buffer as both destinations, D = C (R77). -/
def Instr.wf : Instr → Bool
  | .pdiv d c _ _ => d != c
  | .correct d c _ _ _ => d != c
  | .nop | .tblinit _ _ | .sldi _ _ | .gadd _ _ _ | .gmul _ _ _ | .gdiv _ _ _ | .gpow _ _ _
  | .ginv _ _ | .glog _ _ | .gexp _ _ | .vget _ _ _ | .vset _ _ _ | .vcat _ _ _ | .vzero _ _
  | .padd _ _ _ | .pmul _ _ _ | .pscale _ _ _ | .peval _ _ _ | .genpoly _ _ | .encode _ _ _
  | .synd _ _ _ | .eloc _ _ _ | .fsynd _ _ _ | .bma _ _ | .roots _ _ _ | .eeval _ _ _
  | .fcorr _ _ _ _ => true

end Sys2Proof
end

