-- ==== Sys2Proof/Decode.lean ====
section
/-! DEFINITION. The decoder and the encoder of command words (30_encoding.md, R70 to R78).
The decoder reads the opcode map as a table of rows (R75), each with the mask of its format (R72). -/

namespace Sys2Proof

/-! ### Fields of a word (R71) -/

/-- OPC = w[31:24]. -/
def fieldOpc (w : CmdWord) : Byte := w.extractLsb' 24 8
/-- D = w[23:20]. -/
def fieldD (w : CmdWord) : Fin 16 := (w.extractLsb' 20 4).toFin
/-- A = w[19:16]. -/
def fieldA (w : CmdWord) : Fin 16 := (w.extractLsb' 16 4).toFin
/-- B = w[15:12]. -/
def fieldB (w : CmdWord) : Fin 16 := (w.extractLsb' 12 4).toFin
/-- C = w[11:8]. -/
def fieldC (w : CmdWord) : Fin 16 := (w.extractLsb' 8 4).toFin
/-- IMM8 = w[7:0]; also TBLINIT's PRIMLO (R74). -/
def fieldImm (w : CmdWord) : Byte := w.extractLsb' 0 8
/-- TBLINIT's GEN = w[15:8] (R74). -/
def fieldGen (w : CmdWord) : Byte := w.extractLsb' 8 8

/-! ### Formats and rows (R72, R75) -/

/-- The eight formats of R72. -/
inductive Format where
  | N | T | DI | DA | DAB | DAI | DABC | DABCI
  deriving DecidableEq, Repr

/-- The bits a decoder compares: the opcode and every must-be-zero bit (R72). -/
def Format.mask : Format → CmdWord
  | .N => 0xFFFFFFFF#32
  | .T => 0xFFFF0000#32
  | .DI => 0xFF0FFF00#32
  | .DA => 0xFF00FFFF#32
  | .DAB => 0xFF000FFF#32
  | .DAI => 0xFF00FF00#32
  | .DABC => 0xFF0000FF#32
  | .DABCI => 0xFF000000#32

/-- A row of the opcode map: its mnemonic, opcode and format, and the command its fields name. -/
structure Row where
  mnemonic : String
  opc : Byte
  format : Format
  build : CmdWord → Instr

/-- The match value of a row: `OPC << 24` (R75). -/
def Row.value (r : Row) : CmdWord := r.opc ++ 0#24

/-- A word w selects the row when `(w & mask) = match` (R75). -/
def Row.selects (r : Row) (w : CmdWord) : Bool := w &&& r.format.mask == r.value

def controlRows : List Row := [
  ⟨"NOP", 0x00#8, .N, fun _ => .nop⟩,
  ⟨"TBLINIT", 0x01#8, .T, fun w => .tblinit (fieldImm w) (fieldGen w)⟩,
  ⟨"SLDI", 0x02#8, .DI, fun w => .sldi (fieldD w) (fieldImm w)⟩]

def fieldRows : List Row := [
  ⟨"GADD", 0x10#8, .DAB, fun w => .gadd (fieldD w) (fieldA w) (fieldB w)⟩,
  ⟨"GMUL", 0x11#8, .DAB, fun w => .gmul (fieldD w) (fieldA w) (fieldB w)⟩,
  ⟨"GDIV", 0x12#8, .DAB, fun w => .gdiv (fieldD w) (fieldA w) (fieldB w)⟩,
  ⟨"GPOW", 0x13#8, .DAB, fun w => .gpow (fieldD w) (fieldA w) (fieldB w)⟩,
  ⟨"GINV", 0x14#8, .DA, fun w => .ginv (fieldD w) (fieldA w)⟩,
  ⟨"GLOG", 0x15#8, .DA, fun w => .glog (fieldD w) (fieldA w)⟩,
  ⟨"GEXP", 0x16#8, .DA, fun w => .gexp (fieldD w) (fieldA w)⟩]

def dataRows : List Row := [
  ⟨"VGET", 0x20#8, .DAI, fun w => .vget (fieldD w) (fieldA w) (fieldImm w)⟩,
  ⟨"VSET", 0x21#8, .DAI, fun w => .vset (fieldD w) (fieldA w) (fieldImm w)⟩,
  ⟨"VCAT", 0x22#8, .DAB, fun w => .vcat (fieldD w) (fieldA w) (fieldB w)⟩,
  ⟨"VZERO", 0x23#8, .DI, fun w => .vzero (fieldD w) (fieldImm w)⟩]

def polyRows : List Row := [
  ⟨"PADD", 0x30#8, .DAB, fun w => .padd (fieldD w) (fieldA w) (fieldB w)⟩,
  ⟨"PMUL", 0x31#8, .DAB, fun w => .pmul (fieldD w) (fieldA w) (fieldB w)⟩,
  ⟨"PSCALE", 0x32#8, .DAB, fun w => .pscale (fieldD w) (fieldA w) (fieldB w)⟩,
  ⟨"PEVAL", 0x33#8, .DAB, fun w => .peval (fieldD w) (fieldA w) (fieldB w)⟩,
  ⟨"PDIV", 0x34#8, .DABC, fun w => .pdiv (fieldD w) (fieldC w) (fieldA w) (fieldB w)⟩]

def encoderRows : List Row := [
  ⟨"GENPOLY", 0x40#8, .DI, fun w => .genpoly (fieldD w) (fieldImm w)⟩,
  ⟨"ENCODE", 0x41#8, .DAI, fun w => .encode (fieldD w) (fieldA w) (fieldImm w)⟩]

def decoderRows : List Row := [
  ⟨"SYND", 0x50#8, .DAI, fun w => .synd (fieldD w) (fieldA w) (fieldImm w)⟩,
  ⟨"ELOC", 0x51#8, .DAI, fun w => .eloc (fieldD w) (fieldA w) (fieldImm w)⟩,
  ⟨"FSYND", 0x52#8, .DAB, fun w => .fsynd (fieldD w) (fieldA w) (fieldB w)⟩,
  ⟨"BMA", 0x53#8, .DA, fun w => .bma (fieldD w) (fieldA w)⟩,
  ⟨"ROOTS", 0x54#8, .DAI, fun w => .roots (fieldD w) (fieldA w) (fieldImm w)⟩,
  ⟨"EEVAL", 0x55#8, .DAB, fun w => .eeval (fieldD w) (fieldA w) (fieldB w)⟩,
  ⟨"FCORR", 0x56#8, .DABC, fun w => .fcorr (fieldD w) (fieldA w) (fieldB w) (fieldC w)⟩,
  ⟨"CORRECT", 0x57#8, .DABCI, fun w =>
    .correct (fieldD w) (fieldC w) (fieldA w) (fieldB w) (fieldImm w)⟩]

/-- The opcode map (R75): 29 rows, in the map's order. -/
def opcodeMap : List Row :=
  controlRows ++ fieldRows ++ dataRows ++ polyRows ++ encoderRows ++ decoderRows

/-! ### The decoder (R76) -/

/-- Why a word, or a string of bytes, is not a command. -/
inductive DecodeError where
  /-- The opcode is none of the map's: one of the 227 reserved values (R78). -/
  | reservedOpcode (opc : Byte)
  /-- The opcode is in the map, and a must-be-zero bit of its format is 1 (R72). -/
  | nonzeroMustBeZero (opc : Byte)
  /-- Fewer than four bytes came over the byte channel (R70: every command is 32 bits). -/
  | truncated
  deriving DecidableEq, Repr

/-- The row that selects a word, if any (R76). -/
def selectRow (w : CmdWord) : Option Row := opcodeMap.find? (·.selects w)

/-- `decode(w)` (R76), total: the command of the row that selects w, or the reason no row does. -/
def decode (w : CmdWord) : Except DecodeError Instr :=
  match selectRow w with
  | some r => .ok (r.build w)
  | none =>
    if opcodeMap.any (fun r => r.opc == fieldOpc w) then .error (.nonzeroMustBeZero (fieldOpc w))
    else .error (.reservedOpcode (fieldOpc w))

/-- A command word over a byte-wide channel: least significant byte first (R51). -/
def wordToBytes (w : CmdWord) : ByteSeq :=
  [w.extractLsb' 0 8, w.extractLsb' 8 8, w.extractLsb' 16 8, w.extractLsb' 24 8]

/-- The word four bytes carry over a byte-wide channel: least significant byte first (R51). -/
def wordOfBytes (b0 b1 b2 b3 : Byte) : CmdWord := b3 ++ b2 ++ b1 ++ b0

/-- Decode the first command of a string of bytes, with the bytes that follow it. -/
def decodeBytes : ByteSeq → Except DecodeError (Instr × ByteSeq)
  | b0 :: b1 :: b2 :: b3 :: rest =>
    match decode (wordOfBytes b0 b1 b2 b3) with
    | .ok i => .ok (i, rest)
    | .error e => .error e
  | _ => .error .truncated

/-- The word whose low `nbits` bits are those of `w`, the bits above them 0, as the opcode table
numbers bits. -/
def tableWord (nbits w : Nat) : CmdWord := BitVec.ofNat 32 (w % 2 ^ nbits)

/-- The command this decoder reads from the bytes of a word of the opcode table. -/
def decodeTableWord (nbits w : Nat) : Option Instr :=
  match decodeBytes (wordToBytes (tableWord nbits w)) with
  | .ok (i, _) => some i
  | .error _ => none

/-! ### The encoder (R71, R72, R75) -/

/-- A word from its fields OPC, D, A, B, C, IMM8 (R71). -/
def packWord (opc : Byte) (d a b c : Fin 16) (imm : Byte) : CmdWord :=
  opc ++ BitVec.ofFin (w := 4) d ++ BitVec.ofFin (w := 4) a ++ BitVec.ofFin (w := 4) b ++
    BitVec.ofFin (w := 4) c ++ imm

/-- The word of a command: a field its format does not use is 0 (R72). -/
def encode : Instr → CmdWord
  | .nop => packWord 0x00#8 0 0 0 0 0#8
  | .tblinit primlo gen => 0x01#8 ++ 0#8 ++ gen ++ primlo
  | .sldi d imm => packWord 0x02#8 d 0 0 0 imm
  | .gadd d a b => packWord 0x10#8 d a b 0 0#8
  | .gmul d a b => packWord 0x11#8 d a b 0 0#8
  | .gdiv d a b => packWord 0x12#8 d a b 0 0#8
  | .gpow d a b => packWord 0x13#8 d a b 0 0#8
  | .ginv d a => packWord 0x14#8 d a 0 0 0#8
  | .glog d a => packWord 0x15#8 d a 0 0 0#8
  | .gexp d a => packWord 0x16#8 d a 0 0 0#8
  | .vget d a index => packWord 0x20#8 d a 0 0 index
  | .vset d a index => packWord 0x21#8 d a 0 0 index
  | .vcat d a b => packWord 0x22#8 d a b 0 0#8
  | .vzero d len => packWord 0x23#8 d 0 0 0 len
  | .padd d a b => packWord 0x30#8 d a b 0 0#8
  | .pmul d a b => packWord 0x31#8 d a b 0 0#8
  | .pscale d a b => packWord 0x32#8 d a b 0 0#8
  | .peval d a b => packWord 0x33#8 d a b 0 0#8
  | .pdiv d c a b => packWord 0x34#8 d a b c 0#8
  | .genpoly d r => packWord 0x40#8 d 0 0 0 r
  | .encode d a r => packWord 0x41#8 d a 0 0 r
  | .synd d a r => packWord 0x50#8 d a 0 0 r
  | .eloc d a n => packWord 0x51#8 d a 0 0 n
  | .fsynd d a b => packWord 0x52#8 d a b 0 0#8
  | .bma d a => packWord 0x53#8 d a 0 0 0#8
  | .roots d a n => packWord 0x54#8 d a 0 0 n
  | .eeval d a b => packWord 0x55#8 d a b 0 0#8
  | .fcorr d a b c => packWord 0x56#8 d a b c 0#8
  | .correct d c a b r => packWord 0x57#8 d a b c r

end Sys2Proof
end

