-- ==== Sys2Proof/Config.lean ====
section
/-! DEFINITION. What an implementation fixes (R5), and the free values the spec leaves open. -/

namespace Sys2Proof.Config

/-- VLEN_MAX: the largest length of a vector buffer (R5, R24; the spec's decision D5, log 14). -/
def vlenMax : Nat := 512

/-- NMAX: the largest codeword length n (R3, R5). -/
def nMax : Nat := 255

/-- ORDER: the order of the multiplicative group, the modulus of every log/exp index (R5). -/
def order : Nat := 255

/-- PRIM_DEFAULT's low byte: the default primitive polynomial is 0x11D (R5, R82). -/
def primLoDefault : Byte := 0x1D#8

/-- GEN_DEFAULT: the default generator element (R5, R82). -/
def genDefault : Byte := 2#8

/-- FREE VALUE (log 3): the contents of EXP[i] after the `n`-th refused TBLINIT, which R103 and R305
leave unspecified. No body: nothing can prove a value of it. -/
opaque freeExp : Nat → Nat → Byte

/-- FREE VALUE (log 3): the contents of LOG[x] after the `n`-th refused TBLINIT, which R103 and R305
leave unspecified. No body: nothing can prove a value of it. -/
opaque freeLog : Nat → Nat → Byte

end Sys2Proof.Config
end

