-- ==== Sys2Proof/Machine/State.lean ====
section
/-! DEFINITION. The state of gf256_mult (10_state.md), the faults of R310, the refusals of the model,
and the state after reset (R340). -/

namespace Sys2Proof.Machine

/-- The model's faults: exactly the three of R310. A fault marks a run the spec makes no claim about,
so stopping there is safe. -/
inductive Fault where
  /-- F_TABLES_INVALID: raised by a core step, when a table-using command executes while TV = 0
  (R80). Safe. -/
  | tablesInvalid
  /-- F_UNWRITTEN: raised by a core step when a command reads an unwritten register (R23, R79), and by
  the host operations H_RDS and H_RDV on one (R64). Safe. -/
  | unwritten
  /-- F_HOST_BUSY: raised by any host operation but H_RDSTATUS while BUSY = 1 (R64). Safe. -/
  | hostBusy
  deriving DecidableEq, Repr

/-- Why the model gives no meaning. -/
inductive Refusal where
  /-- Raised by `exec` for a command that has no meaning yet; no command is left in this case. Safe. -/
  | notModelled (mnemonic : String)
  /-- Raised by H_WRS with a value above 255 and by H_WRV with an element above 255 or a sequence
  longer than VLEN_MAX: the interface cannot present them, and "a model refuses such an operation"
  (R62, U10). No command raises it. Safe. -/
  | hostDataNotPresentable
  deriving DecidableEq, Repr

/-- STATUS.CODE (R300). The values 6 and 7 are never produced and have no constructor (U6, log 12). -/
inductive StatusCode where
  | ok | configError | invalidInput | divByZero | uncorrectable | illegalCommand
  deriving DecidableEq, Repr

/-- The table store, gf256_log_exp_rom (R25): EXP[i] is entry i of `exp`, LOG[x] is entry x - 1 of
`log`. There is no LOG[0]. -/
structure Tables where
  exp : Vector Byte 255
  log : Vector Byte 255
  deriving DecidableEq, Repr

/-- The whole state (10_state.md). STATUS and CFG are views of it (R29, R30) and CMD has no storage
(R31), so none of the three is a field. -/
structure State where
  /-- S0..S15: unwritten (`none`) or one field element (R21, R23; log 1). -/
  sreg : Vector (Option Byte) 16
  /-- V0..V15: unwritten (`none`) or one sequence (R22, R23, R24; log 1). -/
  vreg : Vector (Option ByteSeq) 16
  /-- EXP and LOG (R25). -/
  tables : Tables
  /-- TV, tables valid (R26). -/
  tv : Bool
  /-- PRIM, 9 bits (R27). -/
  prim : BitVec 9
  /-- GEN (R28). -/
  gen : Byte
  /-- CODE, the status code of the last executed command (R29, R34, R309). -/
  code : StatusCode
  /-- PENDING: the command in flight, if any (R32). -/
  pending : Option CmdWord
  /-- FAULT: the first fault raised, if any; model-only state (R33; log 5). -/
  fault : Option Fault
  /-- The MODEL's own field: which unspecified table contents come next (log 3, log 4). -/
  freeCount : Nat
  deriving DecidableEq, Repr

/-- The state after reset (R340). The contents of the table store are unspecified there, and the zeros
below are a DESIGN CHOICE (log 2); so is the counter's 0 (log 4). -/
def State.reset : State where
  sreg := Vector.replicate 16 none
  vreg := Vector.replicate 16 none
  tables := ⟨Vector.replicate 255 0#8, Vector.replicate 255 0#8⟩
  tv := false
  prim := 0#9
  gen := 0#8
  code := .ok
  pending := none
  fault := none
  freeCount := 0

end Sys2Proof.Machine
end

