-- ==== Sys2Proof/Machine/Flags.lean ====
section
/-! DEFINITION. The status code and the two control-register views. The hardware has no condition
flags (R34): STATUS.CODE is its only result indicator. -/

namespace Sys2Proof.Machine

/-- The codes a function of the rules can `raise` (R10): every code but OK and ILLEGAL_COMMAND. -/
inductive Raise where
  | configError | invalidInput | divByZero | uncorrectable
  deriving DecidableEq, Repr

/-- The status code a raise leaves in STATUS.CODE (R10, R300). -/
def Raise.toCode : Raise → StatusCode
  | .configError => .configError
  | .invalidInput => .invalidInput
  | .divByZero => .divByZero
  | .uncorrectable => .uncorrectable

/-- The 3-bit value of a status code (R300). -/
def StatusCode.bits : StatusCode → BitVec 3
  | .ok => 0#3
  | .configError => 1#3
  | .invalidInput => 2#3
  | .divByZero => 3#3
  | .uncorrectable => 4#3
  | .illegalCommand => 5#3

/-- BUSY: 1 exactly when PENDING holds a command (R29, R32). -/
def State.busy (s : State) : Bool := s.pending.isSome

/-- `STATUS = {25'b0, CODE[2:0], 2'b00, TV, BUSY}` (R29). -/
def State.statusWord (s : State) : BitVec 32 :=
  0#25 ++ s.code.bits ++ 0#2 ++ BitVec.ofBool s.tv ++ BitVec.ofBool s.busy

/-- `CFG = {8'b0, GEN[7:0], 7'b0, PRIM[8:0]}` (R30). -/
def State.cfgWord (s : State) : BitVec 32 := 0#8 ++ s.gen ++ 0#7 ++ s.prim

/-- Write STATUS.CODE, and nothing else (R301). -/
def State.setCode (s : State) (c : StatusCode) : State := { s with code := c }

end Sys2Proof.Machine
end

