-- ==== Sys2Proof/Machine/Ops.lean ====
section
/-! DEFINITION. The named operations over the state: reading and writing registers (R21 to R24, R53),
the parts of the execution cycle every command shares (R79, R305), an illegal word (R76, R77), and
what a fault leaves behind (R310). This hardware has no traps (R313): raising a status code, in
`finishS`, `finishV` and `finishVV`, is all that an error does. -/

namespace Sys2Proof.Machine

/-- What executing a command answers. -/
abbrev Result := Host.Outcome State Fault Refusal

/-- The next state an outcome answers, if it answers one. -/
def nextState : Result → Option State
  | .next t => some t
  | .fault _ => none
  | .refused _ => none

/-! ### Registers -/

/-- S[i], or `none` while it is unwritten (R10, R23). -/
def State.readS (s : State) (i : SReg) : Option Byte := s.sreg[i]

/-- V[i], or `none` while it is unwritten (R10, R23). -/
def State.readV (s : State) (i : VReg) : Option ByteSeq := s.vreg[i]

/-- `S[i] <- v`; S[i] becomes written (R10, R23). -/
def State.writeS (s : State) (i : SReg) (v : Byte) : State :=
  { s with sreg := s.sreg.set i (some v) }

/-- `V[i] <- q`, the whole sequence replaced; V[i] becomes written (R10, R23, R24). -/
def State.writeV (s : State) (i : VReg) (q : ByteSeq) : State :=
  { s with vreg := s.vreg.set i (some q) }

/-! ### The execution cycle (R79) -/

/-- `if row.T = yes and TV = 0: fault F_TABLES_INVALID` (R79, R80). -/
def requireTables (s : State) (k : Result) : Result :=
  if s.tv then k else .fault .tablesInvalid

/-- Read a scalar source; an unwritten one faults (R79, R23). -/
def sourceS (s : State) (i : SReg) (k : Byte → Result) : Result :=
  match s.readS i with
  | some v => k v
  | none => .fault .unwritten

/-- Read a buffer source; an unwritten one faults (R79, R23). -/
def sourceV (s : State) (i : VReg) (k : ByteSeq → Result) : Result :=
  match s.readV i with
  | some q => k q
  | none => .fault .unwritten

/-- End a command whose destination is S[d]: a raise writes the code alone, a value is written and the
code is OK (R79, R305). -/
def finishS (s : State) (d : SReg) (out : Except Raise Byte) : Result :=
  match out with
  | .ok v => .next ((s.writeS d v).setCode .ok)
  | .error c => .next (s.setCode c.toCode)

/-- End a command whose destination is V[d] (R79, R305). -/
def finishV (s : State) (d : VReg) (out : Except Raise ByteSeq) : Result :=
  match out with
  | .ok q => .next ((s.writeV d q).setCode .ok)
  | .error c => .next (s.setCode c.toCode)

/-- End a command with two destinations, V[d] and V[c]: both are written or neither (R79, R305). -/
def finishVV (s : State) (d c : VReg) (out : Except Raise (ByteSeq × ByteSeq)) : Result :=
  match out with
  | .ok (q, p) => .next (((s.writeV d q).writeV c p).setCode .ok)
  | .error e => .next (s.setCode e.toCode)

/-- Executing an illegal word: CODE becomes ILLEGAL_COMMAND and nothing else changes (R76, R77). -/
def illegal (s : State) : Result := .next (s.setCode .illegalCommand)

/-! ### PENDING and FAULT -/

/-- `PENDING <- w` (R31, R32). -/
def State.acceptWord (s : State) (w : CmdWord) : State := { s with pending := some w }

/-- The end of an executed command: PENDING is none again (R65). -/
def State.retire (s : State) : State := { s with pending := none }

/-- `fault F`: FAULT holds the first fault raised, and nothing else changes (R33, R310; log 5). -/
def State.recordFault (s : State) (f : Fault) : State :=
  { s with fault := s.fault.orElse fun _ => some f }

end Sys2Proof.Machine
end

