-- ==== Sys2Proof/Machine/Control.lean ====
section
/-! DEFINITION. Control and data movement (48_control_and_data.md): NOP, SLDI, VGET, VSET, VCAT,
VZERO. None is table-using. -/

namespace Sys2Proof.Machine

/-- NOP (R270): it sets CODE to 0, like every successful command. -/
def execNop (s : State) : Result := .next (s.setCode .ok)

/-- SLDI (R271). -/
def execSldi (d : SReg) (imm : Byte) (s : State) : Result := finishS s d (.ok imm)

/-- VGET's function: `if index >= len(V[A]): raise INVALID_INPUT` (R272). -/
def vgetOut (q : ByteSeq) (index : Nat) : Except Raise Byte :=
  match q[index]? with
  | some v => .ok v
  | none => .error .invalidInput

/-- VGET (R272). -/
def execVget (d : SReg) (a : VReg) (index : Byte) (s : State) : Result :=
  sourceV s a fun q => finishS s d (vgetOut q index.toNat)

/-- VSET's function (R273). -/
def vsetOut (q : ByteSeq) (index : Nat) (v : Byte) : Except Raise ByteSeq :=
  if q.length ≤ index then .error .invalidInput else .ok (q.set index v)

/-- VSET (R273): D is a source too, and is checked before A. -/
def execVset (d : VReg) (a : SReg) (index : Byte) (s : State) : Result :=
  sourceV s d fun q => sourceS s a fun v => finishV s d (vsetOut q index.toNat v)

/-- VCAT's function (R274). -/
def vcatOut (p q : ByteSeq) : Except Raise ByteSeq :=
  if Config.vlenMax < (p ++ q).length then .error .invalidInput else .ok (p ++ q)

/-- VCAT (R274). -/
def execVcat (d a b : VReg) (s : State) : Result :=
  sourceV s a fun p => sourceV s b fun q => finishV s d (vcatOut p q)

/-- VZERO (R275). -/
def execVzero (d : VReg) (len : Byte) (s : State) : Result :=
  finishV s d (.ok (List.replicate len.toNat 0#8))

end Sys2Proof.Machine
end

