-- ==== Sys2Proof/Machine/FieldEngine.lean ====
section
/-! DEFINITION. The field engine (40_field_engine.md): table construction, the field functions, and
TBLINIT, GADD, GMUL, GDIV, GPOW, GINV, GLOG, GEXP. -/

namespace Sys2Proof.Machine

/-! ### Table construction (R100 to R103) -/

/-- `mulx(v, primlo)`: multiply by x and reduce (R100). -/
def mulx (v primlo : Byte) : Byte := (v <<< 1) ^^^ (if v.getLsbD 7 then primlo else 0#8)

/-- One turn of R102's loop, for bit j of b. The pair is (r, a). -/
def ringMulTurn (b primlo : Byte) (ra : Byte × Byte) (j : Nat) : Byte × Byte :=
  (if b.getLsbD j then ra.1 ^^^ ra.2 else ra.1, mulx ra.2 primlo)

/-- `ring_mul(a, b, primlo)` (R102): the bits of b, least significant first. -/
def ringMul (a b primlo : Byte) : Byte :=
  ((List.range 8).foldl (ringMulTurn b primlo) (0#8, a)).1

/-- R103's loop from a running value v, n turns: the values e it lists, and the value of v after. -/
def powerRun (gen primlo : Byte) : Nat → Byte → ByteSeq × Byte
  | 0, v => ([], v)
  | n + 1, v =>
    let run := powerRun gen primlo n (ringMul v gen primlo)
    (v :: run.1, run.2)

/-- `e[0..254]` of R103. -/
def powers (primlo gen : Byte) : ByteSeq := (powerRun gen primlo 255 1#8).1

/-- Whether the elements of a sequence are pairwise distinct. -/
def distinct : ByteSeq → Bool
  | [] => true
  | x :: xs => !xs.contains x && distinct xs

/-- `full_period` of R103: e pairwise distinct, no e[i] = 0, and the running value back at 1. -/
def fullPeriod (primlo gen : Byte) : Bool :=
  let run := powerRun gen primlo 255 1#8
  run.2 == 1#8 && !run.1.contains 0#8 && distinct run.1

/-- The tables of R103's last loop, for e pairwise distinct: EXP[i] = e[i], and LOG[e[i]] = i, so
LOG[x] is the index of x in e (log 10). -/
def tablesOf (e : ByteSeq) : Tables where
  exp := Vector.ofFn fun i => e.getD i 0#8
  log := Vector.ofFn fun x => BitVec.ofNat 8 (e.idxOf (BitVec.ofNat 8 (x.val + 1)))

/-- The tables TBLINIT builds (R103). -/
def buildTables (primlo gen : Byte) : Tables := tablesOf (powers primlo gen)

/-- Unspecified table contents: free values, the n-th of them (R103, R305; log 3). -/
def freeTables (n : Nat) : Tables where
  exp := Vector.ofFn fun i => Config.freeExp n i
  log := Vector.ofFn fun x => Config.freeLog n (x.val + 1)

/-- A successful TBLINIT: the whole store is rewritten, TV is 1, PRIM = 0x100 + PRIMLO (R103, R27). -/
def State.installTables (s : State) (primlo gen : Byte) : State :=
  { s with tables := buildTables primlo gen, tv := true, prim := 0x100#9 + primlo.setWidth 9,
           gen := gen }

/-- A refused TBLINIT: TV is 0 and the contents of the store are unspecified; PRIM and GEN are
unchanged (R103, R305). -/
def State.dropTables (s : State) : State :=
  { s with tables := freeTables s.freeCount, tv := false, freeCount := s.freeCount + 1 }

/-! ### Reading the tables -/

/-- `α^i = EXP[i mod 255]` (R10, R108). -/
def alpha (t : Tables) (i : Nat) : Byte :=
  t.exp[i % 255]'(Nat.mod_lt i (by decide))

/-- LOG[x] for x = 1..255, as an index. No rule reads LOG[0] (R25, log 11). -/
def logOf (t : Tables) (x : Byte) : Nat :=
  (t.log[x.toNat - 1]'(by have := x.isLt; omega)).toNat

/-! ### Field functions (R104 to R109) -/

/-- `gf_add(a, b) = a ⊕ b` (R104). -/
def gfAdd (a b : Byte) : Byte := a ^^^ b

/-- `gf_mul(a, b)` (R105). -/
def gfMul (t : Tables) (a b : Byte) : Byte :=
  if a = 0#8 ∨ b = 0#8 then 0#8 else alpha t ((logOf t a + logOf t b) % 255)

/-- `gf_div(a, b)`; the test for b = 0 comes first (R106). -/
def gfDiv (t : Tables) (a b : Byte) : Except Raise Byte :=
  if b = 0#8 then .error .divByZero
  else if a = 0#8 then .ok 0#8
  else .ok (alpha t ((logOf t a + 255 - logOf t b) % 255))

/-- `gf_pow(a, n)` for an integer n ≥ 0 (R107). -/
def gfPow (t : Tables) (a : Byte) (n : Nat) : Byte :=
  if a = 0#8 then (if n = 0 then 1#8 else 0#8) else alpha t ((logOf t a * n) % 255)

/-- `gf_inv(a)` (R109). -/
def gfInv (t : Tables) (a : Byte) : Except Raise Byte :=
  if a = 0#8 then .error .divByZero else .ok (alpha t ((255 - logOf t a) % 255))

/-- GLOG's function (R115). -/
def glogOut (t : Tables) (a : Byte) : Except Raise Byte :=
  if a = 0#8 then .error .invalidInput else .ok (BitVec.ofNat 8 (logOf t a))

/-- GEXP's function (R116). -/
def gexpOut (t : Tables) (a : Byte) : Except Raise Byte :=
  if 255 ≤ a.toNat then .error .invalidInput else .ok (alpha t a.toNat)

/-! ### The commands -/

/-- TBLINIT (R103). Not table-using; reads no register. -/
def execTblinit (primlo gen : Byte) (s : State) : Result :=
  if fullPeriod primlo gen then .next ((s.installTables primlo gen).setCode .ok)
  else .next (s.dropTables.setCode Raise.configError.toCode)

/-- GADD (R110). Not table-using. -/
def execGadd (d a b : SReg) (s : State) : Result :=
  sourceS s a fun x => sourceS s b fun y => finishS s d (.ok (gfAdd x y))

/-- GMUL (R111). -/
def execGmul (d a b : SReg) (s : State) : Result :=
  requireTables s <| sourceS s a fun x => sourceS s b fun y =>
    finishS s d (.ok (gfMul s.tables x y))

/-- GDIV (R112). -/
def execGdiv (d a b : SReg) (s : State) : Result :=
  requireTables s <| sourceS s a fun x => sourceS s b fun y => finishS s d (gfDiv s.tables x y)

/-- GPOW (R113): the exponent register is an unsigned integer. -/
def execGpow (d a b : SReg) (s : State) : Result :=
  requireTables s <| sourceS s a fun x => sourceS s b fun y =>
    finishS s d (.ok (gfPow s.tables x y.toNat))

/-- GINV (R114). -/
def execGinv (d a : SReg) (s : State) : Result :=
  requireTables s <| sourceS s a fun x => finishS s d (gfInv s.tables x)

/-- GLOG (R115). -/
def execGlog (d a : SReg) (s : State) : Result :=
  requireTables s <| sourceS s a fun x => finishS s d (glogOut s.tables x)

/-- GEXP (R116). -/
def execGexp (d a : SReg) (s : State) : Result :=
  requireTables s <| sourceS s a fun x => finishS s d (gexpOut s.tables x)

end Sys2Proof.Machine
end

