-- ==== Sys2Proof/Machine/PolyEngine.lean ====
section
/-! DEFINITION. The polynomial engine (41_polynomial_engine.md): sequences as polynomials, highest
degree first (R9), the polynomial functions, and PADD, PMUL, PSCALE, PEVAL, PDIV. -/

namespace Sys2Proof.Machine

/-! ### Sequences (R8, R9) -/

/-- `[0]*k` (R8). -/
def zeros (k : Nat) : ByteSeq := List.replicate k 0#8

/-- `⊕` over a list of bytes. -/
def xorSum (l : ByteSeq) : Byte := l.foldl (· ^^^ ·) 0#8

/-- `norm(p)`: leading zeros removed, keeping at least one element (R9). -/
def norm : ByteSeq → ByteSeq
  | [] => []
  | [a] => [a]
  | a :: b :: p => if a = 0#8 then norm (b :: p) else a :: b :: p

/-- `iszero(p)`: every element is 0; the empty sequence counts as zero (R9). -/
def isZero (p : ByteSeq) : Bool := p.all (· == 0#8)

/-- `deg(p) = len(norm(p)) - 1`; 0 for a zero sequence (R9). -/
def polyDeg (p : ByteSeq) : Nat := if isZero p then 0 else (norm p).length - 1

/-- `coef(p, j)`: the coefficient of x^j, 0 past the length (R9). -/
def polyCoef (p : ByteSeq) (j : Nat) : Byte := p.reverse.getD j 0#8

/-- `p` with `v` added onto its first elements. -/
def xorOnto : ByteSeq → ByteSeq → ByteSeq
  | [], p => p
  | _ :: _, [] => []
  | a :: v, b :: p => (a ^^^ b) :: xorOnto v p

/-! ### Polynomial functions (R140 to R144) -/

/-- `p` with leading zeros to m elements (R140). -/
def padTo (m : Nat) (p : ByteSeq) : ByteSeq := zeros (m - p.length) ++ p

/-- `poly_add(p, q)` (R140). -/
def polyAdd (p q : ByteSeq) : ByteSeq :=
  let m := max p.length q.length
  List.zipWith (· ^^^ ·) (padTo m p) (padTo m q)

/-- `poly_mul(p, q)` (R141), for len(q) ≥ 1: element i of p adds its row of products at element i of
the result, so element k is the ⊕ of gf_mul(p[i], q[j]) over i + j = k. -/
def polyMul (t : Tables) : ByteSeq → ByteSeq → ByteSeq
  | [], q => zeros (q.length - 1)
  | a :: p, q => xorOnto (q.map (gfMul t a)) (0#8 :: polyMul t p q)

/-- `poly_scale(p, a)` (R142). -/
def polyScale (t : Tables) (p : ByteSeq) (a : Byte) : ByteSeq := p.map fun c => gfMul t c a

/-- `poly_eval(p, x)` by Horner's method (R143), for len(p) ≥ 1. -/
def polyEval (t : Tables) (p : ByteSeq) (x : Byte) : Byte :=
  match p with
  | [] => 0#8
  | a :: p => p.foldl (fun y c => gfMul t y x ^^^ c) a

/-- R144's loop, n turns: W is the dividend from element i on, v0 and vs the normalized divisor's
leading and other elements. The pair is the quotient's elements and what is left of W. -/
def divLoop (t : Tables) (v0 : Byte) (vs : ByteSeq) : Nat → ByteSeq → Except Raise (ByteSeq × ByteSeq)
  | 0, w => .ok ([], w)
  | _ + 1, [] => .ok ([], [])
  | n + 1, w0 :: w =>
    match gfDiv t w0 v0 with
    | .error e => .error e
    | .ok c =>
      match divLoop t v0 vs n (xorOnto (vs.map fun x => gfMul t x c) w) with
      | .error e => .error e
      | .ok (q, r) => .ok (c :: q, r)

/-- `poly_divmod(D, V)` (R144): quotient and remainder. -/
def polyDivmod (t : Tables) (dividend divisor : ByteSeq) : Except Raise (ByteSeq × ByteSeq) :=
  if dividend.length = 0 ∨ divisor.length = 0 then .error .invalidInput
  else if isZero divisor then .error .invalidInput
  else
    match norm divisor with
    | [] => .error .invalidInput
    | v0 :: vs =>
      let ld := dividend.length
      let lv := vs.length + 1
      if ld < lv then .ok ([0#8], padTo (lv - 1) dividend)
      else divLoop t v0 vs (ld - lv + 1) dividend

/-! ### The commands -/

/-- PADD's function (R146). -/
def paddOut (p q : ByteSeq) : Except Raise ByteSeq :=
  if p.length = 0 ∨ q.length = 0 then .error .invalidInput else .ok (polyAdd p q)

/-- PADD (R146). Not table-using. -/
def execPadd (d a b : VReg) (s : State) : Result :=
  sourceV s a fun p => sourceV s b fun q => finishV s d (paddOut p q)

/-- PMUL's function (R147). -/
def pmulOut (t : Tables) (p q : ByteSeq) : Except Raise ByteSeq :=
  if p.length = 0 ∨ q.length = 0 then .error .invalidInput
  else if Config.vlenMax < (polyMul t p q).length then .error .invalidInput
  else .ok (polyMul t p q)

/-- PMUL (R147). -/
def execPmul (d a b : VReg) (s : State) : Result :=
  requireTables s <| sourceV s a fun p => sourceV s b fun q => finishV s d (pmulOut s.tables p q)

/-- PSCALE's function (R148). -/
def pscaleOut (t : Tables) (p : ByteSeq) (x : Byte) : Except Raise ByteSeq :=
  if p.length = 0 then .error .invalidInput else .ok (polyScale t p x)

/-- PSCALE (R148). -/
def execPscale (d a : VReg) (b : SReg) (s : State) : Result :=
  requireTables s <| sourceV s a fun p => sourceS s b fun x => finishV s d (pscaleOut s.tables p x)

/-- PEVAL's function (R149). -/
def pevalOut (t : Tables) (p : ByteSeq) (x : Byte) : Except Raise Byte :=
  if p.length = 0 then .error .invalidInput else .ok (polyEval t p x)

/-- PEVAL (R149). -/
def execPeval (d : SReg) (a : VReg) (b : SReg) (s : State) : Result :=
  requireTables s <| sourceV s a fun p => sourceS s b fun x => finishS s d (pevalOut s.tables p x)

/-- PDIV (R150): D = C is illegal, and settled before anything else (R77, R307). -/
def execPdiv (d c a b : VReg) (s : State) : Result :=
  if d = c then illegal s
  else requireTables s <| sourceV s a fun p => sourceV s b fun q =>
    finishVV s d c (polyDivmod s.tables p q)

end Sys2Proof.Machine
end

