-- ==== Sys2Proof/Machine/BerlekampMassey.lean ====
section
/-! DEFINITION. The Berlekamp-Massey engine (44_berlekamp_massey.md) and BMA. -/

namespace Sys2Proof.Machine

/-- The variables of R200's loop. C and B are held low-first: element i is the coefficient of x^i, and a
missing coefficient is 0. -/
structure BmState where
  c : ByteSeq
  b : ByteSeq
  len : Nat
  m : Nat
  disc : Byte
  deriving DecidableEq, Repr

/-- The coefficient of x^i in a low-first polynomial; a missing one is 0 (R200). -/
def lowCoef (p : ByteSeq) (i : Nat) : Byte := p.getD i 0#8

/-- `C <- 1; B <- 1; L <- 0; m <- 1; b <- 1` (R200). -/
def bmStart : BmState := ⟨[1#8], [1#8], 0, 1, 1#8⟩

/-- The discrepancy d of turn k (R200). -/
def bmDiscrepancy (t : Tables) (ts : ByteSeq) (z : BmState) (k : Nat) : Byte :=
  ts.getD k 0#8 ^^^
    xorSum ((List.range z.len).map fun i => gfMul t (lowCoef z.c (i + 1)) (ts.getD (k - (i + 1)) 0#8))

/-- C' of R200: `C'_i = C_i ⊕ gf_mul(q, B_(i-m))` for every i ≥ m, and C_i below. -/
def bmUpdate (t : Tables) (z : BmState) (q : Byte) : ByteSeq :=
  (List.range (max z.c.length (z.m + z.b.length))).map fun i =>
    if i < z.m then lowCoef z.c i else lowCoef z.c i ^^^ gfMul t q (lowCoef z.b (i - z.m))

/-- One turn of R200's loop. -/
def bmTurn (t : Tables) (ts : ByteSeq) (z : BmState) (k : Nat) : Except Raise BmState :=
  let d := bmDiscrepancy t ts z k
  if d = 0#8 then .ok { z with m := z.m + 1 }
  else
    match gfDiv t d z.disc with
    | .error e => .error e
    | .ok q =>
      if 2 * z.len ≤ k then
        .ok { c := bmUpdate t z q, b := z.c, len := k + 1 - z.len, m := 1, disc := d }
      else .ok { z with c := bmUpdate t z q, m := z.m + 1 }

/-- R200's loop over the turns k of a list. -/
def bmLoop (t : Tables) (ts : ByteSeq) : List Nat → BmState → Except Raise BmState
  | [], z => .ok z
  | k :: ks, z =>
    match bmTurn t ts z k with
    | .error e => .error e
    | .ok z' => bmLoop t ts ks z'

/-- deg(C) of a low-first polynomial (R9, R200). -/
def lowDeg (c : ByteSeq) : Nat := polyDeg c.reverse

/-- `berlekamp_massey(T)` (R200): Λ highest-first, L + 1 elements; R201's tests at the end. -/
def berlekampMassey (t : Tables) (ts : ByteSeq) : Except Raise ByteSeq :=
  match bmLoop t ts (List.range ts.length) bmStart with
  | .error e => .error e
  | .ok z =>
    if ts.length < 2 * z.len ∨ lowDeg z.c ≠ z.len then .error .uncorrectable
    else .ok ((List.range (z.len + 1)).map fun i => lowCoef z.c (z.len - i))

/-- BMA (R202). -/
def execBma (d a : VReg) (s : State) : Result :=
  requireTables s <| sourceV s a fun ts => finishV s d (berlekampMassey s.tables ts)

end Sys2Proof.Machine
end

