-- ==== Sys2Proof/Machine/Syndrome.lean ====
section
/-! DEFINITION. The syndrome calculator (43_syndrome.md): syndromes, locators, Forney syndromes, and
SYND, ELOC, FSYND. -/

namespace Sys2Proof.Machine

/-- `syndromes(R, r)`: element j is R at α^j (R180). -/
def syndromes (t : Tables) (word : ByteSeq) (r : Nat) : ByteSeq :=
  (List.range r).map fun j => polyEval t word (alpha t j)

/-- `X_p = EXP[n-1-p]` (R181), for p < n ≤ 255. -/
def locatorValue (t : Tables) (p n : Nat) : Byte := alpha t (n - 1 - p)

/-- `X_p^(-1) = EXP[(255 - (n-1-p)) mod 255]` (R181), for p < n ≤ 255. -/
def locatorInverse (t : Tables) (p n : Nat) : Byte := alpha t (255 - (n - 1 - p))

/-- `errata_locator(P, n)`: the product of the factors X_p·x + 1 (R183). -/
def errataLocator (t : Tables) (ps : ByteSeq) (n : Nat) : ByteSeq :=
  ps.foldl (fun g p => polyMul t g [locatorValue t p.toNat n, 1#8]) [1#8]

/-- T[j] of R186, from S and the low-first coefficients G of Γ, s = len(Γ) - 1. -/
def forneySyndrome (t : Tables) (synd low : ByteSeq) (s j : Nat) : Byte :=
  xorSum ((List.range (s + 1)).map fun i => gfMul t (low.getD i 0#8) (synd.getD (j + s - i) 0#8))

/-- `forney_syndromes(S, Γ)` (R186). -/
def forneySyndromes (t : Tables) (synd gamma : ByteSeq) : Except Raise ByteSeq :=
  let r := synd.length
  let s := gamma.length - 1
  if r < s then .error .uncorrectable
  else .ok ((List.range (r - s)).map (forneySyndrome t synd gamma.reverse s))

/-- SYND's function (R182). -/
def syndOut (t : Tables) (word : ByteSeq) (r : Nat) : Except Raise ByteSeq :=
  if word.length = 0 ∨ Config.nMax < word.length ∨ r = 0 then .error .invalidInput
  else .ok (syndromes t word r)

/-- SYND (R182). -/
def execSynd (d a : VReg) (r : Byte) (s : State) : Result :=
  requireTables s <| sourceV s a fun w => finishV s d (syndOut s.tables w r.toNat)

/-- ELOC's function (R184). -/
def elocOut (t : Tables) (ps : ByteSeq) (n : Nat) : Except Raise ByteSeq :=
  if n = 0 ∨ ps.any (fun p => decide (n ≤ p.toNat)) then .error .invalidInput
  else if Config.vlenMax < ps.length + 1 then .error .invalidInput
  else .ok (errataLocator t ps n)

/-- ELOC (R184). -/
def execEloc (d a : VReg) (n : Byte) (s : State) : Result :=
  requireTables s <| sourceV s a fun ps => finishV s d (elocOut s.tables ps n.toNat)

/-- FSYND's function (R187). -/
def fsyndOut (t : Tables) (synd gamma : ByteSeq) : Except Raise ByteSeq :=
  if synd.length = 0 ∨ gamma.length = 0 then .error .invalidInput
  else forneySyndromes t synd gamma

/-- FSYND (R187). -/
def execFsynd (d a b : VReg) (s : State) : Result :=
  requireTables s <| sourceV s a fun x => sourceV s b fun g => finishV s d (fsyndOut s.tables x g)

end Sys2Proof.Machine
end

