-- ==== Sys2Proof/Machine/Forney.lean ====
section
/-! DEFINITION. The Forney corrector (46_forney.md): error evaluator, formal derivative, correction,
and EEVAL, FCORR. -/

namespace Sys2Proof.Machine

/-- W[k] of R230: the coefficient of x^k in S(x)·Ψ(x), from S and the low-first coefficients of Ψ. -/
def evaluatorCoef (t : Tables) (synd low : ByteSeq) (k : Nat) : Byte :=
  xorSum ((List.range (k + 1)).map fun i => gfMul t (synd.getD i 0#8) (low.getD (k - i) 0#8))

/-- `error_evaluator(S, Ψ)`: Ω highest-first, exactly len(S) elements (R230). -/
def errorEvaluator (t : Tables) (synd psi : ByteSeq) : ByteSeq :=
  ((List.range synd.length).map (evaluatorCoef t synd psi.reverse)).reverse

/-- `deriv_eval(Ψ, x)`: the odd terms only (R231). -/
def derivEval (t : Tables) (psi : ByteSeq) (x : Byte) : Byte :=
  xorSum (((List.range psi.length).filter fun k => k % 2 == 1).map fun k =>
    gfMul t (psi.reverse.getD k 0#8) (gfPow t x (k - 1)))

/-- The magnitude e at position p (R232): X·Ω(X^(-1)) / Ψ'(X^(-1)). -/
def magnitude (t : Tables) (psi omega : ByteSeq) (p n : Nat) : Except Raise Byte :=
  let xi := locatorInverse t p n
  let num := gfMul t (locatorValue t p n) (polyEval t omega xi)
  let den := derivEval t psi xi
  if den = 0#8 then .error .uncorrectable else gfDiv t num den

/-- Every magnitude of R232, in the order of the positions; the first raise ends it. -/
def magnitudes (t : Tables) (psi omega : ByteSeq) (n : Nat) : ByteSeq → Except Raise ByteSeq
  | [] => .ok []
  | p :: ps =>
    match magnitude t psi omega p.toNat n with
    | .error e => .error e
    | .ok x =>
      match magnitudes t psi omega n ps with
      | .error e => .error e
      | .ok xs => .ok (x :: xs)

/-- `R'[P[t]] <- R'[P[t]] ⊕ e[t]` for each t (R232). -/
def applyMagnitudes (word : ByteSeq) (pes : List (Byte × Byte)) : ByteSeq :=
  pes.foldl (fun w pe => w.modify pe.1.toNat (· ^^^ pe.2)) word

/-- `forney_correct(R, S, P)` (R232): every magnitude before any write. -/
def forneyCorrect (t : Tables) (word synd ps : ByteSeq) : Except Raise ByteSeq :=
  let n := word.length
  if synd.length < ps.length then .error .uncorrectable
  else
    let psi := errataLocator t ps n
    match magnitudes t psi (errorEvaluator t synd psi) n ps with
    | .error e => .error e
    | .ok es => .ok (applyMagnitudes word (ps.zip es))

/-- EEVAL's function (R233). -/
def eevalOut (t : Tables) (synd psi : ByteSeq) : Except Raise ByteSeq :=
  if synd.length = 0 ∨ psi.length = 0 then .error .invalidInput else .ok (errorEvaluator t synd psi)

/-- EEVAL (R233). -/
def execEeval (d a b : VReg) (s : State) : Result :=
  requireTables s <| sourceV s a fun x => sourceV s b fun p => finishV s d (eevalOut s.tables x p)

/-- FCORR's function (R234). -/
def fcorrOut (t : Tables) (word synd ps : ByteSeq) : Except Raise ByteSeq :=
  if word.length = 0 ∨ Config.nMax < word.length ∨ synd.length = 0 ∨
      ps.any (fun p => decide (word.length ≤ p.toNat)) then .error .invalidInput
  else forneyCorrect t word synd ps

/-- FCORR (R234). -/
def execFcorr (d a b c : VReg) (s : State) : Result :=
  requireTables s <| sourceV s a fun w => sourceV s b fun x => sourceV s c fun p =>
    finishV s d (fcorrOut s.tables w x p)

end Sys2Proof.Machine
end

