-- ==== Sys2Proof/Machine/RootFinder.lean ====
section
/-! DEFINITION. The error locator root finder (45_root_finder.md) and ROOTS. -/

namespace Sys2Proof.Machine

/-- The positions p < n, ascending, at whose X_p^(-1) Λ is 0 (R220). -/
def rootPositions (t : Tables) (lam : ByteSeq) (n : Nat) : List Nat :=
  (List.range n).filter fun p => polyEval t lam (locatorInverse t p n) == 0#8

/-- `find_roots(Λ, n)` (R220). -/
def findRoots (t : Tables) (lam : ByteSeq) (n : Nat) : Except Raise ByteSeq :=
  if (rootPositions t lam n).length ≠ polyDeg lam then .error .uncorrectable
  else .ok ((rootPositions t lam n).map (BitVec.ofNat 8))

/-- ROOTS's function (R221). -/
def rootsOut (t : Tables) (lam : ByteSeq) (n : Nat) : Except Raise ByteSeq :=
  if n = 0 ∨ lam.length = 0 ∨ isZero lam then .error .invalidInput else findRoots t lam n

/-- ROOTS (R221). -/
def execRoots (d a : VReg) (n : Byte) (s : State) : Result :=
  requireTables s <| sourceV s a fun lam => finishV s d (rootsOut s.tables lam n.toNat)

end Sys2Proof.Machine
end

