-- ==== Sys2Proof/Machine/Correct.lean ====
section
/-! DEFINITION. Whole-pipeline correction (47_correct.md) and CORRECT. -/

namespace Sys2Proof.Machine

/-- A word split into its first len - r elements and its last r (R250). -/
def splitWord (word : ByteSeq) (r : Nat) : ByteSeq × ByteSeq :=
  (word.take (word.length - r), word.drop (word.length - r))

/-- The stages of R250 after the syndromes S of R, which are not all zero: Γ, T, Λ, F, P, R'. -/
def correctStages (t : Tables) (word synd erasures : ByteSeq) : Except Raise ByteSeq :=
  match forneySyndromes t synd (errataLocator t erasures word.length) with
  | .error e => .error e
  | .ok ts =>
    match berlekampMassey t ts with
    | .error e => .error e
    | .ok lam =>
      match findRoots t lam word.length with
      | .error e => .error e
      | .ok found => forneyCorrect t word synd (erasures ++ found)

/-- `rs_correct(R, E, r)` (R250): the first raise ends it. The early return is R252, the post-check
R253. -/
def rsCorrect (t : Tables) (word erasures : ByteSeq) (r : Nat) :
    Except Raise (ByteSeq × ByteSeq) :=
  let n := word.length
  if ¬ (1 ≤ r ∧ r < n ∧ n ≤ Config.nMax) then .error .invalidInput
  else if distinct erasures = false ∨ erasures.any (fun p => decide (n ≤ p.toNat)) then
    .error .invalidInput
  else if r < erasures.length then .error .uncorrectable
  else
    let synd := syndromes t word r
    if isZero synd then .ok (splitWord word r)
    else
      match correctStages t word synd erasures with
      | .error e => .error e
      | .ok fixed =>
        if isZero (syndromes t fixed r) then .ok (splitWord fixed r) else .error .uncorrectable

/-- CORRECT (R251): D = C is illegal, and settled before anything else (R77, R307). -/
def execCorrect (d c a b : VReg) (r : Byte) (s : State) : Result :=
  if d = c then illegal s
  else requireTables s <| sourceV s a fun w => sourceV s b fun e =>
    finishVV s d c (rsCorrect s.tables w e r.toNat)

end Sys2Proof.Machine
end

