-- ==== Sys2Proof/Machine/Encoder.lean ====
section
/-! DEFINITION. The encoder (42_encoder.md): generator polynomial, systematic encoding, GENPOLY,
ENCODE. -/

namespace Sys2Proof.Machine

/-- `generator_poly(r)` (R170). -/
def generatorPoly (t : Tables) (r : Nat) : ByteSeq :=
  (List.range r).foldl (fun g i => polyMul t g [1#8, alpha t i]) [1#8]

/-- `rs_encode(m, r)` (R172). -/
def rsEncode (t : Tables) (m : ByteSeq) (r : Nat) : Except Raise ByteSeq :=
  if m.length < 1 ∨ r < 1 ∨ Config.nMax < m.length + r then .error .invalidInput
  else
    match polyDivmod t (m ++ zeros r) (generatorPoly t r) with
    | .ok (_, rm) => .ok (m ++ rm)
    | .error e => .error e

/-- GENPOLY's function (R171). -/
def genpolyOut (t : Tables) (r : Nat) : Except Raise ByteSeq :=
  if r = 0 then .error .invalidInput else .ok (generatorPoly t r)

/-- GENPOLY (R171). -/
def execGenpoly (d : VReg) (r : Byte) (s : State) : Result :=
  requireTables s <| finishV s d (genpolyOut s.tables r.toNat)

/-- ENCODE (R173). -/
def execEncode (d a : VReg) (r : Byte) (s : State) : Result :=
  requireTables s <| sourceV s a fun m => finishV s d (rsEncode s.tables m r.toNat)

end Sys2Proof.Machine
end

