-- ==== Sys2Proof/Machine/Dispatch.lean ====
section
/-! DEFINITION. The meaning of every command, one arm per constructor of Instr (R75, R79). -/

namespace Sys2Proof.Machine

def exec (i : Instr) (s : State) : Host.Outcome State Fault Refusal :=
  match i with
  | .nop => Sys2Proof.Machine.execNop s
  | .tblinit primlo gen => Sys2Proof.Machine.execTblinit primlo gen s
  | .sldi d imm => Sys2Proof.Machine.execSldi d imm s
  | .gadd d a b => Sys2Proof.Machine.execGadd d a b s
  | .gmul d a b => Sys2Proof.Machine.execGmul d a b s
  | .gdiv d a b => Sys2Proof.Machine.execGdiv d a b s
  | .gpow d a b => Sys2Proof.Machine.execGpow d a b s
  | .ginv d a => Sys2Proof.Machine.execGinv d a s
  | .glog d a => Sys2Proof.Machine.execGlog d a s
  | .gexp d a => Sys2Proof.Machine.execGexp d a s
  | .vget d a index => Sys2Proof.Machine.execVget d a index s
  | .vset d a index => Sys2Proof.Machine.execVset d a index s
  | .vcat d a b => Sys2Proof.Machine.execVcat d a b s
  | .vzero d len => Sys2Proof.Machine.execVzero d len s
  | .padd d a b => Sys2Proof.Machine.execPadd d a b s
  | .pmul d a b => Sys2Proof.Machine.execPmul d a b s
  | .pscale d a b => Sys2Proof.Machine.execPscale d a b s
  | .peval d a b => Sys2Proof.Machine.execPeval d a b s
  | .pdiv d c a b => Sys2Proof.Machine.execPdiv d c a b s
  | .genpoly d r => Sys2Proof.Machine.execGenpoly d r s
  | .encode d a r => Sys2Proof.Machine.execEncode d a r s
  | .synd d a r => Sys2Proof.Machine.execSynd d a r s
  | .eloc d a n => Sys2Proof.Machine.execEloc d a n s
  | .fsynd d a b => Sys2Proof.Machine.execFsynd d a b s
  | .bma d a => Sys2Proof.Machine.execBma d a s
  | .roots d a n => Sys2Proof.Machine.execRoots d a n s
  | .eeval d a b => Sys2Proof.Machine.execEeval d a b s
  | .fcorr d a b c => Sys2Proof.Machine.execFcorr d a b c s
  | .correct d c a b r => Sys2Proof.Machine.execCorrect d c a b r s

end Sys2Proof.Machine
end

