-- ==== Sys2Proof/Machine/Cycle.lean ====
section
/-! DEFINITION. The core's step: the execution cycle of a pending word (R65, R79). -/

namespace Sys2Proof.Machine

/-- `execute(w)` (R79): an undecodable word is illegal (R76); D = C of PDIV and CORRECT is settled in
their own meanings, before anything else (R77; log 6). -/
def executeWord (w : CmdWord) (s : State) : Result :=
  match decode w with
  | .ok i => exec i s
  | .error _ => illegal s

/-- "and sets PENDING to none unless the model faulted" (R65). -/
def retireResult : Result → Result
  | .next t => .next t.retire
  | .fault f => .fault f
  | .refused r => .refused r

/-- The core's step (R65): enabled exactly when PENDING is not none and FAULT is none. A faulted model
takes no further step (R33); with nothing pending the core waits, with all state held (R317; log 5). -/
def coreStep (s : State) : Result :=
  match s.fault with
  | some f => .fault f
  | none =>
    match s.pending with
    | none => .next s
    | some w => retireResult (executeWord w s)

/-- `s` with a word in PENDING and no fault recorded, which is all a core step takes (R65, log 8). -/
def State.loadWord (s : State) (w : CmdWord) : State :=
  { s.acceptWord w with fault := none }

end Sys2Proof.Machine
end

