-- ==== Sys2Proof/Machine/Step.lean ====
section
/-! DEFINITION. One step of the core, and where it finds its next command. -/

namespace Sys2Proof.Machine

/-- One step of the core (R65, R79). -/
def step (s : State) : Host.Outcome State Fault Refusal := coreStep s

/-- `s` with the word of the opcode table stored where `step` finds its next command: in PENDING, as
H_WRCMD stores it (R32, R62; log 8). -/
def State.withFetchWord (s : State) (nbits w : Nat) : State := s.loadWord (tableWord nbits w)

end Sys2Proof.Machine
end

