-- ==== Sys2Proof/Machine/Assembler.lean ====
section
/-! DEFINITION. Assembler text and pseudo-instructions (R81, R82): one line of text to at most one
command. What R81 leaves open about blanks and letters is log 15. -/

namespace Sys2Proof

/-- An operand as the text writes it (R81). -/
inductive AsmOperand where
  | s (i : SReg)
  | v (i : VReg)
  | imm (n : Nat)
  deriving DecidableEq, Repr

/-- Why a line gives no word (R81). -/
inductive AsmError where
  /-- The mnemonic is none of R75's or R82's. -/
  | unknownMnemonic
  /-- An operand is no register and no number. -/
  | badOperand
  /-- Too few or many operands, a register of the wrong class, or an immediate out of range. -/
  | operandsDoNotFit
  deriving DecidableEq, Repr

/-- The operand lists of R81 and R82, each with the command it writes: `s` and `v` for a register of
that class, `i` for an immediate 0..255, `p` for TBLINIT's first operand, 0..0x1FF. -/
inductive AsmShape where
  | none (i : Instr)
  | pi (f : Byte → Byte → Instr)
  | s (f : SReg → Instr)
  | v (f : VReg → Instr)
  | si (f : SReg → Byte → Instr)
  | vi (f : VReg → Byte → Instr)
  | ss (f : SReg → SReg → Instr)
  | vv (f : VReg → VReg → Instr)
  | sss (f : SReg → SReg → SReg → Instr)
  | vvv (f : VReg → VReg → VReg → Instr)
  | svi (f : SReg → VReg → Byte → Instr)
  | vsi (f : VReg → SReg → Byte → Instr)
  | vvi (f : VReg → VReg → Byte → Instr)
  | vvs (f : VReg → VReg → SReg → Instr)
  | svs (f : SReg → VReg → SReg → Instr)
  | vvvv (f : VReg → VReg → VReg → VReg → Instr)
  | vvvvi (f : VReg → VReg → VReg → VReg → Byte → Instr)

/-- An immediate 0..255 (R81). -/
def imm8? (n : Nat) : Option Byte := if n < 256 then some (BitVec.ofNat 8 n) else none

/-- TBLINIT's first operand, 0..0x1FF, of which bits 7:0 are encoded (R81). -/
def immPoly? (n : Nat) : Option Byte := if n < 512 then some (BitVec.ofNat 8 n) else none

/-- The command a shape makes of a list of operands, if they fit it. -/
def AsmShape.apply : AsmShape → List AsmOperand → Option Instr
  | .none i, [] => some i
  | .pi f, [.imm p, .imm g] => (immPoly? p).bind fun p => (imm8? g).map fun g => f p g
  | .s f, [.s d] => some (f d)
  | .v f, [.v d] => some (f d)
  | .si f, [.s d, .imm n] => (imm8? n).map (f d)
  | .vi f, [.v d, .imm n] => (imm8? n).map (f d)
  | .ss f, [.s d, .s a] => some (f d a)
  | .vv f, [.v d, .v a] => some (f d a)
  | .sss f, [.s d, .s a, .s b] => some (f d a b)
  | .vvv f, [.v d, .v a, .v b] => some (f d a b)
  | .svi f, [.s d, .v a, .imm n] => (imm8? n).map (f d a)
  | .vsi f, [.v d, .s a, .imm n] => (imm8? n).map (f d a)
  | .vvi f, [.v d, .v a, .imm n] => (imm8? n).map (f d a)
  | .vvs f, [.v d, .v a, .s b] => some (f d a b)
  | .svs f, [.s d, .v a, .s b] => some (f d a b)
  | .vvvv f, [.v d, .v a, .v b, .v c] => some (f d a b c)
  | .vvvvi f, [.v d, .v c, .v a, .v b, .imm n] => (imm8? n).map (f d c a b)
  | _, _ => Option.none

/-- The mnemonics of R81, each with its operand list. -/
def asmCommands : List (List Char × AsmShape) := [
  ("NOP".toList, .none .nop),
  ("TBLINIT".toList, .pi .tblinit),
  ("SLDI".toList, .si .sldi),
  ("GADD".toList, .sss .gadd),
  ("GMUL".toList, .sss .gmul),
  ("GDIV".toList, .sss .gdiv),
  ("GPOW".toList, .sss .gpow),
  ("GINV".toList, .ss .ginv),
  ("GLOG".toList, .ss .glog),
  ("GEXP".toList, .ss .gexp),
  ("VGET".toList, .svi .vget),
  ("VSET".toList, .vsi .vset),
  ("VCAT".toList, .vvv .vcat),
  ("VZERO".toList, .vi .vzero)] ++ [
  ("PADD".toList, .vvv .padd),
  ("PMUL".toList, .vvv .pmul),
  ("PSCALE".toList, .vvs .pscale),
  ("PEVAL".toList, .svs .peval),
  ("PDIV".toList, .vvvv .pdiv),
  ("GENPOLY".toList, .vi .genpoly),
  ("ENCODE".toList, .vvi .encode),
  ("SYND".toList, .vvi .synd),
  ("ELOC".toList, .vvi .eloc),
  ("FSYND".toList, .vvv .fsynd),
  ("BMA".toList, .vv .bma),
  ("ROOTS".toList, .vvi .roots),
  ("EEVAL".toList, .vvv .eeval),
  ("FCORR".toList, .vvvv .fcorr),
  ("CORRECT".toList, .vvvvi .correct)]

/-- The pseudo-instructions of R82, each with its expansion: exactly one command. -/
def asmPseudos : List (List Char × AsmShape) := [
  ("TBLINIT".toList, .none (.tblinit Config.primLoDefault Config.genDefault)),
  ("GSUB".toList, .sss .gadd),
  ("PSUB".toList, .vvv .padd),
  ("GSQR".toList, .ss fun d a => .gmul d a a),
  ("SCLR".toList, .s fun d => .sldi d 0#8),
  ("VCLR".toList, .v fun d => .vzero d 0#8)]

/-- A command from its mnemonic, in any case, and its operands (R81, R82). -/
def assemble (mnemonic : List Char) (ops : List AsmOperand) : Except AsmError Instr :=
  let name := mnemonic.map Char.toUpper
  let rows := (asmCommands ++ asmPseudos).filter fun row => row.1 == name
  if rows.isEmpty then .error .unknownMnemonic
  else
    match rows.findSome? fun row => row.2.apply ops with
    | some i => .ok i
    | none => .error .operandsDoNotFit

/-! ### Text -/

/-- A space or a tab. -/
def isBlank (c : Char) : Bool := c == ' ' || c == '\t'

/-- A text without the blanks at its two ends. -/
def trimBlanks (l : List Char) : List Char :=
  ((l.dropWhile isBlank).reverse.dropWhile isBlank).reverse

/-- The value of a hexadecimal digit, in either case. -/
def digit? (c : Char) : Option Nat :=
  if '0' ≤ c ∧ c ≤ '9' then some (c.toNat - '0'.toNat)
  else if 'a' ≤ c ∧ c ≤ 'f' then some (c.toNat - 'a'.toNat + 10)
  else if 'A' ≤ c ∧ c ≤ 'F' then some (c.toNat - 'A'.toNat + 10)
  else none

/-- The number a list of digits writes in a base, from the value of the digits before them. -/
def digits? (base : Nat) : Nat → List Char → Option Nat
  | acc, [] => some acc
  | acc, c :: cs =>
    match digit? c with
    | some d => if d < base then digits? base (acc * base + d) cs else none
    | none => none

/-- A decimal number, or `0x` and a hexadecimal one (R81). -/
def number? : List Char → Option Nat
  | [] => none
  | ['0', 'x'] => none
  | '0' :: 'x' :: cs => digits? 16 0 cs
  | c :: cs => digits? 10 0 (c :: cs)

/-- A register number 0..15, written without a leading zero (R81). -/
def regNumber? (l : List Char) : Option (Fin 16) :=
  match l with
  | [c] => (digits? 10 0 [c]).bind fun n => if h : n < 16 then some ⟨n, h⟩ else none
  | ['1', c] => (digits? 10 0 ['1', c]).bind fun n => if h : n < 16 then some ⟨n, h⟩ else none
  | _ => none

/-- One operand: `s0`..`s15`, `v0`..`v15`, or a number with an optional `#` before it (R81). -/
def operand? : List Char → Option AsmOperand
  | 's' :: l => (regNumber? l).map .s
  | 'v' :: l => (regNumber? l).map .v
  | '#' :: l => (number? l).map .imm
  | l => (number? l).map .imm

/-- A text cut at its commas. -/
def cutAtCommas : List Char → List (List Char)
  | [] => [[]]
  | ',' :: l => [] :: cutAtCommas l
  | c :: l =>
    match cutAtCommas l with
    | [] => [[c]]
    | h :: t => (c :: h) :: t

/-- The operands of a line; none when nothing but blanks follows the mnemonic (R81). -/
def operands? (l : List Char) : Option (List AsmOperand) :=
  if (trimBlanks l).isEmpty then some []
  else (cutAtCommas l).mapM fun o => operand? (trimBlanks o)

/-- A line of assembler text as a command: an optional comment runs from `;` to the end (R81). -/
def assembleLine (line : List Char) : Except AsmError Instr :=
  let text := trimBlanks (line.takeWhile (· != ';'))
  match operands? (text.dropWhile fun c => !isBlank c) with
  | some ops => assemble (text.takeWhile fun c => !isBlank c) ops
  | none => .error .badOperand

/-- The word a line of assembler text gives, if it gives one (R81). -/
def assembleWord (line : List Char) : Option CmdWord :=
  match assembleLine line with
  | .ok i => some (encode i)
  | .error _ => none

end Sys2Proof
end

