-- ==== Sys2Proof/Machine/HostInterface.lean ====
section
/-! DEFINITION. The host agent and the platform (20_memory.md R60 to R66, R340): the seven operations
of the host interface, reset, and runs, in which the moves of host, core and platform interleave. -/

namespace Sys2Proof.Machine

/-- The seven operations of R62. A register number is 0..15 by its type; a value and a sequence are
given as numbers, so that what the interface cannot present can be refused (R62, U10). -/
inductive HostOp where
  | wrcmd (w : CmdWord)
  | rdstatus
  | rdcfg
  | wrs (i : SReg) (v : Nat)
  | rds (i : SReg)
  | wrv (i : VReg) (q : List Nat)
  | rdv (i : VReg)
  deriving DecidableEq, Repr

/-- What the host gets back (R62). -/
inductive HostReply where
  | nothing
  | word (w : BitVec 32)
  | value (v : Byte)
  | sequence (q : ByteSeq)
  deriving DecidableEq, Repr

/-- What a host operation, or any move of a run, answers: the next state and the reply. -/
abbrev MoveResult := Host.Outcome (State × HostReply) Fault Refusal

/-- The data path is 8 bits wide and the length field holds at most VLEN_MAX (R62). -/
def HostOp.presentable : HostOp → Bool
  | .wrs _ v => decide (v < 256)
  | .wrv _ q => decide (q.length ≤ Config.vlenMax) && q.all (fun v => decide (v < 256))
  | .wrcmd _ | .rdstatus | .rdcfg | .rds _ | .rdv _ => true

/-- The effect of an operation inside its "allowed when" column but for the written condition of the
two register reads, which faults (R62, R64). -/
def hostEffect (op : HostOp) (s : State) : MoveResult :=
  match op with
  | .wrcmd w => .next (s.acceptWord w, .nothing)
  | .rdstatus => .next (s, .word s.statusWord)
  | .rdcfg => .next (s, .word s.cfgWord)
  | .wrs i v => .next (s.writeS i (BitVec.ofNat 8 v), .nothing)
  | .rds i =>
    match s.readS i with
    | some v => .next (s, .value v)
    | none => .fault .unwritten
  | .wrv i q => .next (s.writeV i (q.map (BitVec.ofNat 8)), .nothing)
  | .rdv i =>
    match s.readV i with
    | some q => .next (s, .sequence q)
    | none => .fault .unwritten

/-- One step of the host agent (R62, R64). A faulted model takes no further step (R33); an operation
that cannot be presented does not happen (R62, log 9); every operation but H_RDSTATUS needs BUSY = 0.
DESIGN CHOICE (log 18): H_RDS or H_RDV of an unwritten register while BUSY = 1 raises F_HOST_BUSY, not
F_UNWRITTEN; both rules apply to it and no rule orders them for a host step. -/
def hostStep (op : HostOp) (s : State) : MoveResult :=
  match s.fault with
  | some f => .fault f
  | none =>
    if op.presentable = false then .refused .hostDataNotPresentable
    else if s.busy = true ∧ op ≠ .rdstatus then .fault .hostBusy
    else hostEffect op s

/-! ### Runs -/

/-- One move of a run: a step of the core, an operation of the host, or a reset (R60, R65, R340). -/
inductive Move where
  | core
  | host (op : HostOp)
  | reset
  deriving DecidableEq, Repr

/-- A core step as a move: it gives the host nothing back. -/
def coreMove (s : State) : MoveResult :=
  match step s with
  | .next t => .next (t, .nothing)
  | .fault f => .fault f
  | .refused r => .refused r

/-- One move. Reset may happen at any time, discards a pending command and a fault, and is the only
move that leaves a faulted state (R310, R340). -/
def move (m : Move) (s : State) : MoveResult :=
  match m with
  | .core => coreMove s
  | .host op => hostStep op s
  | .reset => .next (State.reset, .nothing)

/-- The state a move leaves behind: the next state; after a fault the same state with FAULT set
(R33, R310); after a refusal the same state, since the operation does not happen (U10). -/
def stateAfter (m : Move) (s : State) : State :=
  match move m s with
  | .next (t, _) => t
  | .fault f => s.recordFault f
  | .refused _ => s

/-- What a move gives the host back: nothing where it does not happen. -/
def replyOf (m : Move) (s : State) : HostReply :=
  match move m s with
  | .next (_, r) => r
  | .fault _ => .nothing
  | .refused _ => .nothing

/-- A run over a list of moves, in any interleaving (R65): the final state and what the host got back,
which is all a claim may observe (R66). -/
def runMoves : List Move → State → State × List HostReply
  | [], s => (s, [])
  | m :: ms, s =>
    let rest := runMoves ms (stateAfter m s)
    (rest.1, replyOf m s :: rest.2)

end Sys2Proof.Machine
end

