-- ==== Sys2Proof/Machine/Operands.lean ====
section
/-! DEFINITION. The operand columns of the opcode map (R75): which registers a command reads, in the
order the execution cycle checks them, which it writes, and whether it uses the tables (R80). The
meanings read and write their operands themselves (Ops.lean); these columns say, for every command at
once, what the statements are about. -/

namespace Sys2Proof

/-- A register operand with its class, which the opcode fixes (R71, R73). -/
inductive Operand where
  | s (i : SReg)
  | v (i : VReg)
  deriving DecidableEq, Repr

/-- The Sources column of R75, in the order R79 checks them. -/
def Instr.sources : Instr → List Operand
  | .nop => []
  | .tblinit _ _ => []
  | .sldi _ _ => []
  | .gadd _ a b => [.s a, .s b]
  | .gmul _ a b => [.s a, .s b]
  | .gdiv _ a b => [.s a, .s b]
  | .gpow _ a b => [.s a, .s b]
  | .ginv _ a => [.s a]
  | .glog _ a => [.s a]
  | .gexp _ a => [.s a]
  | .vget _ a _ => [.v a]
  | .vset d a _ => [.v d, .s a]
  | .vcat _ a b => [.v a, .v b]
  | .vzero _ _ => []
  | .padd _ a b => [.v a, .v b]
  | .pmul _ a b => [.v a, .v b]
  | .pscale _ a b => [.v a, .s b]
  | .peval _ a b => [.v a, .s b]
  | .pdiv _ _ a b => [.v a, .v b]
  | .genpoly _ _ => []
  | .encode _ a _ => [.v a]
  | .synd _ a _ => [.v a]
  | .eloc _ a _ => [.v a]
  | .fsynd _ a b => [.v a, .v b]
  | .bma _ a => [.v a]
  | .roots _ a _ => [.v a]
  | .eeval _ a b => [.v a, .v b]
  | .fcorr _ a b c => [.v a, .v b, .v c]
  | .correct _ _ a b _ => [.v a, .v b]

/-- The Dests column of R75, the registers in it. -/
def Instr.dests : Instr → List Operand
  | .nop => []
  | .tblinit _ _ => []
  | .sldi d _ => [.s d]
  | .gadd d _ _ => [.s d]
  | .gmul d _ _ => [.s d]
  | .gdiv d _ _ => [.s d]
  | .gpow d _ _ => [.s d]
  | .ginv d _ => [.s d]
  | .glog d _ => [.s d]
  | .gexp d _ => [.s d]
  | .vget d _ _ => [.s d]
  | .vset d _ _ => [.v d]
  | .vcat d _ _ => [.v d]
  | .vzero d _ => [.v d]
  | .padd d _ _ => [.v d]
  | .pmul d _ _ => [.v d]
  | .pscale d _ _ => [.v d]
  | .peval d _ _ => [.s d]
  | .pdiv d c _ _ => [.v d, .v c]
  | .genpoly d _ => [.v d]
  | .encode d _ _ => [.v d]
  | .synd d _ _ => [.v d]
  | .eloc d _ _ => [.v d]
  | .fsynd d _ _ => [.v d]
  | .bma d _ => [.v d]
  | .roots d _ _ => [.v d]
  | .eeval d _ _ => [.v d]
  | .fcorr d _ _ _ => [.v d]
  | .correct d c _ _ _ => [.v d, .v c]

/-- The T column of R75: the table-using commands (R80). -/
def Instr.tableUsing : Instr → Bool
  | .nop | .tblinit _ _ | .sldi _ _ | .gadd _ _ _ | .vget _ _ _ | .vset _ _ _ | .vcat _ _ _
  | .vzero _ _ | .padd _ _ _ => false
  | .gmul _ _ _ | .gdiv _ _ _ | .gpow _ _ _ | .ginv _ _ | .glog _ _ | .gexp _ _ | .pmul _ _ _
  | .pscale _ _ _ | .peval _ _ _ | .pdiv _ _ _ _ | .genpoly _ _ | .encode _ _ _ | .synd _ _ _
  | .eloc _ _ _ | .fsynd _ _ _ | .bma _ _ | .roots _ _ _ | .eeval _ _ _ | .fcorr _ _ _ _
  | .correct _ _ _ _ _ => true

/-- Whether the register an operand names is written in a state (R23). -/
def Operand.written (s : Machine.State) : Operand → Bool
  | .s i => (s.readS i).isSome
  | .v i => (s.readV i).isSome

/-- Whether every source of a command is written (R79). -/
def Instr.sourcesWritten (i : Instr) (s : Machine.State) : Bool :=
  i.sources.all (·.written s)

end Sys2Proof
end

