-- ==== Sys2Proof/Safety.lean ====
section
/-! DEFINITION. What counts as a safe run, in the terms the statements use: the invariants of the state
and the states a run can reach. -/

namespace Sys2Proof.Machine

/-- A command's encoding: its word under its format's mask is its opcode alone, and the decoder reads
the command back from its word (R72, R75, R76). -/
def HasEncoding (i : Instr) (opc : Byte) (mask : CmdWord) : Prop :=
  encode i &&& mask = opc ++ 0#24 ∧ decode (encode i) = .ok i

/-- R25's invariants of a table store: LOG[EXP[i]] = i with EXP[i] nonzero for every i in 0..254, and
EXP[LOG[x]] = x with LOG[x] ≤ 254 for every nonzero x; and EXP[0] = 1, where R103's loop starts. -/
def Tables.Valid (t : Tables) : Prop :=
  (∀ i : Fin 255, t.exp[i] ≠ 0#8 ∧ logOf t t.exp[i] = i.val) ∧
    (∀ x : Byte, x ≠ 0#8 → logOf t x ≤ 254 ∧ alpha t (logOf t x) = x) ∧
    alpha t 0 = 1#8

/-- TV = 1 says the store is the one a successful TBLINIT built, and PRIM and GEN are that TBLINIT's
operands (R25 to R28, R103). -/
def State.TablesBuilt (s : State) : Prop :=
  s.tv = true → ∃ primlo : Byte, s.prim = 0x100#9 + primlo.setWidth 9 ∧
    fullPeriod primlo s.gen = true ∧ s.tables = buildTables primlo s.gen

/-- Every written buffer holds a sequence of at most VLEN_MAX elements (R24). -/
def State.BuffersBounded (s : State) : Prop :=
  ∀ i : VReg, ∀ q : ByteSeq, s.readV i = some q → q.length ≤ Config.vlenMax

/-- The invariant of the machine. -/
def State.Inv (s : State) : Prop := s.TablesBuilt ∧ s.BuffersBounded

/-- The states some run of moves, in any interleaving, leads to from reset (R65, R340). -/
def State.Reachable (s : State) : Prop := ∃ ms : List Move, (runMoves ms State.reset).1 = s

end Sys2Proof.Machine
end

