-- ==== Sys2Proof/Certificates/Slice0/Obligations.lean ====
section
/-! DEFINITION. The statements for the provers, each taken from a numbered rule of the spec. -/

open Sys2Proof Sys2Proof.Machine

/-! ### Reset and the control registers -/

/-- R340: what reset leaves, and that a reset may happen in any state and leads there. The contents of
the table store are unspecified after reset, and nothing is said of them. -/
def Obligations.ResetLeavesTheResetValues : Prop :=
  (∀ i : SReg, State.reset.readS i = none) ∧ (∀ i : VReg, State.reset.readV i = none) ∧
    State.reset.tv = false ∧ State.reset.prim = 0#9 ∧ State.reset.gen = 0#8 ∧
    State.reset.statusWord = 0#32 ∧ State.reset.cfgWord = 0#32 ∧ State.reset.code = .ok ∧
    State.reset.pending = none ∧ State.reset.fault = none ∧
    ∀ s : State, move .reset s = .next (State.reset, .nothing)

/-- R29: the fields of STATUS, its reserved bits 0, CODE never 6 or 7, its reset value. -/
def Obligations.StatusWordFields : Prop :=
  (∀ s : State,
    s.statusWord.extractLsb' 0 1 = BitVec.ofBool s.pending.isSome ∧
    s.statusWord.extractLsb' 1 1 = BitVec.ofBool s.tv ∧
    s.statusWord.extractLsb' 2 2 = 0#2 ∧
    s.statusWord.extractLsb' 4 3 = s.code.bits ∧
    s.statusWord.extractLsb' 7 25 = 0#25 ∧
    s.code.bits.toNat ≤ 5 ∧
    (s.fault = none → hostStep .rdstatus s = .next (s, .word s.statusWord))) ∧
  State.reset.statusWord = 0#32

/-- R30: the fields of CFG, its reserved bits 0, its reset value, and its value after the default
TBLINIT. -/
def Obligations.CfgWordFields : Prop :=
  (∀ s : State,
    s.cfgWord.extractLsb' 0 9 = s.prim ∧ s.cfgWord.extractLsb' 9 7 = 0#7 ∧
    s.cfgWord.extractLsb' 16 8 = s.gen ∧ s.cfgWord.extractLsb' 24 8 = 0#8 ∧
    (s.fault = none → s.pending = none →
      hostStep .rdcfg s = .next (s, .word s.cfgWord)) ∧
    ∃ t, exec (.tblinit 0x1D#8 2#8) s = .next t ∧ t.cfgWord = 0x0002011D#32) ∧
  State.reset.cfgWord = 0#32

/-! ### Encoding -/

/-- Decode and encode agree: for every command, whatever its operands, decoding its word gives it back. -/
def Obligations.DecodeOfEncodeIsTheCommand : Prop :=
  ∀ i : Instr, decode (encode i) = .ok i

/-- Each word has one meaning: a word that decodes to a command is that command's encoding, so no bit
of a decoded word is ignored (R72). -/
def Obligations.DecodedWordIsTheEncoding : Prop :=
  ∀ (w : CmdWord) (i : Instr), decode w = .ok i → encode i = w

/-- R76 and R78: a word no row selects, be its opcode reserved or a must-be-zero bit 1, sets CODE to
ILLEGAL_COMMAND and does nothing else; at most one row selects a word; the opcodes of R78 are reserved,
and of the words with opcode 0x00 only 0x00000000 is a command. -/
def Obligations.IllegalWordsSetTheCodeAlone : Prop :=
  (∀ (w : CmdWord) (s : State), (∀ r ∈ opcodeMap, w &&& r.format.mask ≠ r.opc ++ 0#24) →
    s.fault = none → s.pending = some w →
    step s = .next { s with code := .illegalCommand, pending := none }) ∧
  (∀ (w : CmdWord) (r r' : Row), r ∈ opcodeMap → r' ∈ opcodeMap → r.selects w = true →
    r'.selects w = true → r.mnemonic = r'.mnemonic) ∧
  (∀ w : CmdWord, (0x03 ≤ (fieldOpc w).toNat ∧ (fieldOpc w).toNat ≤ 0x0F ∨
      0x17 ≤ (fieldOpc w).toNat ∧ (fieldOpc w).toNat ≤ 0x1F ∨
      0x24 ≤ (fieldOpc w).toNat ∧ (fieldOpc w).toNat ≤ 0x2F ∨
      0x35 ≤ (fieldOpc w).toNat ∧ (fieldOpc w).toNat ≤ 0x3F ∨
      0x42 ≤ (fieldOpc w).toNat ∧ (fieldOpc w).toNat ≤ 0x4F ∨
      0x58 ≤ (fieldOpc w).toNat) ↔ decode w = .error (.reservedOpcode (fieldOpc w))) ∧
  (∀ w : CmdWord, fieldOpc w = 0#8 → w ≠ 0#32 → decode w = .error (.nonzeroMustBeZero 0#8))

/-- Some words written out in the spec's rules decode to the commands they stand for. -/
def Obligations.WordsOfTheRulesDecode : Prop :=
  decode 0x00000000#32 = .ok .nop ∧ decode 0x0100021D#32 = .ok (.tblinit 0x1D#8 2#8) ∧
    decode 0x02100053#32 = .ok (.sldi 1 0x53#8) ∧ decode 0x11312000#32 = .ok (.gmul 3 1 2) ∧
    decode 0x21100000#32 = .ok (.vset 1 0 0#8) ∧ decode 0x33312000#32 = .ok (.peval 3 1 2) ∧
    decode 0x34431500#32 = .ok (.pdiv 4 5 3 1) ∧ decode 0x41100004#32 = .ok (.encode 1 0 4#8) ∧
    decode 0x53540000#32 = .ok (.bma 5 4) ∧ decode 0x56802700#32 = .ok (.fcorr 8 0 2 7) ∧
    decode 0x57214304#32 = .ok (.correct 2 3 1 4 4#8)

/-- R51's byte channel: a command word goes least significant byte first, and the decoder reads the
four bytes of a word as that word, leaving the bytes after them. -/
def Obligations.ByteChannelCarriesTheWord : Prop :=
  ∀ (w : CmdWord) (rest : ByteSeq),
    wordToBytes w =
      [w.extractLsb' 0 8, w.extractLsb' 8 8, w.extractLsb' 16 8, w.extractLsb' 24 8] ∧
    (∀ i : Instr, decodeBytes (wordToBytes w ++ rest) = .ok (i, rest) ↔ decode w = .ok i) ∧
    ∀ e : DecodeError, decodeBytes (wordToBytes w ++ rest) = .error e ↔ decode w = .error e

/-- R82: each pseudo-instruction expands to exactly one command. -/
def Obligations.PseudoInstructionsExpand : Prop :=
  assemble "TBLINIT".toList [] = .ok (.tblinit 0x1D#8 2#8) ∧
  (∀ d a b : SReg, assemble "GSUB".toList [.s d, .s a, .s b] = .ok (.gadd d a b)) ∧
  (∀ d a b : VReg, assemble "PSUB".toList [.v d, .v a, .v b] = .ok (.padd d a b)) ∧
  (∀ d a : SReg, assemble "GSQR".toList [.s d, .s a] = .ok (.gmul d a a)) ∧
  (∀ d : SReg, assemble "SCLR".toList [.s d] = .ok (.sldi d 0#8)) ∧
  (∀ d : VReg, assemble "VCLR".toList [.v d] = .ok (.vzero d 0#8))

/-! ### The execution cycle -/

/-- A step runs the decoded command: with a word in PENDING that decodes to i, `step` is `exec i`, and
PENDING is none afterwards unless the model faults (R65, R79). With nothing pending the core waits with
all state held, and a faulted model takes no further step; that `step` then answers the same state, and
the recorded fault, is the model's convention (log 5). -/
def Obligations.StepRunsTheDecodedCommand : Prop :=
  (∀ (s : State) (w : CmdWord) (i : Instr), s.fault = none → s.pending = some w →
    decode w = .ok i →
    (∀ t, exec i s = .next t → step s = .next { t with pending := none }) ∧
    (∀ f, exec i s = .fault f → step s = .fault f)) ∧
  (∀ s : State, s.fault = none → s.pending = none → step s = .next s) ∧
  (∀ (s : State) (f : Fault), s.fault = some f → step s = .fault f)

/-- R77: PDIV and CORRECT with D = C select a row and are illegal: CODE becomes ILLEGAL_COMMAND and
nothing else changes, in every state. -/
def Obligations.OneBufferAsBothDestinationsIsIllegal : Prop :=
  ∀ (d a b : VReg) (r : Byte) (s : State),
    decode (encode (.pdiv d d a b)) = .ok (.pdiv d d a b) ∧
    decode (encode (.correct d d a b r)) = .ok (.correct d d a b r) ∧
    exec (.pdiv d d a b) s = .next { s with code := .illegalCommand } ∧
    exec (.correct d d a b r) s = .next { s with code := .illegalCommand }

/-- R80: a table-using command faults F_TABLES_INVALID when TV = 0, before it reads any operand; the
others never raise that fault. -/
def Obligations.TableUsingCommandsNeedTv : Prop :=
  ∀ (i : Instr) (s : State), i.wf = true →
    (i.tableUsing = true → s.tv = false → exec i s = .fault .tablesInvalid) ∧
    (i.tableUsing = false → exec i s ≠ .fault .tablesInvalid)

/-- R79 and R307, point 4: past the earlier checks, a command with an unwritten source does not
execute, and faults F_UNWRITTEN. -/
def Obligations.UnwrittenSourceFaults : Prop :=
  ∀ (i : Instr) (s : State), i.wf = true → (i.tableUsing = true → s.tv = true) →
    i.sourcesWritten s = false → exec i s = .fault .unwritten

/-- R311: a word never both faults and sets a status code; an illegal word never faults; a word that
passes the fault checks runs to a status code. -/
def Obligations.PastTheFaultChecksACommandCompletes : Prop :=
  (∀ (i : Instr) (s : State), i.wf = true → (i.tableUsing = true → s.tv = true) →
    i.sourcesWritten s = true → ∃ t, exec i s = .next t) ∧
  (∀ (i : Instr) (s : State), i.wf = false → ∃ t, exec i s = .next t ∧ t.code = .illegalCommand) ∧
  (∀ (w : CmdWord) (e : DecodeError) (s : State), decode w = .error e →
    ∃ t, executeWord w s = .next t ∧ t.code = .illegalCommand)

/-- R305: a command that raises a code other than OK writes no register, PRIM or GEN, and unless it is
TBLINIT no table and not TV; a TBLINIT that raises, raises CONFIG_ERROR, and sets TV to 0. -/
def Obligations.RaisingCommandsWriteNothing : Prop :=
  ∀ (i : Instr) (s t : State), exec i s = .next t → t.code ≠ .ok →
    t.sreg = s.sreg ∧ t.vreg = s.vreg ∧ t.prim = s.prim ∧ t.gen = s.gen ∧
    ((∀ primlo gen, i ≠ .tblinit primlo gen) → t.tables = s.tables ∧ t.tv = s.tv) ∧
    (∀ primlo gen, i = .tblinit primlo gen → t.code = .configError ∧ t.tv = false)

/-- The frame of every command (R53, R75): when it answers a next state, every register that is not in
its Dests column is unchanged, PENDING and FAULT are unchanged, and unless it is TBLINIT so are the
tables, TV, PRIM, GEN and the free-value counter. CODE is written by every command (R301). -/
def Obligations.CommandsChangeOnlyTheirDestinations : Prop :=
  ∀ (i : Instr) (s t : State), exec i s = .next t →
    (∀ r : SReg, Operand.s r ∉ i.dests → t.readS r = s.readS r) ∧
    (∀ r : VReg, Operand.v r ∉ i.dests → t.readV r = s.readV r) ∧
    t.pending = s.pending ∧ t.fault = s.fault ∧
    ((∀ primlo gen, i ≠ .tblinit primlo gen) →
      t.tables = s.tables ∧ t.tv = s.tv ∧ t.prim = s.prim ∧ t.gen = s.gen ∧
      t.freeCount = s.freeCount)

/-- R300's last column and R304: which commands leave which code; DIV_BY_ZERO only GDIV with divisor 0
and GINV of 0, and no composite. -/
def Obligations.EachCodeComesFromItsCommands : Prop :=
  ∀ (i : Instr) (s t : State), exec i s = .next t →
    (t.code = .configError → ∃ primlo gen, i = .tblinit primlo gen) ∧
    (t.code = .divByZero → (∃ d a b, i = .gdiv d a b ∧ s.readS b = some 0#8) ∨
      ∃ d a, i = .ginv d a ∧ s.readS a = some 0#8) ∧
    (t.code = .uncorrectable → (∃ d a b, i = .fsynd d a b) ∨ (∃ d a, i = .bma d a) ∨
      (∃ d a n, i = .roots d a n) ∨ (∃ d a b c, i = .fcorr d a b c) ∨
      ∃ d c a b r, i = .correct d c a b r) ∧
    (t.code = .invalidInput → i ≠ .nop ∧ (∀ primlo gen, i ≠ .tblinit primlo gen) ∧
      (∀ d imm, i ≠ .sldi d imm) ∧ (∀ d a b, i ≠ .gadd d a b) ∧ (∀ d a b, i ≠ .gmul d a b) ∧
      (∀ d a b, i ≠ .gdiv d a b) ∧ (∀ d a b, i ≠ .gpow d a b) ∧ (∀ d a, i ≠ .ginv d a) ∧
      (∀ d len, i ≠ .vzero d len) ∧ (∀ d a, i ≠ .bma d a)) ∧
    (t.code = .illegalCommand ↔ i.wf = false)

/-! ### Invariants -/

/-- Every core step keeps the invariant: TV = 1 only with the tables a successful TBLINIT of PRIM and
GEN built, and no buffer longer than VLEN_MAX (R24, R25 to R28). -/
def Obligations.StepKeepsTheInvariant : Prop :=
  ∀ s t : State, s.Inv → step s = .next t → t.Inv

/-- The invariant holds at reset. -/
def Obligations.ResetMeetsTheInvariant : Prop := State.reset.Inv

/-- Every move of every run, of host, core or platform, keeps the invariant; so in every reachable
state no buffer is longer than VLEN_MAX, and TV = 1 means the tables satisfy R25's invariants. -/
def Obligations.EveryMoveKeepsTheInvariant : Prop :=
  (∀ (m : Move) (s : State), s.Inv → (stateAfter m s).Inv) ∧
  ∀ s : State, s.Reachable → s.BuffersBounded ∧ (s.tv = true → s.tables.Valid)

/-- Only TBLINIT and reset change the table store, TV, PRIM or GEN: no other command and no host
operation does (R25, R26, R59). -/
def Obligations.OnlyTblinitChangesTheTables : Prop :=
  ∀ (m : Move) (s : State), m ≠ .reset →
    (m = .core → ∀ w primlo gen, s.pending = some w → decode w ≠ .ok (.tblinit primlo gen)) →
    (stateAfter m s).tables = s.tables ∧ (stateAfter m s).tv = s.tv ∧
    (stateAfter m s).prim = s.prim ∧ (stateAfter m s).gen = s.gen

/-! ### The field engine -/

/-- R25 and R28: the tables of a pair with a full period satisfy R25's invariants, EXP takes every
nonzero value exactly once, EXP[1] = GEN and LOG[GEN] = 1. -/
def Obligations.FullPeriodTablesAreValid : Prop :=
  ∀ primlo gen : Byte, fullPeriod primlo gen = true →
    (buildTables primlo gen).Valid ∧
    (∀ x : Byte, x ≠ 0#8 → ∃! i : Fin 255, (buildTables primlo gen).exp[i] = x) ∧
    alpha (buildTables primlo gen) 1 = gen ∧ logOf (buildTables primlo gen) gen = 1

/-- R118: the document's field properties, for valid tables. -/
def Obligations.FieldDivisionUndoesMultiplication : Prop :=
  ∀ t : Tables, t.Valid →
    (∀ a b : Byte, a ≠ 0#8 → b ≠ 0#8 → ∃ q, gfDiv t a b = .ok q ∧ gfMul t q b = a) ∧
    (∀ a : Byte, a ≠ 0#8 → ∃ v, gfInv t a = .ok v ∧ gfMul t a v = 1#8) ∧
    (∀ i : Nat, i < 255 → logOf t (alpha t i) = i) ∧
    (∀ x : Byte, x ≠ 0#8 → alpha t (logOf t x) = x) ∧
    (∀ i : Nat, alpha t (i + 255) = alpha t i) ∧
    (∀ p : Nat, 0 < p → p < 255 → alpha t p ≠ alpha t 0) ∧
    (∀ a b : Byte, b ≠ 0#8 → ∃ v, gfInv t b = .ok v ∧ gfDiv t a b = .ok (gfMul t a v))

/-- R117: with the tables of a successful TBLINIT, GMUL's function is multiplication modulo
x^8 + PRIMLO, and with ⊕ it is commutative, associative and distributive. -/
def Obligations.GfMulIsRingMultiplication : Prop :=
  ∀ primlo gen : Byte, fullPeriod primlo gen = true →
    (∀ a b : Byte, gfMul (buildTables primlo gen) a b = ringMul a b primlo) ∧
    (∀ a b : Byte, ringMul a b primlo = ringMul b a primlo) ∧
    (∀ a b c : Byte, ringMul (ringMul a b primlo) c primlo = ringMul a (ringMul b c primlo) primlo) ∧
    (∀ a b c : Byte, ringMul a (b ^^^ c) primlo = ringMul a b primlo ^^^ ringMul a c primlo)

/-- R100 and R102's remark: multiplication by x shifts left and reduces, and for the default generator
2 one step of ring_mul is that. -/
def Obligations.RingMulByTwoIsMulx : Prop :=
  ∀ v primlo : Byte,
    mulx v primlo = (v <<< 1 &&& 0xFF#8) ^^^ (if v.getLsbD 7 = true then primlo else 0#8) ∧
    ringMul v 2#8 primlo = mulx v primlo

/-- R103: TBLINIT lists the 255 powers e of GEN; it succeeds exactly when they are distinct, nonzero and
return to 1, and then EXP[i] = e[i] and LOG[e[i]] = i, TV, PRIM and GEN are written and CODE is OK; else
TV is 0, CODE is CONFIG_ERROR, PRIM and GEN are unchanged. It runs whatever TV is. -/
def Obligations.TblinitBuildsTheTables : Prop :=
  ∀ (primlo gen : Byte) (s : State),
    HasEncoding (.tblinit primlo gen) 0x01#8 0xFFFF0000#32 ∧
    ∃ e : ByteSeq, e.length = 255 ∧ e.getD 0 0#8 = 1#8 ∧
      (∀ i : Nat, i < 254 → e.getD (i + 1) 0#8 = ringMul (e.getD i 0#8) gen primlo) ∧
      ((e.Nodup ∧ 0#8 ∉ e ∧ ringMul (e.getD 254 0#8) gen primlo = 1#8) →
        ∃ tb : Tables, (∀ i : Nat, i < 255 →
            alpha tb i = e.getD i 0#8 ∧ logOf tb (e.getD i 0#8) = i) ∧
          exec (.tblinit primlo gen) s = .next { s with
            tables := tb, tv := true, prim := 0x100#9 + primlo.setWidth 9, gen := gen,
            code := .ok }) ∧
      (¬ (e.Nodup ∧ 0#8 ∉ e ∧ ringMul (e.getD 254 0#8) gen primlo = 1#8) →
        ∃ (tb : Tables) (n : Nat), exec (.tblinit primlo gen) s = .next { s with
          tables := tb, tv := false, code := .configError, freeCount := n })

/-- R104 and R110: GADD is ⊕, runs with TV = 0, and reads its sources before it writes (R53). -/
def Obligations.GaddXors : Prop :=
  ∀ (d a b : SReg) (x y : Byte) (s : State),
    HasEncoding (.gadd d a b) 0x10#8 0xFF000FFF#32 ∧
    (s.readS a = some x → s.readS b = some y →
      exec (.gadd d a b) s = .next { s with sreg := s.sreg.set d (some (x ^^^ y)), code := .ok })

/-- R105 and R111: GMUL. -/
def Obligations.GmulMultiplies : Prop :=
  ∀ (d a b : SReg) (x y : Byte) (s : State),
    HasEncoding (.gmul d a b) 0x11#8 0xFF000FFF#32 ∧
    (s.tv = false → exec (.gmul d a b) s = .fault .tablesInvalid) ∧
    (s.tv = true → s.readS a = some x → s.readS b = some y →
      exec (.gmul d a b) s = .next { s with
        sreg := s.sreg.set d (some (if x = 0#8 ∨ y = 0#8 then 0#8
          else alpha s.tables ((logOf s.tables x + logOf s.tables y) % 255))),
        code := .ok })

/-- R106 and R112: GDIV; a divisor of 0 raises DIV_BY_ZERO first, and S[D] is unchanged. -/
def Obligations.GdivDivides : Prop :=
  ∀ (d a b : SReg) (x y : Byte) (s : State),
    HasEncoding (.gdiv d a b) 0x12#8 0xFF000FFF#32 ∧
    (s.tv = false → exec (.gdiv d a b) s = .fault .tablesInvalid) ∧
    (s.tv = true → s.readS a = some x → s.readS b = some y → y ≠ 0#8 →
      exec (.gdiv d a b) s = .next { s with
        sreg := s.sreg.set d (some (if x = 0#8 then 0#8
          else alpha s.tables ((logOf s.tables x + 255 - logOf s.tables y) % 255))),
        code := .ok }) ∧
    (s.tv = true → s.readS a = some x → s.readS b = some 0#8 →
      exec (.gdiv d a b) s = .next { s with code := .divByZero })

/-- R107 and R113: GPOW, the exponent an unsigned integer. -/
def Obligations.GpowRaisesToAPower : Prop :=
  ∀ (d a b : SReg) (x y : Byte) (s : State),
    HasEncoding (.gpow d a b) 0x13#8 0xFF000FFF#32 ∧
    (s.tv = false → exec (.gpow d a b) s = .fault .tablesInvalid) ∧
    (s.tv = true → s.readS a = some x → s.readS b = some y →
      exec (.gpow d a b) s = .next { s with
        sreg := s.sreg.set d (some (if x = 0#8 ∧ y = 0#8 then 1#8 else if x = 0#8 then 0#8
          else alpha s.tables (logOf s.tables x * y.toNat % 255))),
        code := .ok })

/-- R109 and R114: GINV; the inverse of 0 raises DIV_BY_ZERO. -/
def Obligations.GinvInverts : Prop :=
  ∀ (d a : SReg) (x : Byte) (s : State),
    HasEncoding (.ginv d a) 0x14#8 0xFF00FFFF#32 ∧
    (s.tv = false → exec (.ginv d a) s = .fault .tablesInvalid) ∧
    (s.tv = true → s.readS a = some x → x ≠ 0#8 →
      exec (.ginv d a) s = .next { s with
        sreg := s.sreg.set d (some (alpha s.tables ((255 - logOf s.tables x) % 255))),
        code := .ok }) ∧
    (s.tv = true → s.readS a = some 0#8 →
      exec (.ginv d a) s = .next { s with code := .divByZero })

/-- R115 and R116: GLOG and GEXP read the tables; the logarithm of 0 and the index 255 raise
INVALID_INPUT. -/
def Obligations.GlogAndGexpReadTheTables : Prop :=
  ∀ (d a : SReg) (x : Byte) (s : State),
    HasEncoding (.glog d a) 0x15#8 0xFF00FFFF#32 ∧
    HasEncoding (.gexp d a) 0x16#8 0xFF00FFFF#32 ∧
    (s.tv = false → exec (.glog d a) s = .fault .tablesInvalid ∧
      exec (.gexp d a) s = .fault .tablesInvalid) ∧
    (s.tv = true → s.readS a = some x → x ≠ 0#8 →
      exec (.glog d a) s = .next { s with
        sreg := s.sreg.set d (some (s.tables.log[x.toNat - 1]'(by have := x.isLt; omega))),
        code := .ok }) ∧
    (s.tv = true → s.readS a = some 0#8 →
      exec (.glog d a) s = .next { s with code := .invalidInput }) ∧
    (∀ h : x.toNat < 255, s.tv = true → s.readS a = some x →
      exec (.gexp d a) s = .next { s with
        sreg := s.sreg.set d (some s.tables.exp[x.toNat]), code := .ok }) ∧
    (s.tv = true → s.readS a = some 255#8 →
      exec (.gexp d a) s = .next { s with code := .invalidInput })

/-! ### Control and data movement -/

/-- R270 and R271: NOP sets CODE to 0 and nothing else; SLDI loads its immediate. -/
def Obligations.NopAndSldiRun : Prop :=
  ∀ (d : SReg) (imm : Byte) (s : State),
    HasEncoding .nop 0x00#8 0xFFFFFFFF#32 ∧
    HasEncoding (.sldi d imm) 0x02#8 0xFF0FFF00#32 ∧
    exec .nop s = .next { s with code := .ok } ∧
    exec (.sldi d imm) s = .next { s with sreg := s.sreg.set d (some imm), code := .ok }

/-- R272 and R273: VGET and VSET move one element; an index past the buffer raises INVALID_INPUT. -/
def Obligations.VgetAndVsetMoveOneElement : Prop :=
  ∀ (ds as : SReg) (dv av : VReg) (index v : Byte) (q : ByteSeq) (s : State),
    HasEncoding (.vget ds av index) 0x20#8 0xFF00FF00#32 ∧
    HasEncoding (.vset dv as index) 0x21#8 0xFF00FF00#32 ∧
    (∀ h : index.toNat < q.length, s.readV av = some q →
      exec (.vget ds av index) s = .next { s with
        sreg := s.sreg.set ds (some q[index.toNat]), code := .ok }) ∧
    (q.length ≤ index.toNat → s.readV av = some q →
      exec (.vget ds av index) s = .next { s with code := .invalidInput }) ∧
    (index.toNat < q.length → s.readV dv = some q → s.readS as = some v →
      exec (.vset dv as index) s = .next { s with
        vreg := s.vreg.set dv (some (q.set index.toNat v)), code := .ok }) ∧
    (q.length ≤ index.toNat → s.readV dv = some q → s.readS as = some v →
      exec (.vset dv as index) s = .next { s with code := .invalidInput }) ∧
    (s.readV av = none → exec (.vget ds av index) s = .fault .unwritten) ∧
    (s.readV dv = none ∨ s.readS as = none →
      exec (.vset dv as index) s = .fault .unwritten)

/-- R274 and R275: VCAT concatenates, unless the result is longer than VLEN_MAX; VZERO makes zeros. -/
def Obligations.VcatAndVzeroMakeBuffers : Prop :=
  ∀ (d a b : VReg) (len : Byte) (p q : ByteSeq) (s : State),
    HasEncoding (.vcat d a b) 0x22#8 0xFF000FFF#32 ∧
    HasEncoding (.vzero d len) 0x23#8 0xFF0FFF00#32 ∧
    (s.readV a = some p → s.readV b = some q → p.length + q.length ≤ 512 →
      exec (.vcat d a b) s = .next { s with vreg := s.vreg.set d (some (p ++ q)), code := .ok }) ∧
    (s.readV a = some p → s.readV b = some q → 512 < p.length + q.length →
      exec (.vcat d a b) s = .next { s with code := .invalidInput }) ∧
    (s.readV a = none ∨ s.readV b = none → exec (.vcat d a b) s = .fault .unwritten) ∧
    exec (.vzero d len) s = .next { s with
      vreg := s.vreg.set d (some (List.replicate len.toNat 0#8)), code := .ok }

/-! ### The polynomial engine -/

/-- R140 and R146: PADD adds aligned at matching degree; the result has the longer length and is not
normalized; an empty operand raises INVALID_INPUT; it runs with TV = 0. -/
def Obligations.PaddAddsAlignedAtMatchingDegree : Prop :=
  ∀ (d a b : VReg) (p q : ByteSeq) (s : State),
    HasEncoding (.padd d a b) 0x30#8 0xFF000FFF#32 ∧
    (s.readV a = some p → s.readV b = some q → p ≠ [] → q ≠ [] →
      ∃ r : ByteSeq, r.length = max p.length q.length ∧
        (∀ j : Nat, polyCoef r j = polyCoef p j ^^^ polyCoef q j) ∧
        exec (.padd d a b) s = .next { s with vreg := s.vreg.set d (some r), code := .ok }) ∧
    (s.readV a = some p → s.readV b = some q → p = [] ∨ q = [] →
      exec (.padd d a b) s = .next { s with code := .invalidInput })

/-- R141 and R147: PMUL is the full convolution: len(p) + len(q) - 1 elements, element k the ⊕ of the
products p[i]·q[j] with i + j = k; an empty operand or a result longer than VLEN_MAX raises
INVALID_INPUT. -/
def Obligations.PmulConvolves : Prop :=
  ∀ (d a b : VReg) (p q : ByteSeq) (s : State),
    HasEncoding (.pmul d a b) 0x31#8 0xFF000FFF#32 ∧
    (s.tv = false → exec (.pmul d a b) s = .fault .tablesInvalid) ∧
    (s.tv = true → s.readV a = some p → s.readV b = some q → p ≠ [] → q ≠ [] →
      p.length + q.length - 1 ≤ 512 →
      ∃ r : ByteSeq, r.length = p.length + q.length - 1 ∧
        (∀ k : Nat, k < r.length → r.getD k 0#8 = xorSum ((List.range (k + 1)).map fun i =>
          if i < p.length ∧ k - i < q.length
          then gfMul s.tables (p.getD i 0#8) (q.getD (k - i) 0#8) else 0#8)) ∧
        exec (.pmul d a b) s = .next { s with vreg := s.vreg.set d (some r), code := .ok }) ∧
    (s.tv = true → s.readV a = some p → s.readV b = some q →
      p = [] ∨ q = [] ∨ 512 < p.length + q.length - 1 →
      exec (.pmul d a b) s = .next { s with code := .invalidInput })

/-- R142 and R148: PSCALE multiplies every coefficient; an empty operand raises INVALID_INPUT. -/
def Obligations.PscaleScalesEveryCoefficient : Prop :=
  ∀ (d a : VReg) (b : SReg) (p : ByteSeq) (x : Byte) (s : State),
    HasEncoding (.pscale d a b) 0x32#8 0xFF000FFF#32 ∧
    (s.tv = false → exec (.pscale d a b) s = .fault .tablesInvalid) ∧
    (s.tv = true → s.readV a = some p → s.readS b = some x → p ≠ [] →
      exec (.pscale d a b) s = .next { s with
        vreg := s.vreg.set d (some (p.map fun c => gfMul s.tables c x)), code := .ok }) ∧
    (s.tv = true → s.readV a = some [] → s.readS b = some x →
      exec (.pscale d a b) s = .next { s with code := .invalidInput })

/-- R143 and R149: PEVAL is Horner's method: the value of one element is that element, and one more
element c makes y into gf_mul(y, x) ⊕ c; an empty operand raises INVALID_INPUT. -/
def Obligations.PevalIsHornersMethod : Prop :=
  (∀ (d : SReg) (a : VReg) (b : SReg) (p : ByteSeq) (x : Byte) (s : State),
    HasEncoding (.peval d a b) 0x33#8 0xFF000FFF#32 ∧
    (s.tv = false → exec (.peval d a b) s = .fault .tablesInvalid) ∧
    (s.tv = true → s.readV a = some p → s.readS b = some x → p ≠ [] →
      exec (.peval d a b) s = .next { s with
        sreg := s.sreg.set d (some (polyEval s.tables p x)), code := .ok }) ∧
    (s.tv = true → s.readV a = some [] → s.readS b = some x →
      exec (.peval d a b) s = .next { s with code := .invalidInput })) ∧
  (∀ (t : Tables) (c x : Byte), polyEval t [c] x = c) ∧
  (∀ (t : Tables) (p : ByteSeq) (c x : Byte), p ≠ [] →
    polyEval t (p ++ [c]) x = gfMul t (polyEval t p x) x ^^^ c)

/-- R150 and R144's lengths: PDIV with D ≠ C writes quotient and remainder: max(1, ld - lv + 1) and
lv - 1 elements, lv the length of the normalized divisor; a dividend shorter than it gives quotient [0]
and the dividend padded; an empty operand or a zero divisor raises INVALID_INPUT and writes nothing. -/
def Obligations.PdivWritesQuotientAndRemainder : Prop :=
  ∀ (d c a b : VReg) (p q : ByteSeq) (s : State), d ≠ c →
    HasEncoding (.pdiv d c a b) 0x34#8 0xFF0000FF#32 ∧
    (s.tv = false → exec (.pdiv d c a b) s = .fault .tablesInvalid) ∧
    (s.tv = true → s.readV a = some p → s.readV b = some q → p ≠ [] → isZero q = false →
      ∃ quo rem : ByteSeq, polyDivmod s.tables p q = .ok (quo, rem) ∧
        quo.length = max 1 (p.length + 1 - (norm q).length) ∧
        rem.length = (norm q).length - 1 ∧
        (p.length < (norm q).length → quo = [0#8] ∧
          rem = List.replicate ((norm q).length - 1 - p.length) 0#8 ++ p) ∧
        exec (.pdiv d c a b) s = .next { s with
          vreg := (s.vreg.set d (some quo)).set c (some rem), code := .ok }) ∧
    (s.tv = true → s.readV a = some p → s.readV b = some q → p = [] ∨ isZero q = true →
      exec (.pdiv d c a b) s = .next { s with code := .invalidInput })

/-- R144: the division identity. With valid tables, quotient times the normalized divisor plus remainder
equals the dividend as a polynomial. -/
def Obligations.QuotientTimesDivisorPlusRemainder : Prop :=
  ∀ (t : Tables) (dividend divisor quo rem : ByteSeq), t.Valid →
    polyDivmod t dividend divisor = .ok (quo, rem) →
    ∀ j : Nat, polyCoef (polyAdd (polyMul t quo (norm divisor)) rem) j = polyCoef dividend j

/-! ### The encoder -/

/-- R170 and R171: GENPOLY writes the product of the factors [1, α^i], i < r: r + 1 elements, the
leading one 1; r = 0 raises INVALID_INPUT. -/
def Obligations.GenpolyMultipliesTheFactors : Prop :=
  (∀ (d : VReg) (r : Byte) (s : State),
    HasEncoding (.genpoly d r) 0x40#8 0xFF0FFF00#32 ∧
    (s.tv = false → exec (.genpoly d r) s = .fault .tablesInvalid) ∧
    (s.tv = true → r ≠ 0#8 →
      exec (.genpoly d r) s = .next { s with
        vreg := s.vreg.set d (some (generatorPoly s.tables r.toNat)), code := .ok }) ∧
    (s.tv = true → exec (.genpoly d 0#8) s = .next { s with code := .invalidInput })) ∧
  (∀ t : Tables, generatorPoly t 0 = [1#8] ∧
    (∀ r : Nat, generatorPoly t (r + 1) = polyMul t (generatorPoly t r) [1#8, alpha t r] ∧
      (generatorPoly t r).length = r + 1) ∧
    (t.Valid → ∀ r : Nat, (generatorPoly t r).getD 0 0#8 = 1#8))

/-- R172 and R173: ENCODE writes the message followed by the r elements of the remainder of the shifted
message by the generator polynomial; an empty message, r = 0 or k + r > 255 raises INVALID_INPUT. -/
def Obligations.EncodeAppendsTheRemainder : Prop :=
  ∀ (d a : VReg) (r : Byte) (m : ByteSeq) (s : State),
    HasEncoding (.encode d a r) 0x41#8 0xFF00FF00#32 ∧
    (s.tv = false → exec (.encode d a r) s = .fault .tablesInvalid) ∧
    (s.tv = true → s.tables.Valid → s.readV a = some m → m ≠ [] → r ≠ 0#8 →
      m.length + r.toNat ≤ 255 →
      ∃ quo rem : ByteSeq,
        polyDivmod s.tables (m ++ List.replicate r.toNat 0#8) (generatorPoly s.tables r.toNat) =
          .ok (quo, rem) ∧
        rem.length = r.toNat ∧
        exec (.encode d a r) s = .next { s with
          vreg := s.vreg.set d (some (m ++ rem)), code := .ok }) ∧
    (s.tv = true → s.readV a = some m → m = [] ∨ r = 0#8 ∨ 255 < m.length + r.toNat →
      exec (.encode d a r) s = .next { s with code := .invalidInput })

/-- R174, properties 1 and 3: with the tables of a successful TBLINIT, a codeword starts with its
message, has k + r elements, and all its syndromes are zero. -/
def Obligations.CodewordsHaveZeroSyndromes : Prop :=
  ∀ (primlo gen : Byte) (m c : ByteSeq) (r : Nat), fullPeriod primlo gen = true →
    rsEncode (buildTables primlo gen) m r = .ok c →
    c.length = m.length + r ∧ c.take m.length = m ∧
    syndromes (buildTables primlo gen) c r = List.replicate r 0#8

/-! ### The decoder's stages -/

/-- R180 and R182: SYND evaluates the word at α^0 .. α^(r-1); an empty word, one longer than 255 or
r = 0 raises INVALID_INPUT. -/
def Obligations.SyndEvaluatesAtTheRoots : Prop :=
  ∀ (d a : VReg) (r : Byte) (w : ByteSeq) (s : State),
    HasEncoding (.synd d a r) 0x50#8 0xFF00FF00#32 ∧
    (s.tv = false → exec (.synd d a r) s = .fault .tablesInvalid) ∧
    (s.tv = true → s.readV a = some w → w ≠ [] → w.length ≤ 255 → r ≠ 0#8 →
      exec (.synd d a r) s = .next { s with
        vreg := s.vreg.set d (some ((List.range r.toNat).map fun j =>
          polyEval s.tables w (alpha s.tables j))), code := .ok }) ∧
    (s.tv = true → s.readV a = some w → w = [] ∨ 255 < w.length ∨ r = 0#8 →
      exec (.synd d a r) s = .next { s with code := .invalidInput })

/-- R183 and R184: ELOC multiplies the factors [X_p, 1], X_p = EXP[n-1-p], one per position:
len(P) + 1 elements; n = 0, a position ≥ n or a result longer than VLEN_MAX raises INVALID_INPUT. -/
def Obligations.ElocMultipliesTheLocators : Prop :=
  (∀ (d a : VReg) (n : Byte) (ps : ByteSeq) (s : State),
    HasEncoding (.eloc d a n) 0x51#8 0xFF00FF00#32 ∧
    (s.tv = false → exec (.eloc d a n) s = .fault .tablesInvalid) ∧
    (s.tv = true → s.readV a = some ps → n ≠ 0#8 → (∀ p ∈ ps, p.toNat < n.toNat) →
      ps.length + 1 ≤ 512 →
      exec (.eloc d a n) s = .next { s with
        vreg := s.vreg.set d (some (errataLocator s.tables ps n.toNat)), code := .ok }) ∧
    (s.tv = true → s.readV a = some ps →
      n = 0#8 ∨ (∃ p ∈ ps, n.toNat ≤ p.toNat) ∨ 512 < ps.length + 1 →
      exec (.eloc d a n) s = .next { s with code := .invalidInput })) ∧
  (∀ (t : Tables) (n : Nat), errataLocator t [] n = [1#8] ∧
    ∀ (ps : ByteSeq) (p : Byte),
      errataLocator t (ps ++ [p]) n =
        polyMul t (errataLocator t ps n) [alpha t (n - 1 - p.toNat), 1#8] ∧
      (errataLocator t ps n).length = ps.length + 1)

/-- R186 and R187: FSYND. With s = len(Γ) - 1 ≤ r = len(S) it writes the r - s Forney syndromes; with
s > r it raises UNCORRECTABLE; an empty operand raises INVALID_INPUT. -/
def Obligations.FsyndComputesTheForneySyndromes : Prop :=
  ∀ (d a b : VReg) (sy g : ByteSeq) (s : State),
    HasEncoding (.fsynd d a b) 0x52#8 0xFF000FFF#32 ∧
    (s.tv = false → exec (.fsynd d a b) s = .fault .tablesInvalid) ∧
    (s.tv = true → s.readV a = some sy → s.readV b = some g → sy ≠ [] → g ≠ [] →
      g.length - 1 ≤ sy.length →
      exec (.fsynd d a b) s = .next { s with
        vreg := s.vreg.set d (some ((List.range (sy.length - (g.length - 1))).map fun j =>
          xorSum ((List.range (g.length - 1 + 1)).map fun i =>
            gfMul s.tables (polyCoef g i) (sy.getD (j + (g.length - 1) - i) 0#8)))),
        code := .ok }) ∧
    (s.tv = true → s.readV a = some sy → s.readV b = some g → sy ≠ [] → g ≠ [] →
      sy.length < g.length - 1 →
      exec (.fsynd d a b) s = .next { s with code := .uncorrectable }) ∧
    (s.tv = true → s.readV a = some sy → s.readV b = some g → sy = [] ∨ g = [] →
      exec (.fsynd d a b) s = .next { s with code := .invalidInput })

/-- R202: BMA writes the locator its function returns, or raises UNCORRECTABLE and writes nothing; an
empty or all-zero operand gives [1]. -/
def Obligations.BmaWritesTheLocator : Prop :=
  ∀ (d a : VReg) (ts : ByteSeq) (s : State),
    HasEncoding (.bma d a) 0x53#8 0xFF00FFFF#32 ∧
    (s.tv = false → exec (.bma d a) s = .fault .tablesInvalid) ∧
    (∀ lam : ByteSeq, s.tv = true → s.readV a = some ts →
      berlekampMassey s.tables ts = .ok lam →
      exec (.bma d a) s = .next { s with vreg := s.vreg.set d (some lam), code := .ok }) ∧
    (∀ c : Raise, s.tv = true → s.readV a = some ts → berlekampMassey s.tables ts = .error c →
      exec (.bma d a) s = .next { s with code := .uncorrectable }) ∧
    (s.tv = true → s.readV a = some ts → isZero ts = true →
      exec (.bma d a) s = .next { s with vreg := s.vreg.set d (some [1#8]), code := .ok })

/-- R200 and R203: Berlekamp-Massey. Its variables run through R200's recurrence, from its start: C and
B as functions from a degree to a coefficient, L, m and b, each at turn k, with the discrepancy d, the
update by q = d / b shifted up by m, and the tie-break 2L ≤ k; L ≤ k at every turn. At the end R200's two
tests decide between UNCORRECTABLE and Λ = [C_L, ..., C_0]. A returned Λ has constant term 1 and leading
term not 0, and its degree L satisfies 2L ≤ N; the only raise is UNCORRECTABLE, so `gf_div(d, b)` never
raises. -/
def Obligations.BerlekampMasseyResultShape : Prop :=
  ∀ (t : Tables) (ts : ByteSeq),
    (∃ (c b : Nat → Nat → Byte) (len m : Nat → Nat) (disc : Nat → Byte),
      ((∀ i : Nat, c 0 i = if i = 0 then 1#8 else 0#8) ∧ (∀ i : Nat, b 0 i = c 0 i) ∧
        len 0 = 0 ∧ m 0 = 1 ∧ disc 0 = 1#8) ∧
      (∀ k : Nat, k ≤ ts.length → len k ≤ k) ∧
      (∀ (k : Nat) (d : Byte), k < ts.length →
        d = ts.getD k 0#8 ^^^ xorSum ((List.range (len k)).map fun i =>
          gfMul t (c k (i + 1)) (ts.getD (k - (i + 1)) 0#8)) →
        (d = 0#8 → c (k + 1) = c k ∧ b (k + 1) = b k ∧ len (k + 1) = len k ∧
          m (k + 1) = m k + 1 ∧ disc (k + 1) = disc k) ∧
        (d ≠ 0#8 → ∃ q : Byte, gfDiv t d (disc k) = .ok q ∧
          (∀ i : Nat, c (k + 1) i =
            if i < m k then c k i else c k i ^^^ gfMul t q (b k (i - m k))) ∧
          (2 * len k ≤ k → b (k + 1) = c k ∧ len (k + 1) = k + 1 - len k ∧ m (k + 1) = 1 ∧
            disc (k + 1) = d) ∧
          (k < 2 * len k → b (k + 1) = b k ∧ len (k + 1) = len k ∧ m (k + 1) = m k + 1 ∧
            disc (k + 1) = disc k))) ∧
      (∀ n l : Nat, n = ts.length → l = len n →
        ((2 * l ≤ n ∧ c n l ≠ 0#8 ∧ ∀ i : Nat, l < i → c n i = 0#8) →
          berlekampMassey t ts = .ok ((List.range (l + 1)).map fun i => c n (l - i))) ∧
        (¬ (2 * l ≤ n ∧ c n l ≠ 0#8 ∧ ∀ i : Nat, l < i → c n i = 0#8) →
          berlekampMassey t ts = .error .uncorrectable))) ∧
    (∀ lam : ByteSeq, berlekampMassey t ts = .ok lam →
      lam ≠ [] ∧ polyCoef lam 0 = 1#8 ∧ lam.getD 0 0#8 ≠ 0#8 ∧
      polyDeg lam = lam.length - 1 ∧ 2 * (lam.length - 1) ≤ ts.length) ∧
    ∀ x : Raise, berlekampMassey t ts = .error x → x = .uncorrectable

/-- R220 and R221: ROOTS writes the positions p < n, ascending, at whose X_p^(-1) Λ is 0, when there are
deg(Λ) of them, else raises UNCORRECTABLE; n = 0 and an empty or zero Λ raise INVALID_INPUT. -/
def Obligations.RootsListsTheRootPositions : Prop :=
  ∀ (d a : VReg) (n : Byte) (lam : ByteSeq) (s : State),
    HasEncoding (.roots d a n) 0x54#8 0xFF00FF00#32 ∧
    (s.tv = false → exec (.roots d a n) s = .fault .tablesInvalid) ∧
    (∀ ps : List Nat, ps = (List.range n.toNat).filter (fun p =>
        polyEval s.tables lam (alpha s.tables ((255 - (n.toNat - 1 - p)) % 255)) == 0#8) →
      s.tv = true → s.readV a = some lam → n ≠ 0#8 → isZero lam = false →
      (ps.length = (norm lam).length - 1 → exec (.roots d a n) s = .next { s with
        vreg := s.vreg.set d (some (ps.map (BitVec.ofNat 8))), code := .ok }) ∧
      (ps.length ≠ (norm lam).length - 1 →
        exec (.roots d a n) s = .next { s with code := .uncorrectable })) ∧
    (s.tv = true → s.readV a = some lam → n = 0#8 ∨ isZero lam = true →
      exec (.roots d a n) s = .next { s with code := .invalidInput })

/-- R220 and R222: the positions found are exactly the root positions below n, strictly ascending, so
none twice, deg(Λ) of them. -/
def Obligations.FoundRootsAreAscendingPositions : Prop :=
  ∀ (t : Tables) (lam ps : ByteSeq) (n : Nat), n ≤ 255 → findRoots t lam n = .ok ps →
    ps.length = polyDeg lam ∧ ps.Pairwise (fun p q => p.toNat < q.toNat) ∧
    ∀ p : Byte, p ∈ ps ↔ p.toNat < n ∧ polyEval t lam (locatorInverse t p.toNat n) = 0#8

/-- R230 and R233: EEVAL writes Ω, exactly r elements, the coefficient of x^k the ⊕ of S[i]·P[j] over
i + j = k; an empty operand raises INVALID_INPUT. -/
def Obligations.EevalComputesOmega : Prop :=
  ∀ (d a b : VReg) (sy psi : ByteSeq) (s : State),
    HasEncoding (.eeval d a b) 0x55#8 0xFF000FFF#32 ∧
    (s.tv = false → exec (.eeval d a b) s = .fault .tablesInvalid) ∧
    (s.tv = true → s.readV a = some sy → s.readV b = some psi → sy ≠ [] → psi ≠ [] →
      ∃ om : ByteSeq, om.length = sy.length ∧
        (∀ k : Nat, k < sy.length → polyCoef om k = xorSum ((List.range (k + 1)).map fun i =>
          if k - i < psi.length
          then gfMul s.tables (sy.getD i 0#8) (polyCoef psi (k - i)) else 0#8)) ∧
        exec (.eeval d a b) s = .next { s with vreg := s.vreg.set d (some om), code := .ok }) ∧
    (s.tv = true → s.readV a = some sy → s.readV b = some psi → sy = [] ∨ psi = [] →
      exec (.eeval d a b) s = .next { s with code := .invalidInput })

/-- R231, R232 and R234: FCORR. Ψ is the errata locator of P, and Ω the polynomial of r elements R230
gives for S and Ψ. With len(P) ≤ r and no zero denominator it writes R with the magnitude
X·Ω(X^(-1))/Ψ'(X^(-1)) added at each position of P and no other symbol changed, X and X^(-1) as R181 gives
them and Ψ' the sum of R231, over odd powers only; more positions than syndromes, or a zero denominator,
raises UNCORRECTABLE; the operand checks raise INVALID_INPUT. -/
def Obligations.FcorrAddsTheMagnitudes : Prop :=
  ∀ (d a b c : VReg) (w sy ps psi om : ByteSeq) (x xi den : Byte → Byte) (s : State),
    HasEncoding (.fcorr d a b c) 0x56#8 0xFF0000FF#32 ∧
    (s.tv = false → exec (.fcorr d a b c) s = .fault .tablesInvalid) ∧
    (psi = errataLocator s.tables ps w.length → om.length = sy.length →
      (∀ k : Nat, k < sy.length → polyCoef om k = xorSum ((List.range (k + 1)).map fun i =>
        if k - i < psi.length
        then gfMul s.tables (sy.getD i 0#8) (polyCoef psi (k - i)) else 0#8)) →
      (∀ p : Byte, x p = alpha s.tables (w.length - 1 - p.toNat)) →
      (∀ p : Byte, xi p = alpha s.tables ((255 - (w.length - 1 - p.toNat)) % 255)) →
      (∀ p : Byte, den p = xorSum ((List.range psi.length).map fun k =>
        if k % 2 = 1 then gfMul s.tables (polyCoef psi k) (gfPow s.tables (xi p) (k - 1)) else 0#8)) →
      s.tv = true → s.readV a = some w → s.readV b = some sy → s.readV c = some ps →
      w ≠ [] → w.length ≤ 255 → sy ≠ [] → (∀ p ∈ ps, p.toNat < w.length) →
      (ps.length ≤ sy.length → (∀ p ∈ ps, den p ≠ 0#8) →
        ∃ fixed es : ByteSeq, es.length = ps.length ∧
          (∀ (k : Nat) (p : Byte), k < ps.length → p = ps.getD k 0#8 →
            gfDiv s.tables (gfMul s.tables (x p) (polyEval s.tables om (xi p))) (den p) =
              .ok (es.getD k 0#8)) ∧
          fixed.length = w.length ∧
          (∀ i : Nat, i < w.length → fixed.getD i 0#8 = w.getD i 0#8 ^^^
            xorSum (((ps.zip es).filter fun pe => pe.1.toNat == i).map (·.2))) ∧
          exec (.fcorr d a b c) s = .next { s with
            vreg := s.vreg.set d (some fixed), code := .ok }) ∧
      (sy.length < ps.length ∨ (∃ p ∈ ps, den p = 0#8) →
        exec (.fcorr d a b c) s = .next { s with code := .uncorrectable })) ∧
    (s.tv = true → s.readV a = some w → s.readV b = some sy → s.readV c = some ps →
      w = [] ∨ 255 < w.length ∨ sy = [] ∨ (∃ p ∈ ps, w.length ≤ p.toNat) →
      exec (.fcorr d a b c) s = .next { s with code := .invalidInput })

/-! ### The whole pipeline -/

/-- R251 and R252, with R250's function: CORRECT runs the stages of the other commands in order, and writes the corrected
word's first n - r and last r symbols; the operand checks raise INVALID_INPUT, more erasures than r
UNCORRECTABLE; a word whose syndromes are all zero comes back as received, whatever the erasures; a
stage's raise, or a nonzero syndrome afterwards, ends it with that code. -/
def Obligations.CorrectRunsTheStages : Prop :=
  ∀ (d c a b : VReg) (r : Byte) (w e : ByteSeq) (s : State), d ≠ c →
    HasEncoding (.correct d c a b r) 0x57#8 0xFF000000#32 ∧
    (s.tv = false → exec (.correct d c a b r) s = .fault .tablesInvalid) ∧
    (s.tv = true → s.readV a = some w → s.readV b = some e →
      r = 0#8 ∨ w.length ≤ r.toNat ∨ 255 < w.length ∨ ¬ e.Nodup ∨
        (∃ p ∈ e, w.length ≤ p.toNat) →
      exec (.correct d c a b r) s = .next { s with code := .invalidInput }) ∧
    (s.tv = true → s.readV a = some w → s.readV b = some e →
      r ≠ 0#8 → r.toNat < w.length → w.length ≤ 255 → e.Nodup → (∀ p ∈ e, p.toNat < w.length) →
      (r.toNat < e.length →
        exec (.correct d c a b r) s = .next { s with code := .uncorrectable }) ∧
      (e.length ≤ r.toNat →
        (∀ j : Nat, j < r.toNat → polyEval s.tables w (alpha s.tables j) = 0#8) →
        exec (.correct d c a b r) s = .next { s with
          vreg := (s.vreg.set d (some (w.take (w.length - r.toNat)))).set c
            (some (w.drop (w.length - r.toNat))), code := .ok }) ∧
      (e.length ≤ r.toNat → isZero (syndromes s.tables w r.toNat) = false →
        (∀ ts lam found fixed : ByteSeq,
          forneySyndromes s.tables (syndromes s.tables w r.toNat)
            (errataLocator s.tables e w.length) = .ok ts →
          berlekampMassey s.tables ts = .ok lam →
          findRoots s.tables lam w.length = .ok found →
          forneyCorrect s.tables w (syndromes s.tables w r.toNat) (e ++ found) = .ok fixed →
          (isZero (syndromes s.tables fixed r.toNat) = true →
            exec (.correct d c a b r) s = .next { s with
              vreg := (s.vreg.set d (some (fixed.take (w.length - r.toNat)))).set c
                (some (fixed.drop (w.length - r.toNat))), code := .ok }) ∧
          (isZero (syndromes s.tables fixed r.toNat) = false →
            exec (.correct d c a b r) s = .next { s with code := .uncorrectable })) ∧
        (∀ (ts : ByteSeq) (x : Raise),
          forneySyndromes s.tables (syndromes s.tables w r.toNat)
            (errataLocator s.tables e w.length) = .ok ts →
          (berlekampMassey s.tables ts = .error x ∨
            (∃ lam, berlekampMassey s.tables ts = .ok lam ∧
              (findRoots s.tables lam w.length = .error x ∨
                ∃ found, findRoots s.tables lam w.length = .ok found ∧
                  forneyCorrect s.tables w (syndromes s.tables w r.toNat) (e ++ found) =
                    .error x))) →
          exec (.correct d c a b r) s = .next { s with code := x.toCode })))

/-- R253: CORRECT never returns a word that is not a codeword: when it completes with OK, the message
and the parity it wrote, put together, have n symbols and only zero syndromes. -/
def Obligations.CorrectReturnsOnlyCodewords : Prop :=
  ∀ (d c a b : VReg) (r : Byte) (w : ByteSeq) (s t : State), s.readV a = some w →
    exec (.correct d c a b r) s = .next t → t.code = .ok →
    ∃ mm pp : ByteSeq, t.readV d = some mm ∧ t.readV c = some pp ∧ pp.length = r.toNat ∧
      (mm ++ pp).length = w.length ∧
      ∀ j : Nat, j < r.toNat → polyEval s.tables (mm ++ pp) (alpha s.tables j) = 0#8

/-! ### The host interface and faults -/

/-- R62: the seven host operations, each inside its "allowed when" column, and the refusal of data that
cannot be presented. -/
def Obligations.HostOperationsDoWhatTheirRowsSay : Prop :=
  ∀ s : State, s.fault = none →
    hostStep .rdstatus s = .next (s, .word s.statusWord) ∧
    (s.pending = none →
      (∀ w, hostStep (.wrcmd w) s = .next ({ s with pending := some w }, .nothing)) ∧
      hostStep .rdcfg s = .next (s, .word s.cfgWord) ∧
      (∀ (i : SReg) (v : Byte), hostStep (.wrs i v.toNat) s =
        .next ({ s with sreg := s.sreg.set i (some v) }, .nothing)) ∧
      (∀ (i : SReg) (v : Byte), s.readS i = some v → hostStep (.rds i) s = .next (s, .value v)) ∧
      (∀ (i : VReg) (q : ByteSeq), q.length ≤ 512 →
        hostStep (.wrv i (q.map (·.toNat))) s =
          .next ({ s with vreg := s.vreg.set i (some q) }, .nothing)) ∧
      (∀ (i : VReg) (q : ByteSeq), s.readV i = some q →
        hostStep (.rdv i) s = .next (s, .sequence q)) ∧
      (∀ (i : SReg) (v : Nat), 256 ≤ v →
        hostStep (.wrs i v) s = .refused .hostDataNotPresentable) ∧
      (∀ (i : VReg) (q : List Nat), 512 < q.length ∨ (∃ v ∈ q, 256 ≤ v) →
        hostStep (.wrv i q) s = .refused .hostDataNotPresentable))

/-- R64 and R341: outside its column an operation does not happen: F_HOST_BUSY while BUSY = 1,
F_UNWRITTEN when H_RDS or H_RDV names an unwritten register. Where both hold at once (such a read while
BUSY = 1) the rules give both faults and no order, and F_HOST_BUSY is the model's choice (log 18). -/
def Obligations.HostProtocolViolationsFault : Prop :=
  ∀ s : State, s.fault = none →
    (∀ op : HostOp, s.pending ≠ none → op ≠ .rdstatus → op.presentable = true →
      hostStep op s = .fault .hostBusy) ∧
    (∀ i : SReg, s.pending = none → s.readS i = none → hostStep (.rds i) s = .fault .unwritten) ∧
    (∀ i : VReg, s.pending = none → s.readV i = none → hostStep (.rdv i) s = .fault .unwritten)

/-- R310 and R33: when a fault is raised, FAULT is set to its name and nothing else changes; from then
on no move but reset happens, and FAULT keeps its value. -/
def Obligations.FaultsChangeNothingAndFreezeTheModel : Prop :=
  (∀ (m : Move) (s : State) (f : Fault), s.fault = none → move m s = .fault f →
    stateAfter m s = { s with fault := some f }) ∧
  (∀ (m : Move) (s : State) (f : Fault), s.fault = some f → m ≠ .reset →
    (∀ u, move m s ≠ .next u) ∧ stateAfter m s = s)

/-- R341: because the core step is eventually taken, the BUSY wait always ends: one core step with a
word pending and no fault gives BUSY = 0, or faults; it is never refused. -/
def Obligations.OneCoreStepResolvesThePendingCommand : Prop :=
  ∀ (s : State) (w : CmdWord), s.fault = none → s.pending = some w →
    (∃ t, step s = .next t ∧ t.busy = false ∧ t.fault = none) ∨
      step s = .fault .tablesInvalid ∨ step s = .fault .unwritten

/-- R309: STATUS.CODE keeps its value until the next command executes: no host operation changes it, and
after reset it is OK. -/
def Obligations.CodeKeepsItsValue : Prop :=
  (∀ (op : HostOp) (s : State), (stateAfter (.host op) s).code = s.code) ∧
  (∀ s : State, s.pending = none → (stateAfter .core s).code = s.code) ∧
  State.reset.code = .ok
end

