-- ==== Sys2Proof/Laws/Sequences.lean ====
section
/-! SUPPORT. The small lemmas of the sequence and polynomial functions: lengths, elements, norm. -/

namespace Sys2Proof.Machine

/-! ### Sequences -/

@[simp] theorem length_zeros (k : Nat) : (zeros k).length = k := by simp [zeros]

theorem foldl_xor (l : ByteSeq) (x : Byte) : l.foldl (· ^^^ ·) x = x ^^^ xorSum l := by
  induction l generalizing x with
  | nil => simp [xorSum]
  | cons a l ih =>
    rw [xorSum, List.foldl_cons, List.foldl_cons, ih, ih (0#8 ^^^ a)]
    simp [BitVec.xor_assoc]

@[simp] theorem xorSum_nil : xorSum [] = 0#8 := rfl

@[simp] theorem xorSum_cons (a : Byte) (l : ByteSeq) : xorSum (a :: l) = a ^^^ xorSum l := by
  rw [xorSum, List.foldl_cons, foldl_xor]
  simp

@[simp] theorem xorSum_append (l m : ByteSeq) : xorSum (l ++ m) = xorSum l ^^^ xorSum m := by
  induction l with
  | nil => simp
  | cons a l ih => simp [ih, BitVec.xor_assoc]

theorem xorSum_map_xor {α : Type} (l : List α) (f g : α → Byte) :
    xorSum (l.map fun x => f x ^^^ g x) = xorSum (l.map f) ^^^ xorSum (l.map g) := by
  induction l with
  | nil => simp
  | cons a l ih =>
    simp only [List.map_cons, xorSum_cons, ih]
    ac_rfl

theorem xorSum_map_zero {α : Type} (l : List α) : xorSum (l.map fun _ => 0#8) = 0#8 := by
  induction l with
  | nil => rfl
  | cons a l ih => simpa using ih

theorem isZero_iff (p : ByteSeq) : isZero p = true ↔ ∀ x ∈ p, x = 0#8 := by
  simp [isZero]

/-- `distinct` is the library's `Nodup`. -/
theorem distinct_iff (p : ByteSeq) : distinct p = true ↔ p.Nodup := by
  induction p with
  | nil => simp [distinct]
  | cons a p ih => simp [distinct, ih]

/-! ### xorOnto -/

@[simp] theorem length_xorOnto (v p : ByteSeq) : (xorOnto v p).length = p.length := by
  induction v generalizing p with
  | nil => simp [xorOnto]
  | cons a v ih => cases p <;> simp [xorOnto, ih]

theorem getD_xorOnto (v p : ByteSeq) (k : Nat) (h : k < p.length) :
    (xorOnto v p).getD k 0#8 = v.getD k 0#8 ^^^ p.getD k 0#8 := by
  induction v generalizing p k with
  | nil => simp [xorOnto]
  | cons a v ih =>
    cases p with
    | nil => simp at h
    | cons b p =>
      cases k with
      | zero => simp [xorOnto]
      | succ k =>
        simp only [xorOnto, List.getD_cons_succ]
        exact ih p k (by simpa using h)

/-! ### norm -/

theorem norm_ne_nil {p : ByteSeq} (h : p ≠ []) : norm p ≠ [] := by
  induction p with
  | nil => exact absurd rfl h
  | cons a p ih =>
    cases p with
    | nil => simp [norm]
    | cons b p =>
      rw [norm]
      split
      · exact ih (by simp)
      · simp

theorem length_norm_le (p : ByteSeq) : (norm p).length ≤ p.length := by
  induction p with
  | nil => simp [norm]
  | cons a p ih =>
    cases p with
    | nil => simp [norm]
    | cons b p =>
      rw [norm]
      split
      · exact Nat.le_succ_of_le ih
      · exact Nat.le_refl _

/-- A sequence that is not zero normalizes to one whose leading element is not 0. -/
theorem norm_head_ne_zero {p : ByteSeq} (h : isZero p = false) (x : Byte) (q : ByteSeq)
    (hn : norm p = x :: q) : x ≠ 0#8 := by
  induction p with
  | nil => simp [norm] at hn
  | cons a p ih =>
    cases p with
    | nil =>
      simp only [norm, List.cons.injEq] at hn
      rw [← hn.1]
      simpa [isZero] using h
    | cons b p =>
      rw [norm] at hn
      split at hn
      · rename_i ha
        exact ih (by simpa [isZero, ha] using h) hn
      · rename_i ha
        simp only [List.cons.injEq] at hn
        rw [← hn.1]
        exact ha

/-- A sequence whose leading element is not 0 is its own normal form. -/
theorem norm_of_head {x : Byte} {q : ByteSeq} (h : x ≠ 0#8) : norm (x :: q) = x :: q := by
  cases q <;> simp [norm, h]

/-! ### Lengths and elements of the polynomial functions -/

@[simp] theorem length_padTo (m : Nat) (p : ByteSeq) : (padTo m p).length = max m p.length := by
  simp [padTo]
  omega

@[simp] theorem length_polyAdd (p q : ByteSeq) :
    (polyAdd p q).length = max p.length q.length := by
  simp [polyAdd]

@[simp] theorem length_polyMul (t : Tables) (p q : ByteSeq) :
    (polyMul t p q).length = p.length + (q.length - 1) := by
  induction p with
  | nil => simp [polyMul]
  | cons a p ih =>
    simp [polyMul, ih]
    omega

@[simp] theorem length_polyScale (t : Tables) (p : ByteSeq) (a : Byte) :
    (polyScale t p a).length = p.length := by
  simp [polyScale]

@[simp] theorem length_generatorPoly (t : Tables) (r : Nat) :
    (generatorPoly t r).length = r + 1 := by
  induction r with
  | zero => rfl
  | succ r ih =>
    rw [generatorPoly, List.range_succ, List.foldl_append, ← generatorPoly]
    simp [ih]

theorem generatorPoly_succ (t : Tables) (r : Nat) :
    generatorPoly t (r + 1) = polyMul t (generatorPoly t r) [1#8, alpha t r] := by
  simp [generatorPoly, List.range_succ]

theorem errataLocator_append (t : Tables) (ps : ByteSeq) (p : Byte) (n : Nat) :
    errataLocator t (ps ++ [p]) n =
      polyMul t (errataLocator t ps n) [locatorValue t p.toNat n, 1#8] := by
  simp [errataLocator]

@[simp] theorem length_errataLocator (t : Tables) (ps : ByteSeq) (n : Nat) :
    (errataLocator t ps n).length = ps.length + 1 := by
  induction ps using List.reverseRecOn with
  | nil => rfl
  | append_singleton ps p ih =>
    rw [errataLocator_append]
    simp [ih]

@[simp] theorem length_syndromes (t : Tables) (w : ByteSeq) (r : Nat) :
    (syndromes t w r).length = r := by
  simp [syndromes]

@[simp] theorem length_errorEvaluator (t : Tables) (sy psi : ByteSeq) :
    (errorEvaluator t sy psi).length = sy.length := by
  simp [errorEvaluator]

@[simp] theorem length_applyMagnitudes (w : ByteSeq) (pes : List (Byte × Byte)) :
    (applyMagnitudes w pes).length = w.length := by
  induction pes generalizing w with
  | nil => rfl
  | cons pe pes ih =>
    rw [applyMagnitudes, List.foldl_cons, ← applyMagnitudes, ih]
    simp

/-- The division loop's results: as many quotient elements as turns, and the rest of W. -/
theorem length_divLoop {t : Tables} {v0 : Byte} {vs : ByteSeq} {n : Nat} {w q r : ByteSeq}
    (hn : n ≤ w.length) (h : divLoop t v0 vs n w = .ok (q, r)) :
    q.length = n ∧ r.length = w.length - n := by
  induction n generalizing w q r with
  | zero =>
    simp only [divLoop, Except.ok.injEq, Prod.mk.injEq] at h
    simp [← h.1, ← h.2]
  | succ n ih =>
    cases w with
    | nil => simp at hn
    | cons w0 w =>
      simp only [divLoop] at h
      split at h
      · cases h
      · split at h
        · cases h
        · rename_i q' r' heq
          simp only [Except.ok.injEq, Prod.mk.injEq] at h
          have := ih (by simpa using hn) heq
          rw [← h.1, ← h.2]
          simpa using this

/-- With a leading coefficient that is not 0 the division loop never raises (R144). -/
theorem divLoop_ok (t : Tables) {v0 : Byte} (vs : ByteSeq) (n : Nat) (w : ByteSeq)
    (h0 : v0 ≠ 0#8) : ∃ q r, divLoop t v0 vs n w = .ok (q, r) := by
  induction n generalizing w with
  | zero => exact ⟨[], w, rfl⟩
  | succ n ih =>
    cases w with
    | nil => exact ⟨[], [], rfl⟩
    | cons w0 w =>
      have hd : ∃ c, gfDiv t w0 v0 = .ok c := by
        simp only [gfDiv, h0, if_false]
        split <;> exact ⟨_, rfl⟩
      obtain ⟨c, hc⟩ := hd
      obtain ⟨q, r, hqr⟩ := ih (xorOnto (vs.map fun x => gfMul t x c) w)
      exact ⟨c :: q, r, by simp [divLoop, hc, hqr]⟩

/-- One magnitude per position. -/
theorem length_magnitudes {t : Tables} {psi om : ByteSeq} {n : Nat} {ps es : ByteSeq}
    (h : magnitudes t psi om n ps = .ok es) : es.length = ps.length := by
  induction ps generalizing es with
  | nil =>
    simp only [magnitudes, Except.ok.injEq] at h
    simp [← h]
  | cons p ps ih =>
    simp only [magnitudes] at h
    split at h
    · cases h
    · split at h
      · cases h
      · rename_i xs hxs
        simp only [Except.ok.injEq] at h
        simp [← h, ih hxs]

end Sys2Proof.Machine
end

