-- ==== Sys2Proof/Laws/BerlekampMassey.lean ====
section
/-! SUPPORT. What one turn of Berlekamp-Massey does (R200), and what its loop over appended turns is. -/

namespace Sys2Proof.Machine

/-- A nonzero divisor never raises (R106). -/
theorem gfDiv_ok (t : Tables) (a : Byte) {b : Byte} (h : b ≠ 0#8) : ∃ q, gfDiv t a b = .ok q := by
  unfold gfDiv
  rw [if_neg h]
  split <;> exact ⟨_, rfl⟩

/-- Every coefficient of C' (R200): the list is long enough, and past it both sides are 0. -/
theorem lowCoef_bmUpdate (t : Tables) (z : BmState) (q : Byte) (i : Nat) :
    lowCoef (bmUpdate t z q) i =
      if i < z.m then lowCoef z.c i else lowCoef z.c i ^^^ gfMul t q (lowCoef z.b (i - z.m)) := by
  unfold bmUpdate lowCoef
  by_cases h : i < max z.c.length (z.m + z.b.length)
  · simp only [List.getD_eq_getElem?_getD, List.getElem?_map, List.getElem?_range h]
    rfl
  · have hl : ((List.range (max z.c.length (z.m + z.b.length))).map fun i =>
        if i < z.m then z.c.getD i 0#8
        else z.c.getD i 0#8 ^^^ gfMul t q (z.b.getD (i - z.m) 0#8))[i]? = none := by
      rw [List.getElem?_eq_none]
      simpa using h
    rw [List.getD_eq_getElem?_getD, hl, List.getD_eq_getElem?_getD,
      List.getElem?_eq_none (by omega : z.c.length ≤ i), List.getD_eq_getElem?_getD,
      List.getElem?_eq_none (by omega : z.b.length ≤ i - z.m)]
    simp [gfMul]

/-- A turn with discrepancy 0 only moves m on. -/
theorem bmTurn_zero {t : Tables} {ts : ByteSeq} {z : BmState} {k : Nat}
    (h : bmDiscrepancy t ts z k = 0#8) : bmTurn t ts z k = .ok { z with m := z.m + 1 } := by
  simp only [bmTurn, h, if_true]

/-- A turn with a discrepancy d other than 0 updates C, and swaps in the new best prior when 2L ≤ k. -/
theorem bmTurn_ne_zero {t : Tables} {ts : ByteSeq} {z : BmState} {k : Nat}
    (h : bmDiscrepancy t ts z k ≠ 0#8) (hb : z.disc ≠ 0#8) :
    ∃ q, gfDiv t (bmDiscrepancy t ts z k) z.disc = .ok q ∧
      bmTurn t ts z k = .ok (if 2 * z.len ≤ k
        then { c := bmUpdate t z q, b := z.c, len := k + 1 - z.len, m := 1,
               disc := bmDiscrepancy t ts z k }
        else { z with c := bmUpdate t z q, m := z.m + 1 }) := by
  obtain ⟨q, hq⟩ := gfDiv_ok t (bmDiscrepancy t ts z k) hb
  refine ⟨q, hq, ?_⟩
  simp only [bmTurn, h, if_false, hq]
  split <;> rfl

/-- A turn keeps b other than 0, so no turn raises. -/
theorem bmTurn_ok {t : Tables} {ts : ByteSeq} {z : BmState} {k : Nat} (hb : z.disc ≠ 0#8) :
    ∃ z', bmTurn t ts z k = .ok z' ∧ z'.disc ≠ 0#8 := by
  by_cases h : bmDiscrepancy t ts z k = 0#8
  · exact ⟨_, bmTurn_zero h, hb⟩
  · obtain ⟨q, -, hz⟩ := bmTurn_ne_zero h hb
    refine ⟨_, hz, ?_⟩
    split
    · exact h
    · exact hb

theorem bmLoop_append (t : Tables) (ts : ByteSeq) (ks : List Nat) (k : Nat) (z : BmState) :
    bmLoop t ts (ks ++ [k]) z =
      match bmLoop t ts ks z with
      | .ok z' => bmTurn t ts z' k
      | .error e => .error e := by
  induction ks generalizing z with
  | nil =>
    simp only [List.nil_append, bmLoop]
    cases bmTurn t ts z k <;> rfl
  | cons a ks ih =>
    simp only [List.cons_append, bmLoop]
    cases bmTurn t ts z a with
    | error e => rfl
    | ok z' => exact ih z'

end Sys2Proof.Machine
end

