-- ==== Sys2Proof/Laws/State.lean ====
section
/-! SUPPORT. What each named update of the state does to each field: one lemma per field per update. -/

namespace Sys2Proof.Machine

@[simp] theorem State.setCode_sreg (s : State) (c : StatusCode) :
    (s.setCode c).sreg = s.sreg := rfl
@[simp] theorem State.setCode_vreg (s : State) (c : StatusCode) :
    (s.setCode c).vreg = s.vreg := rfl
@[simp] theorem State.setCode_tables (s : State) (c : StatusCode) :
    (s.setCode c).tables = s.tables := rfl
@[simp] theorem State.setCode_tv (s : State) (c : StatusCode) :
    (s.setCode c).tv = s.tv := rfl
@[simp] theorem State.setCode_prim (s : State) (c : StatusCode) :
    (s.setCode c).prim = s.prim := rfl
@[simp] theorem State.setCode_gen (s : State) (c : StatusCode) :
    (s.setCode c).gen = s.gen := rfl
@[simp] theorem State.setCode_code (s : State) (c : StatusCode) :
    (s.setCode c).code = c := rfl
@[simp] theorem State.setCode_pending (s : State) (c : StatusCode) :
    (s.setCode c).pending = s.pending := rfl
@[simp] theorem State.setCode_fault (s : State) (c : StatusCode) :
    (s.setCode c).fault = s.fault := rfl
@[simp] theorem State.setCode_freeCount (s : State) (c : StatusCode) :
    (s.setCode c).freeCount = s.freeCount := rfl

@[simp] theorem State.writeS_sreg (s : State) (i : SReg) (v : Byte) :
    (s.writeS i v).sreg = s.sreg.set i (some v) := rfl
@[simp] theorem State.writeS_vreg (s : State) (i : SReg) (v : Byte) :
    (s.writeS i v).vreg = s.vreg := rfl
@[simp] theorem State.writeS_tables (s : State) (i : SReg) (v : Byte) :
    (s.writeS i v).tables = s.tables := rfl
@[simp] theorem State.writeS_tv (s : State) (i : SReg) (v : Byte) :
    (s.writeS i v).tv = s.tv := rfl
@[simp] theorem State.writeS_prim (s : State) (i : SReg) (v : Byte) :
    (s.writeS i v).prim = s.prim := rfl
@[simp] theorem State.writeS_gen (s : State) (i : SReg) (v : Byte) :
    (s.writeS i v).gen = s.gen := rfl
@[simp] theorem State.writeS_code (s : State) (i : SReg) (v : Byte) :
    (s.writeS i v).code = s.code := rfl
@[simp] theorem State.writeS_pending (s : State) (i : SReg) (v : Byte) :
    (s.writeS i v).pending = s.pending := rfl
@[simp] theorem State.writeS_fault (s : State) (i : SReg) (v : Byte) :
    (s.writeS i v).fault = s.fault := rfl
@[simp] theorem State.writeS_freeCount (s : State) (i : SReg) (v : Byte) :
    (s.writeS i v).freeCount = s.freeCount := rfl

@[simp] theorem State.writeV_sreg (s : State) (i : VReg) (q : ByteSeq) :
    (s.writeV i q).sreg = s.sreg := rfl
@[simp] theorem State.writeV_vreg (s : State) (i : VReg) (q : ByteSeq) :
    (s.writeV i q).vreg = s.vreg.set i (some q) := rfl
@[simp] theorem State.writeV_tables (s : State) (i : VReg) (q : ByteSeq) :
    (s.writeV i q).tables = s.tables := rfl
@[simp] theorem State.writeV_tv (s : State) (i : VReg) (q : ByteSeq) :
    (s.writeV i q).tv = s.tv := rfl
@[simp] theorem State.writeV_prim (s : State) (i : VReg) (q : ByteSeq) :
    (s.writeV i q).prim = s.prim := rfl
@[simp] theorem State.writeV_gen (s : State) (i : VReg) (q : ByteSeq) :
    (s.writeV i q).gen = s.gen := rfl
@[simp] theorem State.writeV_code (s : State) (i : VReg) (q : ByteSeq) :
    (s.writeV i q).code = s.code := rfl
@[simp] theorem State.writeV_pending (s : State) (i : VReg) (q : ByteSeq) :
    (s.writeV i q).pending = s.pending := rfl
@[simp] theorem State.writeV_fault (s : State) (i : VReg) (q : ByteSeq) :
    (s.writeV i q).fault = s.fault := rfl
@[simp] theorem State.writeV_freeCount (s : State) (i : VReg) (q : ByteSeq) :
    (s.writeV i q).freeCount = s.freeCount := rfl

@[simp] theorem State.acceptWord_sreg (s : State) (w : CmdWord) :
    (s.acceptWord w).sreg = s.sreg := rfl
@[simp] theorem State.acceptWord_vreg (s : State) (w : CmdWord) :
    (s.acceptWord w).vreg = s.vreg := rfl
@[simp] theorem State.acceptWord_tables (s : State) (w : CmdWord) :
    (s.acceptWord w).tables = s.tables := rfl
@[simp] theorem State.acceptWord_tv (s : State) (w : CmdWord) :
    (s.acceptWord w).tv = s.tv := rfl
@[simp] theorem State.acceptWord_prim (s : State) (w : CmdWord) :
    (s.acceptWord w).prim = s.prim := rfl
@[simp] theorem State.acceptWord_gen (s : State) (w : CmdWord) :
    (s.acceptWord w).gen = s.gen := rfl
@[simp] theorem State.acceptWord_code (s : State) (w : CmdWord) :
    (s.acceptWord w).code = s.code := rfl
@[simp] theorem State.acceptWord_pending (s : State) (w : CmdWord) :
    (s.acceptWord w).pending = some w := rfl
@[simp] theorem State.acceptWord_fault (s : State) (w : CmdWord) :
    (s.acceptWord w).fault = s.fault := rfl
@[simp] theorem State.acceptWord_freeCount (s : State) (w : CmdWord) :
    (s.acceptWord w).freeCount = s.freeCount := rfl

@[simp] theorem State.retire_sreg (s : State) :
    s.retire.sreg = s.sreg := rfl
@[simp] theorem State.retire_vreg (s : State) :
    s.retire.vreg = s.vreg := rfl
@[simp] theorem State.retire_tables (s : State) :
    s.retire.tables = s.tables := rfl
@[simp] theorem State.retire_tv (s : State) :
    s.retire.tv = s.tv := rfl
@[simp] theorem State.retire_prim (s : State) :
    s.retire.prim = s.prim := rfl
@[simp] theorem State.retire_gen (s : State) :
    s.retire.gen = s.gen := rfl
@[simp] theorem State.retire_code (s : State) :
    s.retire.code = s.code := rfl
@[simp] theorem State.retire_pending (s : State) :
    s.retire.pending = none := rfl
@[simp] theorem State.retire_fault (s : State) :
    s.retire.fault = s.fault := rfl
@[simp] theorem State.retire_freeCount (s : State) :
    s.retire.freeCount = s.freeCount := rfl

@[simp] theorem State.recordFault_sreg (s : State) (f : Fault) :
    (s.recordFault f).sreg = s.sreg := rfl
@[simp] theorem State.recordFault_vreg (s : State) (f : Fault) :
    (s.recordFault f).vreg = s.vreg := rfl
@[simp] theorem State.recordFault_tables (s : State) (f : Fault) :
    (s.recordFault f).tables = s.tables := rfl
@[simp] theorem State.recordFault_tv (s : State) (f : Fault) :
    (s.recordFault f).tv = s.tv := rfl
@[simp] theorem State.recordFault_prim (s : State) (f : Fault) :
    (s.recordFault f).prim = s.prim := rfl
@[simp] theorem State.recordFault_gen (s : State) (f : Fault) :
    (s.recordFault f).gen = s.gen := rfl
@[simp] theorem State.recordFault_code (s : State) (f : Fault) :
    (s.recordFault f).code = s.code := rfl
@[simp] theorem State.recordFault_pending (s : State) (f : Fault) :
    (s.recordFault f).pending = s.pending := rfl
@[simp] theorem State.recordFault_fault (s : State) (f : Fault) :
    (s.recordFault f).fault = s.fault.orElse fun _ => some f := rfl
@[simp] theorem State.recordFault_freeCount (s : State) (f : Fault) :
    (s.recordFault f).freeCount = s.freeCount := rfl

@[simp] theorem State.installTables_sreg (s : State) (primlo gen : Byte) :
    (s.installTables primlo gen).sreg = s.sreg := by dsimp only [State.installTables]
@[simp] theorem State.installTables_vreg (s : State) (primlo gen : Byte) :
    (s.installTables primlo gen).vreg = s.vreg := by dsimp only [State.installTables]
@[simp] theorem State.installTables_tables (s : State) (primlo gen : Byte) :
    (s.installTables primlo gen).tables = buildTables primlo gen := by dsimp only [State.installTables]
@[simp] theorem State.installTables_tv (s : State) (primlo gen : Byte) :
    (s.installTables primlo gen).tv = true := by dsimp only [State.installTables]
@[simp] theorem State.installTables_prim (s : State) (primlo gen : Byte) :
    (s.installTables primlo gen).prim = 0x100#9 + primlo.setWidth 9 := by dsimp only [State.installTables]
@[simp] theorem State.installTables_gen (s : State) (primlo gen : Byte) :
    (s.installTables primlo gen).gen = gen := by dsimp only [State.installTables]
@[simp] theorem State.installTables_code (s : State) (primlo gen : Byte) :
    (s.installTables primlo gen).code = s.code := by dsimp only [State.installTables]
@[simp] theorem State.installTables_pending (s : State) (primlo gen : Byte) :
    (s.installTables primlo gen).pending = s.pending := by dsimp only [State.installTables]
@[simp] theorem State.installTables_fault (s : State) (primlo gen : Byte) :
    (s.installTables primlo gen).fault = s.fault := by dsimp only [State.installTables]
@[simp] theorem State.installTables_freeCount (s : State) (primlo gen : Byte) :
    (s.installTables primlo gen).freeCount = s.freeCount := by dsimp only [State.installTables]

@[simp] theorem State.dropTables_sreg (s : State) :
    s.dropTables.sreg = s.sreg := by dsimp only [State.dropTables]
@[simp] theorem State.dropTables_vreg (s : State) :
    s.dropTables.vreg = s.vreg := by dsimp only [State.dropTables]
@[simp] theorem State.dropTables_tables (s : State) :
    s.dropTables.tables = freeTables s.freeCount := by dsimp only [State.dropTables]
@[simp] theorem State.dropTables_tv (s : State) :
    s.dropTables.tv = false := by dsimp only [State.dropTables]
@[simp] theorem State.dropTables_prim (s : State) :
    s.dropTables.prim = s.prim := by dsimp only [State.dropTables]
@[simp] theorem State.dropTables_gen (s : State) :
    s.dropTables.gen = s.gen := by dsimp only [State.dropTables]
@[simp] theorem State.dropTables_code (s : State) :
    s.dropTables.code = s.code := by dsimp only [State.dropTables]
@[simp] theorem State.dropTables_pending (s : State) :
    s.dropTables.pending = s.pending := by dsimp only [State.dropTables]
@[simp] theorem State.dropTables_fault (s : State) :
    s.dropTables.fault = s.fault := by dsimp only [State.dropTables]
@[simp] theorem State.dropTables_freeCount (s : State) :
    s.dropTables.freeCount = s.freeCount + 1 := by dsimp only [State.dropTables]

@[simp] theorem State.loadWord_sreg (s : State) (w : CmdWord) :
    (s.loadWord w).sreg = s.sreg := rfl
@[simp] theorem State.loadWord_vreg (s : State) (w : CmdWord) :
    (s.loadWord w).vreg = s.vreg := rfl
@[simp] theorem State.loadWord_tables (s : State) (w : CmdWord) :
    (s.loadWord w).tables = s.tables := rfl
@[simp] theorem State.loadWord_tv (s : State) (w : CmdWord) :
    (s.loadWord w).tv = s.tv := rfl
@[simp] theorem State.loadWord_prim (s : State) (w : CmdWord) :
    (s.loadWord w).prim = s.prim := rfl
@[simp] theorem State.loadWord_gen (s : State) (w : CmdWord) :
    (s.loadWord w).gen = s.gen := rfl
@[simp] theorem State.loadWord_code (s : State) (w : CmdWord) :
    (s.loadWord w).code = s.code := rfl
@[simp] theorem State.loadWord_pending (s : State) (w : CmdWord) :
    (s.loadWord w).pending = some w := rfl
@[simp] theorem State.loadWord_fault (s : State) (w : CmdWord) :
    (s.loadWord w).fault = none := rfl
@[simp] theorem State.loadWord_freeCount (s : State) (w : CmdWord) :
    (s.loadWord w).freeCount = s.freeCount := rfl

/-! ### Reading back a register -/

theorem State.readS_writeS (s : State) (i j : SReg) (v : Byte) :
    (s.writeS i v).readS j = if i = j then some v else s.readS j := by
  simp only [State.readS, State.writeS, Fin.getElem_fin, Vector.getElem_set, Fin.ext_iff]

theorem State.readV_writeV (s : State) (i j : VReg) (q : ByteSeq) :
    (s.writeV i q).readV j = if i = j then some q else s.readV j := by
  simp only [State.readV, State.writeV, Fin.getElem_fin, Vector.getElem_set, Fin.ext_iff]

@[simp] theorem State.readS_writeS_self (s : State) (i : SReg) (v : Byte) :
    (s.writeS i v).readS i = some v := by simp [State.readS_writeS]

@[simp] theorem State.readV_writeV_self (s : State) (i : VReg) (q : ByteSeq) :
    (s.writeV i q).readV i = some q := by simp [State.readV_writeV]

@[simp] theorem State.setCode_readS (s : State) (c : StatusCode) (j : SReg) :
    (s.setCode c).readS j = s.readS j := rfl
@[simp] theorem State.setCode_readV (s : State) (c : StatusCode) (j : VReg) :
    (s.setCode c).readV j = s.readV j := rfl
@[simp] theorem State.writeS_readV (s : State) (i : SReg) (v : Byte) (j : VReg) :
    (s.writeS i v).readV j = s.readV j := rfl
@[simp] theorem State.writeV_readS (s : State) (i : VReg) (q : ByteSeq) (j : SReg) :
    (s.writeV i q).readS j = s.readS j := rfl
@[simp] theorem State.acceptWord_readS (s : State) (w : CmdWord) (j : SReg) :
    (s.acceptWord w).readS j = s.readS j := rfl
@[simp] theorem State.acceptWord_readV (s : State) (w : CmdWord) (j : VReg) :
    (s.acceptWord w).readV j = s.readV j := rfl
@[simp] theorem State.retire_readS (s : State) (j : SReg) :
    s.retire.readS j = s.readS j := rfl
@[simp] theorem State.retire_readV (s : State) (j : VReg) :
    s.retire.readV j = s.readV j := rfl
@[simp] theorem State.recordFault_readS (s : State) (f : Fault) (j : SReg) :
    (s.recordFault f).readS j = s.readS j := rfl
@[simp] theorem State.recordFault_readV (s : State) (f : Fault) (j : VReg) :
    (s.recordFault f).readV j = s.readV j := rfl
@[simp] theorem State.installTables_readS (s : State) (primlo gen : Byte) (j : SReg) :
    (s.installTables primlo gen).readS j = s.readS j := by dsimp only [State.installTables, State.readS]
@[simp] theorem State.installTables_readV (s : State) (primlo gen : Byte) (j : VReg) :
    (s.installTables primlo gen).readV j = s.readV j := by dsimp only [State.installTables, State.readV]
@[simp] theorem State.dropTables_readS (s : State) (j : SReg) :
    s.dropTables.readS j = s.readS j := by dsimp only [State.dropTables, State.readS]
@[simp] theorem State.dropTables_readV (s : State) (j : VReg) :
    s.dropTables.readV j = s.readV j := by dsimp only [State.dropTables, State.readV]
@[simp] theorem State.loadWord_readS (s : State) (w : CmdWord) (j : SReg) :
    (s.loadWord w).readS j = s.readS j := rfl
@[simp] theorem State.loadWord_readV (s : State) (w : CmdWord) (j : VReg) :
    (s.loadWord w).readV j = s.readV j := rfl

@[simp] theorem State.reset_readS (i : SReg) : State.reset.readS i = none := by
  simp [State.reset, State.readS]

@[simp] theorem State.reset_readV (i : VReg) : State.reset.readV i = none := by
  simp [State.reset, State.readV]

end Sys2Proof.Machine
end

