-- ==== Sys2Proof/Laws/Ops.lean ====
section
/-! SUPPORT. One lemma per shared operation of the execution cycle: everything it can answer. -/

namespace Sys2Proof.Machine

/-- An outcome answers a next state exactly when `nextState` reads one. -/
theorem nextState_eq_some (o : Result) (t : State) : nextState o = some t ↔ o = .next t := by
  cases o <;> simp [nextState]

theorem requireTables_true (s : State) (k : Result) (h : s.tv = true) : requireTables s k = k := by
  simp [requireTables, h]

theorem requireTables_false (s : State) (k : Result) (h : s.tv = false) :
    requireTables s k = .fault .tablesInvalid := by
  simp [requireTables, h]

theorem requireTables_next {s t : State} {k : Result} :
    requireTables s k = .next t ↔ s.tv = true ∧ k = .next t := by
  unfold requireTables
  split <;> simp_all

theorem requireTables_fault {s : State} {k : Result} {f : Fault} :
    requireTables s k = .fault f ↔
      (s.tv = false ∧ f = .tablesInvalid) ∨ (s.tv = true ∧ k = .fault f) := by
  cases h : s.tv <;> simp [requireTables, h, eq_comm]

theorem sourceS_some (s : State) (i : SReg) (k : Byte → Result) (v : Byte)
    (h : s.readS i = some v) : sourceS s i k = k v := by
  simp [sourceS, h]

theorem sourceS_none (s : State) (i : SReg) (k : Byte → Result) (h : s.readS i = none) :
    sourceS s i k = .fault .unwritten := by
  simp [sourceS, h]

theorem sourceS_next {s t : State} {i : SReg} {k : Byte → Result} :
    sourceS s i k = .next t ↔ ∃ v, s.readS i = some v ∧ k v = .next t := by
  unfold sourceS
  split <;> simp_all

theorem sourceS_fault {s : State} {i : SReg} {k : Byte → Result} {f : Fault} :
    sourceS s i k = .fault f ↔
      (s.readS i = none ∧ f = .unwritten) ∨ ∃ v, s.readS i = some v ∧ k v = .fault f := by
  cases h : s.readS i <;> simp [sourceS, h, eq_comm (a := Fault.unwritten)]

theorem sourceV_some (s : State) (i : VReg) (k : ByteSeq → Result) (q : ByteSeq)
    (h : s.readV i = some q) : sourceV s i k = k q := by
  simp [sourceV, h]

theorem sourceV_none (s : State) (i : VReg) (k : ByteSeq → Result) (h : s.readV i = none) :
    sourceV s i k = .fault .unwritten := by
  simp [sourceV, h]

theorem sourceV_next {s t : State} {i : VReg} {k : ByteSeq → Result} :
    sourceV s i k = .next t ↔ ∃ q, s.readV i = some q ∧ k q = .next t := by
  unfold sourceV
  split <;> simp_all

theorem sourceV_fault {s : State} {i : VReg} {k : ByteSeq → Result} {f : Fault} :
    sourceV s i k = .fault f ↔
      (s.readV i = none ∧ f = .unwritten) ∨ ∃ q, s.readV i = some q ∧ k q = .fault f := by
  cases h : s.readV i <;> simp [sourceV, h, eq_comm (a := Fault.unwritten)]

/-- Everything `finishS` can answer: a next state, either the value written and OK, or the code alone. -/
theorem finishS_next {s t : State} {d : SReg} {out : Except Raise Byte} :
    finishS s d out = .next t ↔
      (∃ v, out = .ok v ∧ t = (s.writeS d v).setCode .ok) ∨
        ∃ c, out = .error c ∧ t = s.setCode c.toCode := by
  cases out <;> simp [finishS, eq_comm]

theorem finishV_next {s t : State} {d : VReg} {out : Except Raise ByteSeq} :
    finishV s d out = .next t ↔
      (∃ q, out = .ok q ∧ t = (s.writeV d q).setCode .ok) ∨
        ∃ c, out = .error c ∧ t = s.setCode c.toCode := by
  cases out <;> simp [finishV, eq_comm]

theorem finishVV_next {s t : State} {d c : VReg} {out : Except Raise (ByteSeq × ByteSeq)} :
    finishVV s d c out = .next t ↔
      (∃ q p, out = .ok (q, p) ∧ t = ((s.writeV d q).writeV c p).setCode .ok) ∨
        ∃ e, out = .error e ∧ t = s.setCode e.toCode := by
  rcases out with e | ⟨q, p⟩
  · simp [finishVV, eq_comm]
  · constructor
    · intro h
      simp only [finishVV, Host.Outcome.next.injEq] at h
      exact .inl ⟨q, p, rfl, h.symm⟩
    · rintro (⟨_, _, ⟨⟩, rfl⟩ | ⟨_, ⟨⟩, _⟩)
      rfl

theorem finishS_ne_fault (s : State) (d : SReg) (out : Except Raise Byte) (f : Fault) :
    finishS s d out ≠ .fault f := by
  cases out <;> simp [finishS]

theorem finishV_ne_fault (s : State) (d : VReg) (out : Except Raise ByteSeq) (f : Fault) :
    finishV s d out ≠ .fault f := by
  cases out <;> simp [finishV]

theorem finishVV_ne_fault (s : State) (d c : VReg) (out : Except Raise (ByteSeq × ByteSeq))
    (f : Fault) : finishVV s d c out ≠ .fault f := by
  cases out <;> simp [finishVV]

theorem illegal_next {s t : State} : illegal s = .next t ↔ t = s.setCode .illegalCommand := by
  simp [illegal, eq_comm]

/-- A raised code is never OK. -/
theorem Raise.toCode_ne_ok (c : Raise) : c.toCode ≠ .ok := by
  cases c <;> simp [Raise.toCode]

/-- A raised code is never ILLEGAL_COMMAND. -/
theorem Raise.toCode_ne_illegal (c : Raise) : c.toCode ≠ .illegalCommand := by
  cases c <;> simp [Raise.toCode]

/-! ### The core's step -/

/-- Everything a core step that answers a next state did: it waited, or executed the pending word. -/
theorem coreStep_next {s t : State} :
    coreStep s = .next t ↔
      s.fault = none ∧ ((s.pending = none ∧ t = s) ∨
        ∃ w u, s.pending = some w ∧ executeWord w s = .next u ∧ t = u.retire) := by
  unfold coreStep retireResult
  cases hf : s.fault <;> cases hp : s.pending <;> simp [eq_comm]
  rename_i w
  cases executeWord w s <;> simp [eq_comm]

end Sys2Proof.Machine
end

