-- ==== Sys2Proof/Laws/Commands.lean ====
section
/-! SUPPORT. What PDIV and CORRECT can answer: they settle D = C before anything else (R77, R307). -/

namespace Sys2Proof.Machine

/-- A next state of PDIV: an illegal encoding's, or that of the division of its two buffers. -/
theorem execPdiv_next {d c a b : VReg} {s t : State} :
    execPdiv d c a b s = .next t ↔
      (d = c ∧ t = s.setCode .illegalCommand) ∨
        (d ≠ c ∧ s.tv = true ∧ ∃ p, s.readV a = some p ∧ ∃ q, s.readV b = some q ∧
          finishVV s d c (polyDivmod s.tables p q) = .next t) := by
  unfold execPdiv
  split <;> simp_all [illegal_next, requireTables_next, sourceV_next]

/-- A next state of CORRECT: an illegal encoding's, or that of the pipeline on its two buffers. -/
theorem execCorrect_next {d c a b : VReg} {r : Byte} {s t : State} :
    execCorrect d c a b r s = .next t ↔
      (d = c ∧ t = s.setCode .illegalCommand) ∨
        (d ≠ c ∧ s.tv = true ∧ ∃ w, s.readV a = some w ∧ ∃ e, s.readV b = some e ∧
          finishVV s d c (rsCorrect s.tables w e r.toNat) = .next t) := by
  unfold execCorrect
  split <;> simp_all [illegal_next, requireTables_next, sourceV_next]

/-- A next state of TBLINIT: the new tables installed, or the old ones dropped (R103). -/
theorem execTblinit_next {primlo gen : Byte} {s t : State} :
    execTblinit primlo gen s = .next t ↔
      (fullPeriod primlo gen = true ∧ t = (s.installTables primlo gen).setCode .ok) ∨
        (fullPeriod primlo gen = false ∧ t = s.dropTables.setCode .configError) := by
  unfold execTblinit
  cases fullPeriod primlo gen
  · rw [if_neg Bool.false_ne_true, Host.Outcome.next.injEq]
    exact ⟨fun h => .inr ⟨rfl, h.symm⟩, fun h => h.elim (fun h => nomatch h.1) fun h => h.2.symm⟩
  · rw [if_pos rfl, Host.Outcome.next.injEq]
    exact ⟨fun h => .inl ⟨rfl, h.symm⟩, fun h => h.elim (fun h => h.2.symm) fun h => nomatch h.1⟩

end Sys2Proof.Machine
end

