-- ==== Sys2Proof/Laws/Decode.lean ====
section
/-! SUPPORT. Lemmas of the decoder and the encoder: a word as a number, its fields, the rows that
select it, and the byte channel. -/

namespace Sys2Proof

/-- Concatenation as arithmetic. -/
theorem toNat_append_eq {m n : Nat} (x : BitVec m) (y : BitVec n) :
    (x ++ y).toNat = x.toNat * 2 ^ n + y.toNat := by
  rw [BitVec.toNat_append, Nat.shiftLeft_eq, Nat.mul_comm, ← Nat.two_pow_add_eq_or_of_lt y.isLt]

/-- The fields of a packed word, as a number (R71). -/
theorem packWord_toNat (opc : Byte) (d a b c : Fin 16) (imm : Byte) :
    (packWord opc d a b c imm).toNat =
      opc.toNat * 2 ^ 24 + d.val * 2 ^ 20 + a.val * 2 ^ 16 + b.val * 2 ^ 12 + c.val * 2 ^ 8 +
        imm.toNat := by
  simp only [packWord, toNat_append_eq, BitVec.toNat_ofFin]
  ring

theorem fieldOpc_toNat (w : CmdWord) : (fieldOpc w).toNat = w.toNat / 2 ^ 24 % 2 ^ 8 := by
  simp [fieldOpc, Nat.shiftRight_eq_div_pow]

theorem fieldD_val (w : CmdWord) : (fieldD w).val = w.toNat / 2 ^ 20 % 2 ^ 4 := by
  simp [fieldD, Nat.shiftRight_eq_div_pow]

theorem fieldA_val (w : CmdWord) : (fieldA w).val = w.toNat / 2 ^ 16 % 2 ^ 4 := by
  simp [fieldA, Nat.shiftRight_eq_div_pow]

theorem fieldB_val (w : CmdWord) : (fieldB w).val = w.toNat / 2 ^ 12 % 2 ^ 4 := by
  simp [fieldB, Nat.shiftRight_eq_div_pow]

theorem fieldC_val (w : CmdWord) : (fieldC w).val = w.toNat / 2 ^ 8 % 2 ^ 4 := by
  simp [fieldC, Nat.shiftRight_eq_div_pow]

theorem fieldImm_toNat (w : CmdWord) : (fieldImm w).toNat = w.toNat % 2 ^ 8 := by
  simp [fieldImm]

theorem fieldGen_toNat (w : CmdWord) : (fieldGen w).toNat = w.toNat / 2 ^ 8 % 2 ^ 8 := by
  simp [fieldGen, Nat.shiftRight_eq_div_pow]

section fields
variable (opc : Byte) (d a b c : Fin 16) (imm : Byte)

@[simp] theorem fieldOpc_packWord : fieldOpc (packWord opc d a b c imm) = opc := by
  apply BitVec.eq_of_toNat_eq
  rw [fieldOpc_toNat, packWord_toNat]
  omega

@[simp] theorem fieldD_packWord : fieldD (packWord opc d a b c imm) = d := by
  apply Fin.ext
  rw [fieldD_val, packWord_toNat]
  omega

@[simp] theorem fieldA_packWord : fieldA (packWord opc d a b c imm) = a := by
  apply Fin.ext
  rw [fieldA_val, packWord_toNat]
  omega

@[simp] theorem fieldB_packWord : fieldB (packWord opc d a b c imm) = b := by
  apply Fin.ext
  rw [fieldB_val, packWord_toNat]
  omega

@[simp] theorem fieldC_packWord : fieldC (packWord opc d a b c imm) = c := by
  apply Fin.ext
  rw [fieldC_val, packWord_toNat]
  omega

@[simp] theorem fieldImm_packWord : fieldImm (packWord opc d a b c imm) = imm := by
  apply BitVec.eq_of_toNat_eq
  rw [fieldImm_toNat, packWord_toNat]
  omega

end fields

/-- Every word is its fields, packed (R71). -/
theorem packWord_fields (w : CmdWord) :
    packWord (fieldOpc w) (fieldD w) (fieldA w) (fieldB w) (fieldC w) (fieldImm w) = w := by
  apply BitVec.eq_of_toNat_eq
  rw [packWord_toNat, fieldOpc_toNat, fieldD_val, fieldA_val, fieldB_val, fieldC_val,
    fieldImm_toNat]
  have := w.isLt
  omega

/-- Packed words are equal exactly when their fields are. -/
theorem packWord_inj {opc opc' imm imm' : Byte} {d d' a a' b b' c c' : Fin 16} :
    packWord opc d a b c imm = packWord opc' d' a' b' c' imm' ↔
      opc = opc' ∧ d = d' ∧ a = a' ∧ b = b' ∧ c = c' ∧ imm = imm' := by
  constructor
  · intro h
    have h' := congrArg BitVec.toNat h
    simp only [packWord_toNat] at h'
    rw [← BitVec.toNat_inj, Fin.ext_iff, Fin.ext_iff, Fin.ext_iff, Fin.ext_iff,
      ← BitVec.toNat_inj]
    omega
  · rintro ⟨rfl, rfl, rfl, rfl, rfl, rfl⟩
    rfl

/-- A field of four bits under a field of a mask. -/
def maskField (x m : Fin 16) : Fin 16 := (BitVec.ofFin (w := 4) x &&& BitVec.ofFin (w := 4) m).toFin

@[simp] theorem maskField_zero (x : Fin 16) : maskField x 0 = 0 := by
  decide +revert

@[simp] theorem maskField_all (x : Fin 16) : maskField x 15 = x := by
  decide +revert

/-- A packed word under a packed mask: field by field. -/
theorem packWord_and (opc mo imm mi : Byte) (d md a ma b mb c mc : Fin 16) :
    packWord opc d a b c imm &&& packWord mo md ma mb mc mi =
      packWord (opc &&& mo) (maskField d md) (maskField a ma) (maskField b mb) (maskField c mc)
        (imm &&& mi) := by
  simp only [packWord, maskField]
  erw [BitVec.and_append, BitVec.and_append, BitVec.and_append, BitVec.and_append,
    BitVec.and_append]

/-- The mask of a format, as the fields it compares (R72). -/
theorem mask_fields (f : Format) :
    f.mask = match f with
      | .N => packWord 0xFF#8 15 15 15 15 0xFF#8
      | .T => packWord 0xFF#8 15 15 0 0 0x00#8
      | .DI => packWord 0xFF#8 0 15 15 15 0x00#8
      | .DA => packWord 0xFF#8 0 0 15 15 0xFF#8
      | .DAB => packWord 0xFF#8 0 0 0 15 0xFF#8
      | .DAI => packWord 0xFF#8 0 0 15 15 0x00#8
      | .DABC => packWord 0xFF#8 0 0 0 0 0xFF#8
      | .DABCI => packWord 0xFF#8 0 0 0 0 0x00#8 := by
  cases f <;> decide

/-- Which of a word's fields, besides the opcode, a format requires to be 0 (R72). -/
def Format.mustBeZero (f : Format) (w : CmdWord) : Prop :=
  match f with
  | .N => fieldD w = 0 ∧ fieldA w = 0 ∧ fieldB w = 0 ∧ fieldC w = 0 ∧ fieldImm w = 0#8
  | .T => fieldD w = 0 ∧ fieldA w = 0
  | .DI => fieldA w = 0 ∧ fieldB w = 0 ∧ fieldC w = 0
  | .DA => fieldB w = 0 ∧ fieldC w = 0 ∧ fieldImm w = 0#8
  | .DAB => fieldC w = 0 ∧ fieldImm w = 0#8
  | .DAI => fieldB w = 0 ∧ fieldC w = 0
  | .DABC => fieldImm w = 0#8
  | .DABCI => True

/-- A row selects a word exactly when the opcode is the row's and the must-be-zero fields of its
format are 0 (R72, R75). -/
theorem selects_iff (r : Row) (w : CmdWord) :
    r.selects w = true ↔ fieldOpc w = r.opc ∧ r.format.mustBeZero w := by
  have hv : r.value = packWord r.opc 0 0 0 0 0#8 := by
    apply BitVec.eq_of_toNat_eq
    rw [packWord_toNat, Row.value, toNat_append_eq]
    simp
  have hff : ∀ x : Byte, x &&& 0xFF#8 = x := fun x => by
    rw [show (0xFF#8 : Byte) = BitVec.allOnes 8 from rfl, BitVec.and_allOnes]
  rw [Row.selects, beq_iff_eq, hv, mask_fields]
  conv_lhs => rw [← packWord_fields w]
  cases r.format <;>
    simp only [packWord_and, packWord_inj, hff, maskField_all, maskField_zero, BitVec.and_zero,
      and_true, true_and, Format.mustBeZero]

/-- TBLINIT's word, as a number (R71, R74). -/
theorem encode_tblinit_toNat (primlo gen : Byte) :
    (encode (.tblinit primlo gen)).toNat = 2 ^ 24 + gen.toNat * 2 ^ 8 + primlo.toNat := by
  simp only [encode, toNat_append_eq, BitVec.toNat_ofNat]
  omega

@[simp] theorem fieldGen_tblinit (primlo gen : Byte) :
    fieldGen (encode (.tblinit primlo gen)) = gen := by
  apply BitVec.eq_of_toNat_eq
  rw [fieldGen_toNat, encode_tblinit_toNat]
  omega

@[simp] theorem fieldImm_tblinit (primlo gen : Byte) :
    fieldImm (encode (.tblinit primlo gen)) = primlo := by
  apply BitVec.eq_of_toNat_eq
  rw [fieldImm_toNat, encode_tblinit_toNat]
  omega

/-- The opcodes of the map are distinct (R76). -/
theorem opcodeMap_opcs_distinct : opcodeMap.Pairwise fun r r' => r.opc ≠ r'.opc := by
  have h : (opcodeMap.map (·.opc)).Pairwise (· ≠ ·) := by decide
  exact List.pairwise_map.mp h

/-- At most one row selects a word: the row found is any row that selects it (R76). -/
theorem selectRow_of_selects {r : Row} {w : CmdWord} (hr : r ∈ opcodeMap)
    (hs : r.selects w = true) : selectRow w = some r := by
  have key : ∀ l : List Row, (l.Pairwise fun r r' => r.opc ≠ r'.opc) → r ∈ l →
      l.find? (·.selects w) = some r := by
    intro l
    induction l with
    | nil => intro _ h; cases h
    | cons x l ih =>
      intro hp hm
      rw [List.pairwise_cons] at hp
      rcases List.mem_cons.mp hm with rfl | hm
      · simp [hs]
      · have hx : x.selects w = false := by
          by_contra hx
          have hx' := ((selects_iff x w).mp (by simpa using hx)).1
          exact hp.1 r hm (hx'.symm.trans ((selects_iff r w).mp hs).1)
        simp [hx, ih hp.2 hm]
  exact key _ opcodeMap_opcs_distinct hr

/-- A word that some row selects decodes to the command of that row. -/
theorem decode_of_selects {r : Row} {w : CmdWord} (hr : r ∈ opcodeMap) (hs : r.selects w = true) :
    decode w = .ok (r.build w) := by
  simp [decode, selectRow_of_selects hr hs]

/-- What a successful decoding says: some row of the map selects the word and builds the command. -/
theorem decode_ok {w : CmdWord} {i : Instr} (h : decode w = .ok i) :
    ∃ r ∈ opcodeMap, r.selects w = true ∧ r.build w = i := by
  unfold decode at h
  split at h
  · rename_i r hr
    refine ⟨r, List.mem_of_find?_eq_some hr, by simpa using List.find?_some hr, ?_⟩
    simpa using h
  · split at h <;> cases h

/-- What a failed decoding says: no row of the map selects the word. -/
theorem decode_error {w : CmdWord} {e : DecodeError} (h : decode w = .error e) :
    ∀ r ∈ opcodeMap, r.selects w = false := by
  intro r hr
  by_contra hs
  rw [decode_of_selects hr (by simpa using hs)] at h
  cases h

/-- The four bytes of a word give it back (R51). -/
theorem wordOfBytes_wordToBytes (w : CmdWord) :
    wordOfBytes (w.extractLsb' 0 8) (w.extractLsb' 8 8) (w.extractLsb' 16 8)
      (w.extractLsb' 24 8) = w := by
  apply BitVec.eq_of_toNat_eq
  simp only [wordOfBytes, toNat_append_eq, BitVec.extractLsb'_toNat, Nat.shiftRight_eq_div_pow]
  have := w.isLt
  omega

end Sys2Proof
end

