-- ==== Sys2Proof/Laws/PerInstr.lean ====
section
/-! SUPPORT. The family RowSelects: some row of the opcode map (R75) selects the word the encoder gives
a command: its opcode is the row's, and every must-be-zero field of the row's format is 0 (R72). One
lemma per command. -/

namespace Sys2Proof.Laws.RowSelects

/-- Some row of the opcode map selects the encoding of the command. -/
def Statement (i : Instr) : Prop := ∃ r ∈ opcodeMap, r.selects (Sys2Proof.encode i) = true

theorem nop : Statement (.nop) := by
  refine ⟨opcodeMap[0]'(by decide), List.getElem_mem _, (selects_iff _ _).mpr ⟨?_, ?_⟩⟩
  · exact fieldOpc_packWord ..
  · simp [Sys2Proof.encode, opcodeMap, controlRows, fieldRows, dataRows, polyRows, encoderRows, decoderRows,
      Format.mustBeZero]

theorem tblinit (primlo gen : Byte) : Statement (.tblinit primlo gen) := by
  refine ⟨opcodeMap[1]'(by decide), List.getElem_mem _, (selects_iff _ _).mpr ⟨?_, ?_⟩⟩
  · apply BitVec.eq_of_toNat_eq
    rw [fieldOpc_toNat, encode_tblinit_toNat]
    simp [opcodeMap, controlRows]
    omega
  · constructor <;> apply Fin.ext
    · rw [fieldD_val, encode_tblinit_toNat]
      simp
      omega
    · rw [fieldA_val, encode_tblinit_toNat]
      simp
      omega

theorem sldi (d : SReg) (imm : Byte) : Statement (.sldi d imm) := by
  refine ⟨opcodeMap[2]'(by decide), List.getElem_mem _, (selects_iff _ _).mpr ⟨?_, ?_⟩⟩
  · exact fieldOpc_packWord ..
  · simp [Sys2Proof.encode, opcodeMap, controlRows, fieldRows, dataRows, polyRows, encoderRows, decoderRows,
      Format.mustBeZero]

theorem gadd (d a b : SReg) : Statement (.gadd d a b) := by
  refine ⟨opcodeMap[3]'(by decide), List.getElem_mem _, (selects_iff _ _).mpr ⟨?_, ?_⟩⟩
  · exact fieldOpc_packWord ..
  · simp [Sys2Proof.encode, opcodeMap, controlRows, fieldRows, dataRows, polyRows, encoderRows, decoderRows,
      Format.mustBeZero]

theorem gmul (d a b : SReg) : Statement (.gmul d a b) := by
  refine ⟨opcodeMap[4]'(by decide), List.getElem_mem _, (selects_iff _ _).mpr ⟨?_, ?_⟩⟩
  · exact fieldOpc_packWord ..
  · simp [Sys2Proof.encode, opcodeMap, controlRows, fieldRows, dataRows, polyRows, encoderRows, decoderRows,
      Format.mustBeZero]

theorem gdiv (d a b : SReg) : Statement (.gdiv d a b) := by
  refine ⟨opcodeMap[5]'(by decide), List.getElem_mem _, (selects_iff _ _).mpr ⟨?_, ?_⟩⟩
  · exact fieldOpc_packWord ..
  · simp [Sys2Proof.encode, opcodeMap, controlRows, fieldRows, dataRows, polyRows, encoderRows, decoderRows,
      Format.mustBeZero]

theorem gpow (d a b : SReg) : Statement (.gpow d a b) := by
  refine ⟨opcodeMap[6]'(by decide), List.getElem_mem _, (selects_iff _ _).mpr ⟨?_, ?_⟩⟩
  · exact fieldOpc_packWord ..
  · simp [Sys2Proof.encode, opcodeMap, controlRows, fieldRows, dataRows, polyRows, encoderRows, decoderRows,
      Format.mustBeZero]

theorem ginv (d a : SReg) : Statement (.ginv d a) := by
  refine ⟨opcodeMap[7]'(by decide), List.getElem_mem _, (selects_iff _ _).mpr ⟨?_, ?_⟩⟩
  · exact fieldOpc_packWord ..
  · simp [Sys2Proof.encode, opcodeMap, controlRows, fieldRows, dataRows, polyRows, encoderRows, decoderRows,
      Format.mustBeZero]

theorem glog (d a : SReg) : Statement (.glog d a) := by
  refine ⟨opcodeMap[8]'(by decide), List.getElem_mem _, (selects_iff _ _).mpr ⟨?_, ?_⟩⟩
  · exact fieldOpc_packWord ..
  · simp [Sys2Proof.encode, opcodeMap, controlRows, fieldRows, dataRows, polyRows, encoderRows, decoderRows,
      Format.mustBeZero]

theorem gexp (d a : SReg) : Statement (.gexp d a) := by
  refine ⟨opcodeMap[9]'(by decide), List.getElem_mem _, (selects_iff _ _).mpr ⟨?_, ?_⟩⟩
  · exact fieldOpc_packWord ..
  · simp [Sys2Proof.encode, opcodeMap, controlRows, fieldRows, dataRows, polyRows, encoderRows, decoderRows,
      Format.mustBeZero]

theorem vget (d : SReg) (a : VReg) (index : Byte) : Statement (.vget d a index) := by
  refine ⟨opcodeMap[10]'(by decide), List.getElem_mem _, (selects_iff _ _).mpr ⟨?_, ?_⟩⟩
  · exact fieldOpc_packWord ..
  · simp [Sys2Proof.encode, opcodeMap, controlRows, fieldRows, dataRows, polyRows, encoderRows, decoderRows,
      Format.mustBeZero]

theorem vset (d : VReg) (a : SReg) (index : Byte) : Statement (.vset d a index) := by
  refine ⟨opcodeMap[11]'(by decide), List.getElem_mem _, (selects_iff _ _).mpr ⟨?_, ?_⟩⟩
  · exact fieldOpc_packWord ..
  · simp [Sys2Proof.encode, opcodeMap, controlRows, fieldRows, dataRows, polyRows, encoderRows, decoderRows,
      Format.mustBeZero]

theorem vcat (d a b : VReg) : Statement (.vcat d a b) := by
  refine ⟨opcodeMap[12]'(by decide), List.getElem_mem _, (selects_iff _ _).mpr ⟨?_, ?_⟩⟩
  · exact fieldOpc_packWord ..
  · simp [Sys2Proof.encode, opcodeMap, controlRows, fieldRows, dataRows, polyRows, encoderRows, decoderRows,
      Format.mustBeZero]

theorem vzero (d : VReg) (len : Byte) : Statement (.vzero d len) := by
  refine ⟨opcodeMap[13]'(by decide), List.getElem_mem _, (selects_iff _ _).mpr ⟨?_, ?_⟩⟩
  · exact fieldOpc_packWord ..
  · simp [Sys2Proof.encode, opcodeMap, controlRows, fieldRows, dataRows, polyRows, encoderRows, decoderRows,
      Format.mustBeZero]

theorem padd (d a b : VReg) : Statement (.padd d a b) := by
  refine ⟨opcodeMap[14]'(by decide), List.getElem_mem _, (selects_iff _ _).mpr ⟨?_, ?_⟩⟩
  · exact fieldOpc_packWord ..
  · simp [Sys2Proof.encode, opcodeMap, controlRows, fieldRows, dataRows, polyRows, encoderRows, decoderRows,
      Format.mustBeZero]

theorem pmul (d a b : VReg) : Statement (.pmul d a b) := by
  refine ⟨opcodeMap[15]'(by decide), List.getElem_mem _, (selects_iff _ _).mpr ⟨?_, ?_⟩⟩
  · exact fieldOpc_packWord ..
  · simp [Sys2Proof.encode, opcodeMap, controlRows, fieldRows, dataRows, polyRows, encoderRows, decoderRows,
      Format.mustBeZero]

theorem pscale (d a : VReg) (b : SReg) : Statement (.pscale d a b) := by
  refine ⟨opcodeMap[16]'(by decide), List.getElem_mem _, (selects_iff _ _).mpr ⟨?_, ?_⟩⟩
  · exact fieldOpc_packWord ..
  · simp [Sys2Proof.encode, opcodeMap, controlRows, fieldRows, dataRows, polyRows, encoderRows, decoderRows,
      Format.mustBeZero]

theorem peval (d : SReg) (a : VReg) (b : SReg) : Statement (.peval d a b) := by
  refine ⟨opcodeMap[17]'(by decide), List.getElem_mem _, (selects_iff _ _).mpr ⟨?_, ?_⟩⟩
  · exact fieldOpc_packWord ..
  · simp [Sys2Proof.encode, opcodeMap, controlRows, fieldRows, dataRows, polyRows, encoderRows, decoderRows,
      Format.mustBeZero]

theorem pdiv (d c a b : VReg) : Statement (.pdiv d c a b) := by
  refine ⟨opcodeMap[18]'(by decide), List.getElem_mem _, (selects_iff _ _).mpr ⟨?_, ?_⟩⟩
  · exact fieldOpc_packWord ..
  · simp [Sys2Proof.encode, opcodeMap, controlRows, fieldRows, dataRows, polyRows, encoderRows, decoderRows,
      Format.mustBeZero]

theorem genpoly (d : VReg) (r : Byte) : Statement (.genpoly d r) := by
  refine ⟨opcodeMap[19]'(by decide), List.getElem_mem _, (selects_iff _ _).mpr ⟨?_, ?_⟩⟩
  · exact fieldOpc_packWord ..
  · simp [Sys2Proof.encode, opcodeMap, controlRows, fieldRows, dataRows, polyRows, encoderRows, decoderRows,
      Format.mustBeZero]

theorem encode (d a : VReg) (r : Byte) : Statement (.encode d a r) := by
  refine ⟨opcodeMap[20]'(by decide), List.getElem_mem _, (selects_iff _ _).mpr ⟨?_, ?_⟩⟩
  · exact fieldOpc_packWord ..
  · simp [Sys2Proof.encode, opcodeMap, controlRows, fieldRows, dataRows, polyRows, encoderRows, decoderRows,
      Format.mustBeZero]

theorem synd (d a : VReg) (r : Byte) : Statement (.synd d a r) := by
  refine ⟨opcodeMap[21]'(by decide), List.getElem_mem _, (selects_iff _ _).mpr ⟨?_, ?_⟩⟩
  · exact fieldOpc_packWord ..
  · simp [Sys2Proof.encode, opcodeMap, controlRows, fieldRows, dataRows, polyRows, encoderRows, decoderRows,
      Format.mustBeZero]

theorem eloc (d a : VReg) (n : Byte) : Statement (.eloc d a n) := by
  refine ⟨opcodeMap[22]'(by decide), List.getElem_mem _, (selects_iff _ _).mpr ⟨?_, ?_⟩⟩
  · exact fieldOpc_packWord ..
  · simp [Sys2Proof.encode, opcodeMap, controlRows, fieldRows, dataRows, polyRows, encoderRows, decoderRows,
      Format.mustBeZero]

theorem fsynd (d a b : VReg) : Statement (.fsynd d a b) := by
  refine ⟨opcodeMap[23]'(by decide), List.getElem_mem _, (selects_iff _ _).mpr ⟨?_, ?_⟩⟩
  · exact fieldOpc_packWord ..
  · simp [Sys2Proof.encode, opcodeMap, controlRows, fieldRows, dataRows, polyRows, encoderRows, decoderRows,
      Format.mustBeZero]

theorem bma (d a : VReg) : Statement (.bma d a) := by
  refine ⟨opcodeMap[24]'(by decide), List.getElem_mem _, (selects_iff _ _).mpr ⟨?_, ?_⟩⟩
  · exact fieldOpc_packWord ..
  · simp [Sys2Proof.encode, opcodeMap, controlRows, fieldRows, dataRows, polyRows, encoderRows, decoderRows,
      Format.mustBeZero]

theorem roots (d a : VReg) (n : Byte) : Statement (.roots d a n) := by
  refine ⟨opcodeMap[25]'(by decide), List.getElem_mem _, (selects_iff _ _).mpr ⟨?_, ?_⟩⟩
  · exact fieldOpc_packWord ..
  · simp [Sys2Proof.encode, opcodeMap, controlRows, fieldRows, dataRows, polyRows, encoderRows, decoderRows,
      Format.mustBeZero]

theorem eeval (d a b : VReg) : Statement (.eeval d a b) := by
  refine ⟨opcodeMap[26]'(by decide), List.getElem_mem _, (selects_iff _ _).mpr ⟨?_, ?_⟩⟩
  · exact fieldOpc_packWord ..
  · simp [Sys2Proof.encode, opcodeMap, controlRows, fieldRows, dataRows, polyRows, encoderRows, decoderRows,
      Format.mustBeZero]

theorem fcorr (d a b c : VReg) : Statement (.fcorr d a b c) := by
  refine ⟨opcodeMap[27]'(by decide), List.getElem_mem _, (selects_iff _ _).mpr ⟨?_, ?_⟩⟩
  · exact fieldOpc_packWord ..
  · simp [Sys2Proof.encode, opcodeMap, controlRows, fieldRows, dataRows, polyRows, encoderRows, decoderRows,
      Format.mustBeZero]

theorem correct (d c a b : VReg) (r : Byte) : Statement (.correct d c a b r) := by
  refine ⟨opcodeMap[28]'(by decide), List.getElem_mem _, (selects_iff _ _).mpr ⟨?_, ?_⟩⟩
  · exact fieldOpc_packWord ..
  · simp [opcodeMap, controlRows, fieldRows, dataRows, polyRows, encoderRows, decoderRows, Format.mustBeZero]

/-- Some row selects the encoding of every command. -/
theorem all (i : Instr) : Statement i := by
  cases i
  case nop => exact nop ..
  case tblinit => exact tblinit ..
  case sldi => exact sldi ..
  case gadd => exact gadd ..
  case gmul => exact gmul ..
  case gdiv => exact gdiv ..
  case gpow => exact gpow ..
  case ginv => exact ginv ..
  case glog => exact glog ..
  case gexp => exact gexp ..
  case vget => exact vget ..
  case vset => exact vset ..
  case vcat => exact vcat ..
  case vzero => exact vzero ..
  case padd => exact padd ..
  case pmul => exact pmul ..
  case pscale => exact pscale ..
  case peval => exact peval ..
  case pdiv => exact pdiv ..
  case genpoly => exact genpoly ..
  case encode => exact encode ..
  case synd => exact synd ..
  case eloc => exact eloc ..
  case fsynd => exact fsynd ..
  case bma => exact bma ..
  case roots => exact roots ..
  case eeval => exact eeval ..
  case fcorr => exact fcorr ..
  case correct => exact correct ..

end Sys2Proof.Laws.RowSelects
end

