-- ==== Sys2Proof/Machine/Run.lean ====
section
/-! DEFINITION. The end of a run, and what a claim about it may observe (20_memory.md R66). A run starts
at reset (R340) and is the whole list of its moves, so after its last move the host has issued its last
command and performed its last read. -/

namespace Sys2Proof.Machine

/-- What a claim may observe of a run that has ended: the values the host read, oldest first, and the
final state of the registers (R66). -/
structure RunEnd where
  reads : List HostReply
  sreg : Vector (Option Byte) 16
  vreg : Vector (Option ByteSeq) 16
  status : BitVec 32
  cfg : BitVec 32
  deriving DecidableEq, Repr

/-- How a run stands after its moves (R66). -/
inductive RunOutcome where
  /-- The host has issued its last command, has read STATUS with BUSY = 0 and has performed its last
  read. -/
  | ended (e : RunEnd)
  /-- The host has not read STATUS with BUSY = 0 since its last command. -/
  | running
  /-- FAULT was set in the run: it has no defined end state. -/
  | faulted (f : Fault)
  deriving DecidableEq, Repr

/-- The first fault of a run, be it that a later reset clears FAULT: the run stays without an end state
(R33, R66, R310; log 17). -/
def firstFault : List Move → State → Option Fault
  | [], s => s.fault
  | m :: ms, s => s.fault.orElse fun _ => firstFault ms (stateAfter m s)

/-- Whether a reply is STATUS with BUSY = 0 (R29). -/
def HostReply.showsIdle : HostReply → Bool
  | .word w => !w.getLsbD 0
  | .nothing | .value _ | .sequence _ => false

/-- Whether the host has read STATUS with BUSY = 0 since its last command, given whether it had before a
move (R66). -/
def idleSeenAfter (m : Move) (s : State) (seen : Bool) : Bool :=
  match m with
  | .host (.wrcmd _) => false
  | .host .rdstatus => seen || (replyOf m s).showsIdle
  | .host .rdcfg | .host (.wrs _ _) | .host (.rds _) | .host (.wrv _ _) | .host (.rdv _)
  | .core | .reset => seen

/-- The same over a run (R66). -/
def idleSeen : List Move → State → Bool → Bool
  | [], _, seen => seen
  | m :: ms, s, seen => idleSeen ms (stateAfter m s) (idleSeenAfter m s seen)

/-- The observations of a run: the replies that carry a value, and the registers of the final state. -/
def observe (replies : List HostReply) (s : State) : RunEnd where
  reads := replies.filter (· ≠ .nothing)
  sreg := s.sreg
  vreg := s.vreg
  status := s.statusWord
  cfg := s.cfgWord

/-- How a run of these moves from reset stands (R66, R340). -/
def runOutcome (ms : List Move) : RunOutcome :=
  match firstFault ms State.reset with
  | some f => .faulted f
  | none =>
    if idleSeen ms State.reset false then
      .ended (observe (runMoves ms State.reset).2 (runMoves ms State.reset).1)
    else .running

/-- What a claim about a run's end comes to: a run that has ended meets it or not, one still running says
nothing yet, and a faulted run "refutes any claim made about it" (R66). -/
def RunOutcome.meets (claim : RunEnd → Prop) : RunOutcome → Prop
  | .ended e => claim e
  | .running => True
  | .faulted _ => False

end Sys2Proof.Machine
end

