-- ==== Sys2Proof/Laws/Run.lean ====
section
/-! SUPPORT. What the end of a run says (R66): runs split into parts, when a run has ended, and that a
fault refutes every claim whatever follows it. -/

namespace Sys2Proof.Machine

/-! ### Runs in two parts -/

theorem runMoves_append (ms ns : List Move) (s : State) :
    runMoves (ms ++ ns) s =
      ((runMoves ns (runMoves ms s).1).1, (runMoves ms s).2 ++ (runMoves ns (runMoves ms s).1).2) := by
  induction ms generalizing s with
  | nil => rfl
  | cons m ms ih => simp [runMoves, ih]

theorem idleSeen_append (ms ns : List Move) (s : State) (b : Bool) :
    idleSeen (ms ++ ns) s b = idleSeen ns (runMoves ms s).1 (idleSeen ms s b) := by
  induction ms generalizing s b with
  | nil => rfl
  | cons m ms ih => simp [idleSeen, runMoves, ih]

theorem firstFault_append (ms ns : List Move) (s : State) :
    firstFault (ms ++ ns) s = (firstFault ms s).or (firstFault ns (runMoves ms s).1) := by
  induction ms generalizing s with
  | nil => cases ns <;> cases h : s.fault <;> simp [firstFault, runMoves, h]
  | cons m ms ih => cases h : s.fault <;> simp [firstFault, runMoves, ih, h]

/-! ### Faulted runs -/

/-- A fault set after some of a run's moves stays the run's fault, whatever moves follow, reset among
them. -/
theorem firstFault_sticky (ms ns : List Move) (s : State) {f : Fault}
    (h : (runMoves ms s).1.fault = some f) : (firstFault (ms ++ ns) s).isSome = true := by
  have hn : (firstFault ns (runMoves ms s).1).isSome = true := by
    cases ns <;> simp [firstFault, h]
  rw [firstFault_append, Option.isSome_or, hn, Bool.or_true]

/-- A run in which FAULT is set refutes every claim (R66). -/
theorem not_meets_of_fault (ms ns : List Move) {f : Fault}
    (h : (runMoves ms State.reset).1.fault = some f) (claim : RunEnd → Prop) :
    ¬ (runOutcome (ms ++ ns)).meets claim := by
  obtain ⟨g, hg⟩ := Option.isSome_iff_exists.1 (firstFault_sticky ms ns State.reset h)
  simp [runOutcome, hg, RunOutcome.meets]

/-! ### Ended runs -/

/-- Moves among which no command is issued keep what the host has seen. -/
theorem idleSeen_of_no_command {ms : List Move} (h : ∀ w, Move.host (.wrcmd w) ∉ ms) (s : State) :
    idleSeen ms s true = true := by
  induction ms generalizing s with
  | nil => rfl
  | cons m ms ih =>
    have hm : idleSeenAfter m s true = true := by
      rcases m with _ | op | _
      · rfl
      · cases op with
        | wrcmd w => exact absurd List.mem_cons_self (h w)
        | rdstatus => simp [idleSeenAfter]
        | rdcfg => rfl
        | wrs i v => rfl
        | rds i => rfl
        | wrv i q => rfl
        | rdv i => rfl
      · rfl
    rw [idleSeen, hm]
    exact ih (fun w hw => h w (List.mem_cons_of_mem m hw)) _

/-- A run without a fault whose last command comes before a read of STATUS that shows BUSY = 0 has ended,
and what it leaves to observe is the host's reads and the final registers (R66). -/
theorem runOutcome_ended (ms ns : List Move)
    (hf : firstFault (ms ++ .host .rdstatus :: ns) State.reset = none)
    (hi : (replyOf (.host .rdstatus) (runMoves ms State.reset).1).showsIdle = true)
    (hn : ∀ w, Move.host (.wrcmd w) ∉ ns) :
    runOutcome (ms ++ .host .rdstatus :: ns) =
      .ended (observe (runMoves (ms ++ .host .rdstatus :: ns) State.reset).2
        (runMoves (ms ++ .host .rdstatus :: ns) State.reset).1) := by
  have hs : idleSeen (ms ++ .host .rdstatus :: ns) State.reset false = true := by
    rw [idleSeen_append, idleSeen]
    simp only [idleSeenAfter, hi, Bool.or_true]
    exact idleSeen_of_no_command hn _
  simp only [runOutcome, hf, hs, if_true]

/-- A run that has just issued a command has not ended. -/
theorem runOutcome_after_command (ms : List Move) (w : CmdWord)
    (hf : firstFault (ms ++ [.host (.wrcmd w)]) State.reset = none) :
    runOutcome (ms ++ [.host (.wrcmd w)]) = .running := by
  simp [runOutcome, hf, idleSeen_append, idleSeen, idleSeenAfter]

end Sys2Proof.Machine
end

