-- ==== Sys2Proof/Tests/Slice0.lean ====
section
/-! SUPPORT. Tests, each with its expected result from the spec (95_test_vectors.md unless another file is
named), and for every statement with hypotheses a witness: concrete values that meet them. -/

namespace Sys2Proof.Tests

open Sys2Proof.Machine

-- One theorem at a time: a thread for each kernel evaluation would not fit in memory together.
set_option Elab.async false

/-! ### The default tables -/

/-- EXP for 0x1D, 2: the table of 95_test_vectors.md, L2.1. -/
@[irreducible] def expRows : ByteSeq :=
  [0x01, 0x02, 0x04, 0x08, 0x10, 0x20, 0x40, 0x80, 0x1D, 0x3A, 0x74, 0xE8, 0xCD, 0x87, 0x13, 0x26] ++
  [0x4C, 0x98, 0x2D, 0x5A, 0xB4, 0x75, 0xEA, 0xC9, 0x8F, 0x03, 0x06, 0x0C, 0x18, 0x30, 0x60, 0xC0] ++
  [0x9D, 0x27, 0x4E, 0x9C, 0x25, 0x4A, 0x94, 0x35, 0x6A, 0xD4, 0xB5, 0x77, 0xEE, 0xC1, 0x9F, 0x23] ++
  [0x46, 0x8C, 0x05, 0x0A, 0x14, 0x28, 0x50, 0xA0, 0x5D, 0xBA, 0x69, 0xD2, 0xB9, 0x6F, 0xDE, 0xA1] ++
  [0x5F, 0xBE, 0x61, 0xC2, 0x99, 0x2F, 0x5E, 0xBC, 0x65, 0xCA, 0x89, 0x0F, 0x1E, 0x3C, 0x78, 0xF0] ++
  [0xFD, 0xE7, 0xD3, 0xBB, 0x6B, 0xD6, 0xB1, 0x7F, 0xFE, 0xE1, 0xDF, 0xA3, 0x5B, 0xB6, 0x71, 0xE2] ++
  [0xD9, 0xAF, 0x43, 0x86, 0x11, 0x22, 0x44, 0x88, 0x0D, 0x1A, 0x34, 0x68, 0xD0, 0xBD, 0x67, 0xCE] ++
  [0x81, 0x1F, 0x3E, 0x7C, 0xF8, 0xED, 0xC7, 0x93, 0x3B, 0x76, 0xEC, 0xC5, 0x97, 0x33, 0x66, 0xCC] ++
  [0x85, 0x17, 0x2E, 0x5C, 0xB8, 0x6D, 0xDA, 0xA9, 0x4F, 0x9E, 0x21, 0x42, 0x84, 0x15, 0x2A, 0x54] ++
  [0xA8, 0x4D, 0x9A, 0x29, 0x52, 0xA4, 0x55, 0xAA, 0x49, 0x92, 0x39, 0x72, 0xE4, 0xD5, 0xB7, 0x73] ++
  [0xE6, 0xD1, 0xBF, 0x63, 0xC6, 0x91, 0x3F, 0x7E, 0xFC, 0xE5, 0xD7, 0xB3, 0x7B, 0xF6, 0xF1, 0xFF] ++
  [0xE3, 0xDB, 0xAB, 0x4B, 0x96, 0x31, 0x62, 0xC4, 0x95, 0x37, 0x6E, 0xDC, 0xA5, 0x57, 0xAE, 0x41] ++
  [0x82, 0x19, 0x32, 0x64, 0xC8, 0x8D, 0x07, 0x0E, 0x1C, 0x38, 0x70, 0xE0, 0xDD, 0xA7, 0x53, 0xA6] ++
  [0x51, 0xA2, 0x59, 0xB2, 0x79, 0xF2, 0xF9, 0xEF, 0xC3, 0x9B, 0x2B, 0x56, 0xAC, 0x45, 0x8A, 0x09] ++
  [0x12, 0x24, 0x48, 0x90, 0x3D, 0x7A, 0xF4, 0xF5, 0xF7, 0xF3, 0xFB, 0xEB, 0xCB, 0x8B, 0x0B, 0x16] ++
  [0x2C, 0x58, 0xB0, 0x7D, 0xFA, 0xE9, 0xCF, 0x83, 0x1B, 0x36, 0x6C, 0xD8, 0xAD, 0x47, 0x8E]

/-- LOG for 0x1D, 2, from LOG[1]: the table of L2.1. -/
@[irreducible] def logRows : ByteSeq :=
  [0x00, 0x01, 0x19, 0x02, 0x32, 0x1A, 0xC6, 0x03, 0xDF, 0x33, 0xEE, 0x1B, 0x68, 0xC7, 0x4B] ++
  [0x04, 0x64, 0xE0, 0x0E, 0x34, 0x8D, 0xEF, 0x81, 0x1C, 0xC1, 0x69, 0xF8, 0xC8, 0x08, 0x4C, 0x71] ++
  [0x05, 0x8A, 0x65, 0x2F, 0xE1, 0x24, 0x0F, 0x21, 0x35, 0x93, 0x8E, 0xDA, 0xF0, 0x12, 0x82, 0x45] ++
  [0x1D, 0xB5, 0xC2, 0x7D, 0x6A, 0x27, 0xF9, 0xB9, 0xC9, 0x9A, 0x09, 0x78, 0x4D, 0xE4, 0x72, 0xA6] ++
  [0x06, 0xBF, 0x8B, 0x62, 0x66, 0xDD, 0x30, 0xFD, 0xE2, 0x98, 0x25, 0xB3, 0x10, 0x91, 0x22, 0x88] ++
  [0x36, 0xD0, 0x94, 0xCE, 0x8F, 0x96, 0xDB, 0xBD, 0xF1, 0xD2, 0x13, 0x5C, 0x83, 0x38, 0x46, 0x40] ++
  [0x1E, 0x42, 0xB6, 0xA3, 0xC3, 0x48, 0x7E, 0x6E, 0x6B, 0x3A, 0x28, 0x54, 0xFA, 0x85, 0xBA, 0x3D] ++
  [0xCA, 0x5E, 0x9B, 0x9F, 0x0A, 0x15, 0x79, 0x2B, 0x4E, 0xD4, 0xE5, 0xAC, 0x73, 0xF3, 0xA7, 0x57] ++
  [0x07, 0x70, 0xC0, 0xF7, 0x8C, 0x80, 0x63, 0x0D, 0x67, 0x4A, 0xDE, 0xED, 0x31, 0xC5, 0xFE, 0x18] ++
  [0xE3, 0xA5, 0x99, 0x77, 0x26, 0xB8, 0xB4, 0x7C, 0x11, 0x44, 0x92, 0xD9, 0x23, 0x20, 0x89, 0x2E] ++
  [0x37, 0x3F, 0xD1, 0x5B, 0x95, 0xBC, 0xCF, 0xCD, 0x90, 0x87, 0x97, 0xB2, 0xDC, 0xFC, 0xBE, 0x61] ++
  [0xF2, 0x56, 0xD3, 0xAB, 0x14, 0x2A, 0x5D, 0x9E, 0x84, 0x3C, 0x39, 0x53, 0x47, 0x6D, 0x41, 0xA2] ++
  [0x1F, 0x2D, 0x43, 0xD8, 0xB7, 0x7B, 0xA4, 0x76, 0xC4, 0x17, 0x49, 0xEC, 0x7F, 0x0C, 0x6F, 0xF6] ++
  [0x6C, 0xA1, 0x3B, 0x52, 0x29, 0x9D, 0x55, 0xAA, 0xFB, 0x60, 0x86, 0xB1, 0xBB, 0xCC, 0x3E, 0x5A] ++
  [0xCB, 0x59, 0x5F, 0xB0, 0x9C, 0xA9, 0xA0, 0x51, 0x0B, 0xF5, 0x16, 0xEB, 0x7A, 0x75, 0x2C, 0xD7] ++
  [0x4F, 0xAE, 0xD5, 0xE9, 0xE6, 0xE7, 0xAD, 0xE8, 0x74, 0xD6, 0xF4, 0xEA, 0xA8, 0x50, 0x58, 0xAF]

/-- The tables of TBLINIT 0x1D, 2, written out. -/
def defaultTables : Tables := ⟨⟨expRows.toArray, by decide +kernel⟩, ⟨logRows.toArray, by decide +kernel⟩⟩

/-- R103's loop: the values e of L2.1, and back at 1. -/
theorem test_default_power_run : powerRun 2 0x1D 255 1#8 = (expRows, 1#8) := by decide +kernel

theorem test_default_tables_exp : powers 0x1D 2 = expRows :=
  congrArg Prod.fst test_default_power_run

/-- LOG[EXP[i]] = i on the rows, and EXP[LOG[x]] = x. -/
theorem test_rows_are_inverse :
    expRows.map (fun x => (logRows.getD (x.toNat - 1) 0).toNat) = List.range 255 ∧
    logRows.map (fun j => expRows[j.toNat]?) =
      (List.range 255).map (fun x => some (BitVec.ofNat 8 (x + 1))) := by
  decide +kernel

theorem expRows_nodup : expRows.Nodup :=
  List.Nodup.of_map _ (test_rows_are_inverse.1 ▸ List.nodup_range)

theorem length_rows : expRows.length = 255 ∧ logRows.length = 255 := by decide +kernel

theorem idxOf_expRows (x : Nat) (hx : x < logRows.length) :
    BitVec.ofNat 8 (expRows.idxOf (BitVec.ofNat 8 (x + 1))) = logRows[x] := by
  have h := congrArg (·[x]?) test_rows_are_inverse.2
  have hx' : x < 255 := length_rows.2 ▸ hx
  simp only [List.getElem?_map, List.getElem?_range hx', Option.map_some,
    List.getElem?_eq_getElem hx, Option.some.injEq] at h
  obtain ⟨hj, he⟩ := List.getElem?_eq_some_iff.1 h
  rw [← he, expRows_nodup.idxOf_getElem]
  simp

theorem test_default_tables : buildTables 0x1D 2 = defaultTables := by
  rw [buildTables, test_default_tables_exp, tablesOf, defaultTables, Tables.mk.injEq]
  refine ⟨Vector.ext fun i hi => ?_, Vector.ext fun i hi => ?_⟩
  · simp [length_rows.1]
  · simpa using idxOf_expRows i (length_rows.2 ▸ hi)

theorem zero_not_mem_expRows : 0#8 ∉ expRows := by decide +kernel

theorem test_default_full_period : fullPeriod 0x1D 2 = true := by
  simp only [fullPeriod, test_default_power_run]
  simp [distinct_iff, expRows_nodup, zero_not_mem_expRows]

theorem logOf_rows (x : Byte) :
    logOf defaultTables x = (logRows.getD (x.toNat - 1) 0).toNat := by
  have hx' : x.toNat - 1 < logRows.length := by have := x.isLt; rw [length_rows.2]; omega
  rw [List.getD_eq_getElem (hn := hx')]
  simp [logOf, defaultTables]

/-! ### Helpers -/

/-- Reset, then the default tables and some written registers. -/
def tabled (ss : List (SReg × Byte)) (vs : List (VReg × ByteSeq)) : State :=
  ss.foldl (fun s x => s.writeS x.1 x.2) <| vs.foldl (fun s x => s.writeV x.1 x.2)
    { State.reset with tables := defaultTables, tv := true, prim := 0x11D, gen := 2 }

/-- The state one step on a command word leads to, if it leads to one. -/
def run (w : CmdWord) (s : State) : Option State := nextState (step (s.loadWord w))

/-- S[r] and CODE after a command word. -/
def runS (w : CmdWord) (s : State) (r : SReg) : Option (Option Byte × StatusCode) :=
  (run w s).map fun t => (t.readS r, t.code)

/-- V[r] and CODE after a command word. -/
def runV (w : CmdWord) (s : State) (r : VReg) : Option (Option ByteSeq × StatusCode) :=
  (run w s).map fun t => (t.readV r, t.code)

/-- The fault an outcome ends in, if it ends in one. -/
def faultOf : Result → Option Fault
  | .next _ => none
  | .fault f => some f
  | .refused _ => none

/-- The codeword of [66,79,79] with r = 4 (L1.4). -/
def c7 : ByteSeq := [0x42, 0x4F, 0x4F, 0x7A, 0xA3, 0x02, 0x99]

/-- GEN4 (L2.3). -/
def gen4 : ByteSeq := [0x01, 0x0F, 0x36, 0x78, 0x40]

/-- The received word of case D (L2.7), and its syndromes. -/
def rD : ByteSeq := [0x42, 0x0B, 0x4F, 0x7A, 0x90, 0x02, 0xCC]
def sD : ByteSeq := [0x22, 0xF1, 0xC3, 0xE4]

/-! ### Decoding: words written out from the formats (R71 to R75) -/

theorem test_decode_control :
    decode (0x00#8 ++ 0#4 ++ 0#4 ++ 0#4 ++ 0#4 ++ 0#8) = .ok .nop ∧
    decode (0x01#8 ++ 0#8 ++ 0x02#8 ++ 0x1D#8) = .ok (.tblinit 0x1D 2) ∧
    decode (0x02#8 ++ 15#4 ++ 0#4 ++ 0#4 ++ 0#4 ++ 0x53#8) = .ok (.sldi 15 0x53) := by
  decide +kernel

theorem test_decode_field :
    decode (0x10#8 ++ 3#4 ++ 1#4 ++ 2#4 ++ 0#4 ++ 0#8) = .ok (.gadd 3 1 2) ∧
    decode (0x11#8 ++ 3#4 ++ 1#4 ++ 2#4 ++ 0#4 ++ 0#8) = .ok (.gmul 3 1 2) ∧
    decode (0x12#8 ++ 3#4 ++ 1#4 ++ 2#4 ++ 0#4 ++ 0#8) = .ok (.gdiv 3 1 2) ∧
    decode (0x13#8 ++ 3#4 ++ 1#4 ++ 2#4 ++ 0#4 ++ 0#8) = .ok (.gpow 3 1 2) ∧
    decode (0x14#8 ++ 4#4 ++ 1#4 ++ 0#4 ++ 0#4 ++ 0#8) = .ok (.ginv 4 1) ∧
    decode (0x15#8 ++ 8#4 ++ 2#4 ++ 0#4 ++ 0#4 ++ 0#8) = .ok (.glog 8 2) ∧
    decode (0x16#8 ++ 9#4 ++ 8#4 ++ 0#4 ++ 0#4 ++ 0#8) = .ok (.gexp 9 8) := by
  decide +kernel

theorem test_decode_data :
    decode (0x20#8 ++ 1#4 ++ 2#4 ++ 0#4 ++ 0#4 ++ 3#8) = .ok (.vget 1 2 3) ∧
    decode (0x21#8 ++ 1#4 ++ 2#4 ++ 0#4 ++ 0#4 ++ 3#8) = .ok (.vset 1 2 3) ∧
    decode (0x22#8 ++ 7#4 ++ 1#4 ++ 6#4 ++ 0#4 ++ 0#8) = .ok (.vcat 7 1 6) ∧
    decode (0x23#8 ++ 2#4 ++ 0#4 ++ 0#4 ++ 0#4 ++ 4#8) = .ok (.vzero 2 4) := by
  decide +kernel

theorem test_decode_poly :
    decode (0x30#8 ++ 9#4 ++ 8#4 ++ 5#4 ++ 0#4 ++ 0#8) = .ok (.padd 9 8 5) ∧
    decode (0x31#8 ++ 8#4 ++ 4#4 ++ 1#4 ++ 0#4 ++ 0#8) = .ok (.pmul 8 4 1) ∧
    decode (0x32#8 ++ 10#4 ++ 2#4 ++ 1#4 ++ 0#4 ++ 0#8) = .ok (.pscale 10 2 1) ∧
    decode (0x33#8 ++ 2#4 ++ 7#4 ++ 1#4 ++ 0#4 ++ 0#8) = .ok (.peval 2 7 1) ∧
    decode (0x34#8 ++ 4#4 ++ 3#4 ++ 1#4 ++ 5#4 ++ 0#8) = .ok (.pdiv 4 5 3 1) := by
  decide +kernel

theorem test_decode_encoder :
    decode (0x40#8 ++ 1#4 ++ 0#4 ++ 0#4 ++ 0#4 ++ 4#8) = .ok (.genpoly 1 4) ∧
    decode (0x41#8 ++ 1#4 ++ 2#4 ++ 0#4 ++ 0#4 ++ 4#8) = .ok (.encode 1 2 4) := by
  decide +kernel

theorem test_decode_decoder :
    decode (0x50#8 ++ 2#4 ++ 1#4 ++ 0#4 ++ 0#4 ++ 4#8) = .ok (.synd 2 1 4) ∧
    decode (0x51#8 ++ 3#4 ++ 1#4 ++ 0#4 ++ 0#4 ++ 7#8) = .ok (.eloc 3 1 7) ∧
    decode (0x52#8 ++ 4#4 ++ 2#4 ++ 3#4 ++ 0#4 ++ 0#8) = .ok (.fsynd 4 2 3) ∧
    decode (0x53#8 ++ 5#4 ++ 4#4 ++ 0#4 ++ 0#4 ++ 0#8) = .ok (.bma 5 4) ∧
    decode (0x54#8 ++ 6#4 ++ 5#4 ++ 0#4 ++ 0#4 ++ 7#8) = .ok (.roots 6 5 7) ∧
    decode (0x55#8 ++ 9#4 ++ 2#4 ++ 3#4 ++ 0#4 ++ 0#8) = .ok (.eeval 9 2 3) ∧
    decode (0x56#8 ++ 8#4 ++ 1#4 ++ 2#4 ++ 7#4 ++ 0#8) = .ok (.fcorr 8 1 2 7) ∧
    decode (0x57#8 ++ 2#4 ++ 1#4 ++ 4#4 ++ 3#4 ++ 4#8) = .ok (.correct 2 3 1 4 4) := by
  decide +kernel

/-- Must-be-zero bits and reserved opcodes (L2.8, L2.9). -/
theorem test_decode_rejects :
    decode 0x00000001 = .error (.nonzeroMustBeZero 0) ∧
    decode 0x11000001 = .error (.nonzeroMustBeZero 0x11) ∧
    decode 0x01010000 = .error (.nonzeroMustBeZero 0x01) ∧
    decode 0xFF000000 = .error (.reservedOpcode 0xFF) ∧
    decodeBytes [0x53, 0x00, 0x10] = .error .truncated := by
  decide +kernel

/-- Least significant byte first (R51). -/
theorem test_decode_bytes :
    decodeBytes [0x53, 0x00, 0x10, 0x02, 0x99] = .ok (.sldi 1 0x53, [0x99]) ∧
    decodeTableWord 32 0x02100053 = some (.sldi 1 0x53) := by
  decide +kernel

/-! ### Well-formedness: D = C is refused (R77) -/

theorem test_wf_refuses_pdiv : (Instr.pdiv 4 4 3 1).wf = false := by decide

theorem test_wf_refuses_correct : (Instr.correct 2 2 1 4 4).wf = false := by decide

theorem test_wf_admits :
    (Instr.pdiv 4 5 4 5).wf = true ∧ (Instr.correct 2 3 2 3 4).wf = true := by decide

/-! ### The assembler (L3's lines) -/

theorem test_assembler :
    assembleWord "TBLINIT 0x1D, 2".toList = some 0x0100021D ∧
    assembleWord "tblinit ; the default".toList = some 0x0100021D ∧
    assembleWord "PDIV v4, v5, v3, v1".toList = some 0x34431500 ∧
    assembleWord "CORRECT v2, v3, v1, v4, 4".toList = some 0x57214304 ∧
    assembleWord "SLDI s1, #0x53".toList = some 0x02100053 ∧
    assembleWord "GMUL s3, s1, v2".toList = none := by
  decide +kernel

/-! ### Commands: one step on the spec's words -/

theorem test_nop : runS 0x00000000 { State.reset with code := .divByZero } 0 = some (none, .ok) := by
  decide +kernel

theorem test_tblinit :
    (nextState (exec (.tblinit 0x1D 2) State.reset)).map (fun t => (t.statusWord, t.cfgWord)) =
      some (0x00000002#32, 0x0002011D#32) := by
  simp only [exec, execTblinit, test_default_full_period, if_true]
  decide +kernel

/-- A refused TBLINIT clears TV and leaves CFG (L2.9). -/
theorem test_tblinit_refused :
    (run 0x0100021B (tabled [] [])).map (fun t => (t.statusWord, t.cfgWord)) =
      some (0x00000010#32, 0x0002011D#32) := by
  decide +kernel

/-- Multiplication in the AES field (L2.1, R117). -/
theorem test_ring_mul : ringMul 0x53 0xCA 0x1B = 0x01#8 := by decide +kernel

theorem test_sldi : runS 0x02100053 State.reset 1 = some (some 0x53, .ok) := by decide +kernel

theorem test_gadd :
    runS 0x10712000 (State.reset.writeS 1 0x53 |>.writeS 2 0xCA) 7 = some (some 0x99, .ok) := by
  decide +kernel

theorem test_gmul : runS 0x11312000 (tabled [(1, 0x53), (2, 0xCA)] []) 3 = some (some 0x8F, .ok) := by
  decide +kernel

theorem test_gmul_unwritten :
    faultOf (step ((tabled [(1, 0x53)] []).loadWord 0x11319000)) = some .unwritten := by
  decide +kernel

/-- The source is read before the write (L2.2). -/
theorem test_gdiv : runS 0x12662000 (tabled [(6, 0x8F), (2, 0xCA)] []) 6 = some (some 0x53, .ok) := by
  decide +kernel

theorem test_gdiv_by_zero :
    runS 0x12B10000 (tabled [(0, 0x00), (1, 0x53)] []) 11 = some (none, .divByZero) := by
  decide +kernel

theorem test_gpow : runS 0x13A18000 (tabled [(1, 0x53), (8, 0x49)] []) 10 = some (some 0x1B, .ok) := by
  decide +kernel

theorem test_gpow_zero : runS 0x13A18000 (tabled [(1, 0x00), (8, 0x00)] []) 10 = some (some 0x01, .ok) := by
  decide +kernel

theorem test_ginv : runS 0x14410000 (tabled [(1, 0x53)] []) 4 = some (some 0x8C, .ok) := by
  decide +kernel

theorem test_glog : runS 0x15820000 (tabled [(2, 0xCA)] []) 8 = some (some 0x49, .ok) := by
  decide +kernel

theorem test_glog_zero : runS 0x15400000 (tabled [(0, 0x00)] []) 4 = some (none, .invalidInput) := by
  decide +kernel

theorem test_gexp : runS 0x16980000 (tabled [(8, 0x49)] []) 9 = some (some 0xCA, .ok) := by
  decide +kernel

theorem test_gexp_255 : runS 0x16980000 (tabled [(8, 0xFF)] []) 9 = some (none, .invalidInput) := by
  decide +kernel

theorem test_vget :
    runS 0x20120002 (State.reset.writeV 2 [0x42, 0x4F, 0x50]) 1 = some (some 0x50, .ok) := by
  decide +kernel

theorem test_vget_past_the_end :
    runS 0x20120003 (State.reset.writeV 2 [0x42, 0x4F, 0x4F]) 1 = some (none, .invalidInput) := by
  decide +kernel

theorem test_vset :
    runV 0x21100000 (State.reset.writeV 1 c7 |>.writeS 0 0) 1 =
      some (some [0x00, 0x4F, 0x4F, 0x7A, 0xA3, 0x02, 0x99], .ok) := by
  decide +kernel

theorem test_vcat :
    runV 0x22716000 (State.reset.writeV 1 [1, 6] |>.writeV 6 [4]) 7 = some (some [1, 6, 4], .ok) := by
  decide +kernel

/-- 300 + 300 > VLEN_MAX (L2.8). -/
theorem test_vcat_too_long :
    runV 0x22312000 (State.reset.writeV 1 (zeros 300) |>.writeV 2 (zeros 300)) 3 =
      some (none, .invalidInput) := by
  decide +kernel

theorem test_vzero : runV 0x23200004 State.reset 2 = some (some [0, 0, 0, 0], .ok) := by
  decide +kernel

theorem test_padd :
    runV 0x30985000 (State.reset.writeV 8 [1, 2, 3] |>.writeV 5 [4, 5]) 9 =
      some (some [1, 6, 6], .ok) := by
  decide +kernel

/-- The result is not normalized (L2.3). -/
theorem test_padd_leading_zero :
    runV 0x30985000 (State.reset.writeV 8 [1, 2, 3] |>.writeV 5 [1, 5, 6]) 9 =
      some (some [0, 7, 5], .ok) := by
  decide +kernel

theorem test_pmul :
    runV 0x31841000 (tabled [] [(4, [2, 1]), (1, [3, 0, 5])]) 8 = some (some [6, 3, 0x0A, 5], .ok) := by
  decide +kernel

theorem test_pscale :
    runV 0x32A11000 (tabled [(1, 0xCA)] [(1, [0x53, 0x8E])]) 10 = some (some [0x8F, 0x65], .ok) := by
  decide +kernel

theorem test_peval : runS 0x33271000 (tabled [(1, 0x10)] [(7, gen4)]) 2 = some (some 0xA4, .ok) := by
  decide +kernel

theorem test_pdiv :
    (run 0x34431500 (tabled [] [(3, [1, 2, 3, 4, 5]), (1, [2, 3, 1])])).map
        (fun t => (t.readV 4, t.readV 5)) =
      some (some [0x8E, 0xC8, 0x64], some [0x60, 0x61]) := by
  decide +kernel

/-- The divisor is normalized first (L2.3). -/
theorem test_pdiv_normalizes :
    (run 0x34431500 (tabled [] [(3, [1, 2, 3]), (1, [0, 0, 2, 3, 1])])).map
        (fun t => (t.readV 4, t.readV 5)) = some (some [0x8E], some [0x8D, 0x8D]) := by
  decide +kernel

theorem test_genpoly : runV 0x40100004 (tabled [] []) 1 = some (some gen4, .ok) := by decide +kernel

theorem test_encode : runV 0x41100004 (tabled [] [(0, [66, 79, 79])]) 1 = some (some c7, .ok) := by
  decide +kernel

theorem test_synd : runV 0x50200004 (tabled [] [(0, rD)]) 2 = some (some sD, .ok) := by decide +kernel

theorem test_eloc : runV 0x51310007 (tabled [] [(1, [1, 6])]) 3 = some (some [0x20, 0x21, 1], .ok) := by
  decide +kernel

theorem test_eloc_position_past_n :
    runV 0x51310007 (tabled [] [(1, [7])]) 3 = some (none, .invalidInput) := by
  decide +kernel

theorem test_fsynd :
    runV 0x52423000 (tabled [] [(2, sD), (3, [0x20, 0x21, 1])]) 4 = some (some [0x4D, 0x29], .ok) := by
  decide +kernel

theorem test_fsynd_too_many_erasures :
    runV 0x52423000 (tabled [] [(2, [1, 2, 3]), (3, [1, 1, 1, 1, 1])]) 4 =
      some (none, .uncorrectable) := by
  decide +kernel

/-- Case B (L2.6). -/
theorem test_bma :
    runV 0x53540000 (tabled [] [(4, [0xEF, 0xD9, 0xC8, 0xF1])]) 5 =
      some (some [0x40, 0x22, 1], .ok) := by
  decide +kernel

/-- deg(C) < L (L2.6). -/
theorem test_bma_degree_deficient :
    runV 0x53540000 (tabled [] [(4, [0x5B, 0xEF, 0xCB, 0x04])]) 5 = some (none, .uncorrectable) := by
  decide +kernel

theorem test_roots : runV 0x54650007 (tabled [] [(5, [0x40, 0x22, 1])]) 6 = some (some [1, 5], .ok) := by
  decide +kernel

/-- The root names degree index 254 ≥ n (L2.6). -/
theorem test_roots_outside_the_word :
    runV 0x54650007 (tabled [] [(5, [0x8E, 1])]) 6 = some (none, .uncorrectable) := by
  decide +kernel

theorem test_eeval :
    runV 0x55923000 (tabled [] [(2, sD), (3, [0x20, 0x21, 1])]) 9 =
      some (some [0x29, 0x4D, 0xE7, 0x22], .ok) := by
  decide +kernel

/-- Case D (L2.7). -/
theorem test_fcorr :
    runV 0x56802700 (tabled [] [(0, rD), (2, sD), (7, [1, 6, 4])]) 8 = some (some c7, .ok) := by
  decide +kernel

theorem test_fcorr_repeated_position :
    runV 0x56802700 (tabled [] [(0, [0x42, 0x5F, 0x4F, 0x7A, 0xA3, 0xFD, 0x99]),
        (2, [0xEF, 0xD9, 0xC8, 0xF1]), (7, [2, 2])]) 8 = some (none, .uncorrectable) := by
  decide +kernel

/-- Case D, whole (L2.7). -/
theorem test_correct :
    (run 0x57214304 (tabled [] [(1, rD), (4, [1, 6])])).map (fun t => (t.readV 2, t.readV 3)) =
      some (some [0x42, 0x4F, 0x4F], some [0x7A, 0xA3, 0x02, 0x99]) := by
  decide +kernel

theorem test_correct_one_buffer :
    runV 0x57214204 State.reset 2 = some (none, .illegalCommand) := by decide +kernel

/-! ### Precedence, faults and the host (L2.9, L2.10) -/

theorem test_illegal_before_tables :
    runV 0x34123100 State.reset 1 = some (none, .illegalCommand) := by decide +kernel

theorem test_tables_before_operands :
    faultOf (step (State.reset.loadWord 0x12123000)) = some .tablesInvalid := by decide +kernel

theorem test_host_busy :
    (stateAfter (.host (.wrcmd 1)) (State.reset.acceptWord 0)).fault = some .hostBusy ∧
    (stateAfter (.host (.wrcmd 1)) (State.reset.acceptWord 0)).pending = some 0 := by decide +kernel

/-- A first H_RDSTATUS returns 0, a first H_RDS(0) faults. -/
theorem test_first_host_reads :
    replyOf (.host .rdstatus) State.reset = .word 0 ∧
    (stateAfter (.host (.rds 0)) State.reset).fault = some .unwritten := by decide +kernel

/-- Reset is the way out of a faulted state (R310, R340). -/
theorem test_run_through_reset :
    (runMoves [.host (.rds 0), .core, .reset, .host (.wrs 0 7), .host (.rds 0)] State.reset).2 =
      [.nothing, .nothing, .nothing, .nothing, .value 7] := by decide +kernel

/-- The reads of a run that has ended. -/
def endReads : RunOutcome → Option (List HostReply)
  | .ended e => some e.reads
  | .running => none
  | .faulted _ => none

/-- Whether a run is faulted. -/
def isFaulted : RunOutcome → Bool
  | .ended _ => false
  | .running => false
  | .faulted _ => true

/-- A run has ended once STATUS was read with BUSY = 0 after its last command, and not before (R66). -/
theorem test_run_end :
    endReads (runOutcome [.host (.wrs 1 0x53), .host (.wrs 2 0xCA), .host (.wrcmd 0x10712000),
      .host .rdstatus, .core, .host .rdstatus, .host (.rds 7)]) =
      some [.word 1, .word 0, .value 0x99] ∧
    endReads (runOutcome [.host (.wrcmd 0), .host .rdstatus, .core]) = none := by decide +kernel

/-- A faulted run stays without an end state through a reset (R66). -/
theorem test_run_faulted :
    isFaulted (runOutcome [.host (.rds 0), .reset, .host .rdstatus]) = true := by decide +kernel

/-- Data the interface cannot present is refused, and nothing happens (R62). -/
theorem test_host_refuses :
    (stateAfter (.host (.wrs 0 256)) State.reset).readS 0 = none ∧
    replyOf (.host (.wrs 0 256)) State.reset = .nothing := by decide +kernel

theorem test_with_fetch_word :
    (nextState (step (State.reset.withFetchWord 32 0x02100053))).map (·.readS 1) =
      some (some 0x53) := by decide +kernel

/-! ### Witnesses: for every statement with hypotheses, values that meet them -/

/-- The states the witnesses below are about. -/
def sA : State := tabled [(0, 0), (1, 0x53), (2, 0xCA), (3, 0xFE), (4, 0xFF)]
  [(0, []), (1, c7), (2, sD), (3, [0x20, 0x21, 1]), (4, [1, 6]), (5, [0, 0]), (6, [5])]

theorem witness_StatusWordFields : State.reset.fault = none := by decide

theorem witness_CfgWordFields : sA.fault = none ∧ sA.pending = none := by decide +kernel

theorem witness_DecodedWordIsTheEncoding : decode 0x57214304 = .ok (.correct 2 3 1 4 4) := by
  decide +kernel

/-- A reserved opcode and a nonzero must-be-zero bit; a word and the row that selects it; the ends of
the reserved ranges; a word with opcode 0. -/
theorem witness_IllegalWordsSetTheCodeAlone :
    (∀ r ∈ opcodeMap, (0xFF000000#32) &&& r.format.mask ≠ r.opc ++ 0#24) ∧
    (∀ r ∈ opcodeMap, (0x11000001#32) &&& r.format.mask ≠ r.opc ++ 0#24) ∧
    (sA.acceptWord 0xFF000000).fault = none ∧
    (sA.acceptWord 0xFF000000).pending = some 0xFF000000 ∧
    (∃ r ∈ opcodeMap, r.selects 0x11312000 = true) ∧
    ((List.map (fun o : Byte => (decode (o ++ 0x10000#24)).isOk)
      [0x02, 0x03, 0x0F, 0x10, 0x16, 0x17, 0x1F, 0x20, 0x23, 0x24, 0x2F, 0x30, 0x34, 0x35, 0x3F, 0x40,
       0x41, 0x42, 0x4F, 0x50, 0x57, 0x58, 0xFF]) =
      [false, false, false, true, true, false, false, true, false, false, false, true, true, false,
       false, false, true, false, false, true, true, false, false]) ∧
    fieldOpc 0x00FFFFFF = 0#8 ∧ (0x00FFFFFF#32) ≠ 0#32 := by
  decide +kernel

/-- A pending command that runs, one that faults, a waiting core, a faulted model. -/
theorem witness_StepRunsTheDecodedCommand :
    (sA.acceptWord 0x11312000).fault = none ∧
    (sA.acceptWord 0x11312000).pending = some 0x11312000 ∧
    decode 0x11312000 = .ok (.gmul 3 1 2) ∧
    (nextState (exec (.gmul 3 1 2) (sA.acceptWord 0x11312000))).isSome = true ∧
    faultOf (exec (.gmul 3 1 2) (State.reset.acceptWord 0x11312000)) = some .tablesInvalid ∧
    State.reset.pending = none ∧
    (State.reset.recordFault .unwritten).fault = some .unwritten := by
  decide +kernel

theorem witness_TableUsingCommandsNeedTv :
    (Instr.gmul 3 1 2).wf = true ∧ (Instr.gmul 3 1 2).tableUsing = true ∧
    State.reset.tv = false ∧ (Instr.padd 3 1 2).tableUsing = false := by
  decide +kernel

theorem witness_UnwrittenSourceFaults :
    (Instr.fcorr 8 1 2 15).wf = true ∧ sA.tv = true ∧
    (Instr.fcorr 8 1 2 15).sourcesWritten sA = false := by
  decide +kernel

theorem witness_PastTheFaultChecksACommandCompletes :
    (Instr.gmul 3 1 2).wf = true ∧ sA.tv = true ∧ (Instr.gmul 3 1 2).sourcesWritten sA = true ∧
    (Instr.pdiv 4 4 3 1).wf = false ∧
    decode 0xFF000000 = .error (.reservedOpcode 0xFF) := by
  decide +kernel

/-- A raise of an ordinary command, and of TBLINIT. -/
theorem witness_RaisingCommandsWriteNothing :
    (nextState (exec (.gdiv 5 1 0) sA)).map (·.code) = some .divByZero ∧
    (nextState (exec (.tblinit 0x1D 0) sA)).map (·.code) = some .configError := by
  decide +kernel

theorem witness_CommandsChangeOnlyTheirDestinations :
    (nextState (exec (.gmul 3 1 2) sA)).isSome = true ∧ Operand.s 1 ∉ (Instr.gmul 3 1 2).dests ∧
    Operand.v 3 ∉ (Instr.gmul 3 1 2).dests ∧ ∀ primlo gen, Instr.gmul 3 1 2 ≠ .tblinit primlo gen := by
  refine ⟨by decide +kernel, by decide, by decide, fun _ _ => by simp⟩

/-- Each code but OK, from one of its commands. -/
theorem witness_EachCodeComesFromItsCommands :
    ([exec (.tblinit 0x1D 0) sA, exec (.gdiv 5 1 0) sA, exec (.ginv 5 0) sA, exec (.bma 7 6) sA,
      exec (.glog 5 0) sA, exec (.pdiv 4 4 3 1) sA].map fun o => (nextState o).map (·.code)) =
      [some .configError, some .divByZero, some .divByZero, some .uncorrectable, some .invalidInput,
       some .illegalCommand] := by
  decide +kernel

/-- A state with the default tables and written buffers meets the invariant, and a step is taken from
it. -/
theorem witness_StepKeepsTheInvariant :
    (sA.acceptWord 0x30434000).Inv ∧ (nextState (step (sA.acceptWord 0x30434000))).isSome = true := by
  have hb : ∀ i : VReg, ∀ q ∈ (sA.acceptWord 0x30434000).readV i, q.length ≤ 512 := by decide +kernel
  refine ⟨⟨fun _ => ⟨0x1D, rfl, test_default_full_period, test_default_tables.symm⟩,
    fun i q h => hb i q h⟩, by decide +kernel⟩

/-- The state TBLINIT leaves is reachable, and has TV = 1. -/
theorem witness_EveryMoveKeepsTheInvariant :
    State.reset.Inv ∧ State.Reachable (stateAfter (.host (.wrs 0 7)) State.reset) := by
  have hb : ∀ i : VReg, ∀ q ∈ State.reset.readV i, q.length ≤ 512 := by decide
  exact ⟨⟨fun h => absurd h (by decide), fun i q h => hb i q h⟩, [.host (.wrs 0 7)], rfl⟩

theorem witness_OnlyTblinitChangesTheTables :
    (sA.acceptWord 0x30434000).pending = some 0x30434000 ∧
    (∀ primlo gen, decode 0x30434000#32 ≠ .ok (.tblinit primlo gen)) ∧ Move.core ≠ .reset := by
  have h : decode 0x30434000#32 = .ok (.padd 4 3 4) := by decide +kernel
  exact ⟨by decide +kernel, fun _ _ => by simp [h], by simp⟩

/-- Also the witness of GfMulIsRingMultiplication. -/
theorem witness_FullPeriodTablesAreValid :
    fullPeriod 0x1D 2 = true ∧ (0x01#8) ≠ 0#8 ∧ (0xFF#8) ≠ 0#8 :=
  ⟨test_default_full_period, by decide⟩

/-- The default tables are valid; the ends of the index and element ranges. -/
theorem witness_FieldDivisionUndoesMultiplication :
    defaultTables.Valid ∧ (0x01#8) ≠ 0#8 ∧ (0xFF#8) ≠ 0#8 ∧ 0 < 255 ∧ 254 < 255 := by
  refine ⟨⟨fun i => ?_, fun x hx => ?_, by decide +kernel⟩, by decide⟩
  · have hi : i.val < expRows.length := by rw [length_rows.1]; exact i.isLt
    have he : defaultTables.exp[i] = expRows[i.val] := by simp [defaultTables]
    have h := congrArg (·[i.val]?) test_rows_are_inverse.1
    simp only [List.getElem?_map, List.getElem?_range i.isLt, List.getElem?_eq_getElem hi,
      Option.map_some, Option.some.injEq] at h
    exact ⟨he ▸ fun h0 => zero_not_mem_expRows (h0 ▸ List.getElem_mem hi),
      by rw [he, logOf_rows]; exact h⟩
  · have hx' : x.toNat - 1 < logRows.length := by have := x.isLt; rw [length_rows.2]; omega
    have h0 : x.toNat ≠ 0 := fun h => hx (BitVec.eq_of_toNat_eq h)
    have h := congrArg (·[x.toNat - 1]?) test_rows_are_inverse.2
    simp only [List.getElem?_map, List.getElem?_range (length_rows.2 ▸ hx'),
      List.getElem?_eq_getElem hx', Option.map_some, Option.some.injEq,
      Nat.sub_add_cancel (Nat.one_le_iff_ne_zero.2 h0), BitVec.ofNat_toNat, BitVec.setWidth_eq] at h
    obtain ⟨hj, he⟩ := List.getElem?_eq_some_iff.1 h
    have hl : logOf defaultTables x = (logRows[x.toNat - 1]).toNat := by
      rw [logOf_rows, List.getD_eq_getElem (hn := hx')]
    have hj' : (logRows[x.toNat - 1]).toNat < 255 := length_rows.1 ▸ hj
    refine ⟨by rw [hl]; omega, ?_⟩
    rw [hl]
    simpa [alpha, defaultTables, Nat.mod_eq_of_lt hj'] using he

/-- Both outcomes: the pair 0x1D, 2 has a full period, and 0x1D, 1 has not. -/
theorem witness_TblinitBuildsTheTables :
    ((powers 0x1D 2).Nodup ∧ 0#8 ∉ powers 0x1D 2 ∧
      ringMul ((powers 0x1D 2).getD 254 0) 2 0x1D = 1#8) ∧
    ¬ (powers 0x1D 0).Nodup := by
  rw [test_default_tables_exp]
  exact ⟨⟨expRows_nodup, zero_not_mem_expRows, by decide +kernel⟩, by decide +kernel⟩

/-- Scalars: written sources, a zero and a nonzero one, TV = 1 and TV = 0. The witness of GaddXors,
GmulMultiplies, GdivDivides, GpowRaisesToAPower and GinvInverts. -/
theorem witness_scalar_commands :
    sA.tv = true ∧ State.reset.tv = false ∧ sA.readS 0 = some 0#8 ∧ sA.readS 1 = some 0x53#8 ∧
    sA.readS 2 = some 0xCA#8 ∧ (0x53#8) ≠ 0#8 := by
  decide +kernel

/-- The last index GEXP takes, 254, and the one it does not, 255. -/
theorem witness_GlogAndGexpReadTheTables :
    sA.tv = true ∧ sA.readS 1 = some 0x53#8 ∧ sA.readS 0 = some 0#8 ∧ sA.readS 3 = some 0xFE#8 ∧
    (0xFE#8).toNat < 255 ∧ sA.readS 4 = some 255#8 := by
  decide +kernel

/-- The last element of a buffer of 7, the index after it, and unwritten operands. -/
theorem witness_VgetAndVsetMoveOneElement :
    sA.readV 1 = some c7 ∧ (6#8).toNat < c7.length ∧ c7.length ≤ (7#8).toNat ∧
    sA.readS 1 = some 0x53#8 ∧ sA.readV 15 = none ∧ sA.readS 15 = none := by
  decide +kernel

/-- Lengths that just fit VLEN_MAX, and just do not. -/
theorem witness_VcatAndVzeroMakeBuffers :
    (tabled [] [(0, zeros 256), (1, zeros 257)]).readV 0 = some (zeros 256) ∧
    (tabled [] [(0, zeros 256), (1, zeros 257)]).readV 1 = some (zeros 257) ∧
    (zeros 256).length + (zeros 256).length ≤ 512 ∧ 512 < (zeros 256).length + (zeros 257).length ∧
    (tabled [] [(0, zeros 256), (1, zeros 257)]).readV 15 = none := by
  decide +kernel

/-- Two polynomials, an empty one, and products of 512 and 513 elements. The witness of
PaddAddsAlignedAtMatchingDegree, PmulConvolves, PscaleScalesEveryCoefficient and
PevalIsHornersMethod. -/
theorem witness_polynomial_commands :
    sA.tv = true ∧ State.reset.tv = false ∧ sA.readV 1 = some c7 ∧ sA.readV 2 = some sD ∧ c7 ≠ [] ∧
    sD ≠ [] ∧ c7.length + sD.length - 1 ≤ 512 ∧ sA.readV 0 = some [] ∧ sA.readS 1 = some 0x53#8 ∧
    (tabled [] [(0, zeros 256), (1, zeros 257)]).readV 0 = some (zeros 256) ∧
    (tabled [] [(0, zeros 256), (1, zeros 257)]).readV 1 = some (zeros 257) ∧
    (zeros 256).length + (zeros 257).length - 1 ≤ 512 ∧
    512 < (zeros 257).length + (zeros 257).length - 1 := by
  decide +kernel

/-- A division, one with a short dividend, and a zero divisor. -/
theorem witness_PdivWritesQuotientAndRemainder :
    (4 : VReg) ≠ 5 ∧ sA.tv = true ∧ sA.readV 1 = some c7 ∧ sA.readV 2 = some sD ∧
    c7 ≠ [] ∧ isZero sD = false ∧ sA.readV 6 = some [5] ∧ ([5] : ByteSeq).length < (norm sD).length ∧
    sA.readV 5 = some [0, 0] ∧ isZero [0, 0] = true := by
  decide +kernel

theorem witness_QuotientTimesDivisorPlusRemainder :
    defaultTables.Valid ∧
    polyDivmod defaultTables [1, 2, 3, 4, 5] [2, 3, 1] = .ok ([0x8E, 0xC8, 0x64], [0x60, 0x61]) :=
  ⟨witness_FieldDivisionUndoesMultiplication.1, by decide +kernel⟩

theorem witness_GenpolyMultipliesTheFactors :
    sA.tv = true ∧ State.reset.tv = false ∧ (1#8) ≠ 0#8 ∧ (255#8) ≠ 0#8 ∧ defaultTables.Valid :=
  ⟨by decide +kernel, by decide, by decide, by decide, witness_FieldDivisionUndoesMultiplication.1⟩

/-- Codewords of 255 and 256 elements. -/
theorem witness_EncodeAppendsTheRemainder :
    sA.tv = true ∧ sA.tables.Valid ∧ sA.readV 1 = some c7 ∧ c7 ≠ [] ∧ (248#8) ≠ 0#8 ∧
    c7.length + (248#8).toNat ≤ 255 ∧ 255 < c7.length + (249#8).toNat ∧ sA.readV 0 = some [] :=
  ⟨by decide +kernel, witness_FieldDivisionUndoesMultiplication.1, by decide +kernel⟩

theorem witness_CodewordsHaveZeroSyndromes :
    fullPeriod 0x1D 2 = true ∧ rsEncode (buildTables 0x1D 2) [66, 79, 79] 4 = .ok c7 := by
  rw [test_default_tables]
  exact ⟨test_default_full_period, by decide +kernel⟩

/-- A word, an empty one, and words of 255 and 256 elements. -/
theorem witness_SyndEvaluatesAtTheRoots :
    sA.tv = true ∧ State.reset.tv = false ∧ sA.readV 1 = some c7 ∧ c7 ≠ [] ∧ c7.length ≤ 255 ∧
    (255#8) ≠ 0#8 ∧ sA.readV 0 = some [] ∧ (zeros 255).length ≤ 255 ∧ 255 < (zeros 256).length ∧
    (tabled [] [(0, zeros 256)]).readV 0 = some (zeros 256) := by
  decide +kernel

/-- The last position below n and n itself; 511 positions and 512 (L2.5). -/
theorem witness_ElocMultipliesTheLocators :
    sA.tv = true ∧ sA.readV 4 = some [1, 6] ∧ (7#8) ≠ 0#8 ∧
    (∀ p ∈ ([1, 6] : ByteSeq), p.toNat < (7#8).toNat) ∧
    (∃ p ∈ ([1, 6] : ByteSeq), (6#8).toNat ≤ p.toNat) ∧
    (zeros 511).length + 1 ≤ 512 ∧ 512 < (zeros 512).length + 1 ∧
    (tabled [] [(0, zeros 512)]).readV 0 = some (zeros 512) := by
  decide +kernel

/-- s ≤ r, s > r, and an empty operand. -/
theorem witness_FsyndComputesTheForneySyndromes :
    sA.tv = true ∧ sA.readV 2 = some sD ∧ sA.readV 3 = some [0x20, 0x21, 1] ∧ sD ≠ [] ∧
    ([0x20, 0x21, 1] : ByteSeq).length - 1 ≤ sD.length ∧ sA.readV 6 = some [5] ∧
    ([5] : ByteSeq).length < ([0x20, 0x21, 1] : ByteSeq).length - 1 ∧ sA.readV 0 = some [] := by
  decide +kernel

/-- A locator, a raise, and a zero operand. Also the witness of BerlekampMasseyResultShape. -/
theorem witness_BmaWritesTheLocator :
    sA.tv = true ∧ sA.readV 4 = some [1, 6] ∧ sA.readV 6 = some [5] ∧
    berlekampMassey sA.tables [0x4D, 0x29] = .ok [4, 1] ∧
    (tabled [] [(4, [0x4D, 0x29])]).readV 4 = some [0x4D, 0x29] ∧
    berlekampMassey sA.tables [5] = .error .uncorrectable ∧
    sA.readV 0 = some [] ∧ isZero [] = true ∧ sA.readV 5 = some [0, 0] ∧ isZero [0, 0] = true := by
  decide +kernel

/-- As many roots as the degree, fewer, and a zero locator. Also the witness of
FoundRootsAreAscendingPositions. -/
theorem witness_RootsListsTheRootPositions :
    sA.tv = true ∧ sA.readV 3 = some [0x20, 0x21, 1] ∧ (7#8) ≠ 0#8 ∧
    isZero [0x20, 0x21, 1] = false ∧
    (rootPositions sA.tables [0x20, 0x21, 1] 7).length = (norm [0x20, 0x21, 1]).length - 1 ∧
    (rootPositions sA.tables [0x20, 0x21, 1] 1).length ≠ (norm [0x20, 0x21, 1]).length - 1 ∧
    sA.readV 5 = some [0, 0] ∧ isZero [0, 0] = true ∧
    findRoots sA.tables [0x40, 0x22, 1] 7 = .ok [1, 5] := by
  decide +kernel

theorem witness_EevalComputesOmega :
    sA.tv = true ∧ State.reset.tv = false ∧ sA.readV 2 = some sD ∧
    sA.readV 3 = some [0x20, 0x21, 1] ∧ sD ≠ [] ∧ ([0x20, 0x21, 1] : ByteSeq) ≠ [] ∧
    sA.readV 0 = some [] := by
  decide +kernel

/-- The word, syndromes and positions of case D; a repeated position, whose denominator is 0; more
positions than syndromes; a position at the word's length. -/
def sF : State := tabled [] [(0, rD), (2, sD), (7, [1, 6, 4]), (8, [2, 2]), (9, [5]), (10, [7]),
  (11, [1, 6])]

/-- R231's sum at X_p^(-1), for the positions of a word of 7 symbols. -/
def denAt (ps : ByteSeq) (p : Byte) : Byte :=
  xorSum ((List.range (errataLocator defaultTables ps 7).length).map fun k =>
    if k % 2 = 1 then gfMul defaultTables (polyCoef (errataLocator defaultTables ps 7) k)
      (gfPow defaultTables (alpha defaultTables ((255 - (7 - 1 - p.toNat)) % 255)) (k - 1))
    else 0#8)

/-- Whether Ω has R230's coefficients for case D's syndromes and the locator of some positions. -/
def isOmega (ps om : ByteSeq) : Bool :=
  om.length == sD.length && (List.range sD.length).all fun k =>
    polyCoef om k == xorSum ((List.range (k + 1)).map fun i =>
      if k - i < (errataLocator defaultTables ps 7).length
      then gfMul defaultTables (sD.getD i 0#8) (polyCoef (errataLocator defaultTables ps 7) (k - i))
      else 0#8)

/-- Ω and the denominators of case D are L2.7's. -/
theorem witness_FcorrAddsTheMagnitudes :
    sF.tv = true ∧ sF.readV 0 = some rD ∧ sF.readV 2 = some sD ∧ sF.readV 7 = some [1, 6, 4] ∧
    rD ≠ [] ∧ rD.length ≤ 255 ∧ sD ≠ [] ∧ (∀ p ∈ ([1, 6, 4] : ByteSeq), p.toNat < rD.length) ∧
    errataLocator sF.tables [1, 6, 4] rD.length = [0x80, 0xA4, 0x25, 1] ∧
    isOmega [1, 6, 4] [0x00, 0xF6, 0x6F, 0x22] = true ∧
    ([1, 6, 4] : ByteSeq).length ≤ sD.length ∧ (∀ p ∈ ([1, 6, 4] : ByteSeq), denAt [1, 6, 4] p ≠ 0#8) ∧
    sF.readV 8 = some [2, 2] ∧ (∃ p ∈ ([2, 2] : ByteSeq), denAt [2, 2] p = 0#8) ∧
    (∃ om ∈ [errorEvaluator defaultTables sD (errataLocator defaultTables [2, 2] 7)],
      isOmega [2, 2] om = true) ∧
    sF.readV 9 = some [5] ∧ ([5] : ByteSeq).length < ([2, 2] : ByteSeq).length ∧
    sF.readV 10 = some [7] ∧ ∃ p ∈ ([7] : ByteSeq), rD.length ≤ p.toNat := by
  decide +kernel

/-- Case D with its stages (L2.7). -/
theorem witness_CorrectRunsTheStages :
    (2 : VReg) ≠ 3 ∧ sF.tv = true ∧ sF.readV 0 = some rD ∧ sF.readV 11 = some [1, 6] ∧ (4#8) ≠ 0#8 ∧
    (4#8).toNat < rD.length ∧ rD.length ≤ 255 ∧ ([1, 6] : ByteSeq).Nodup ∧
    (∀ p ∈ ([1, 6] : ByteSeq), p.toNat < rD.length) ∧ ([1, 6] : ByteSeq).length ≤ (4#8).toNat ∧
    isZero (syndromes sF.tables rD 4) = false ∧
    forneySyndromes sF.tables (syndromes sF.tables rD 4) (errataLocator sF.tables [1, 6] 7) =
      .ok [0x4D, 0x29] ∧
    berlekampMassey sF.tables [0x4D, 0x29] = .ok [4, 1] ∧ findRoots sF.tables [4, 1] 7 = .ok [4] ∧
    forneyCorrect sF.tables rD (syndromes sF.tables rD 4) [1, 6, 4] = .ok c7 ∧
    isZero (syndromes sF.tables c7 4) = true := by
  decide +kernel

/-- The other cases: bad operands, more erasures than r, a codeword, and a word of two symbols with
r = 1 on which Berlekamp-Massey raises (the locator is over budget, R202's [5]). -/
theorem witness_correct_other_cases :
    (1#8).toNat < ([1, 6] : ByteSeq).length ∧ ¬ ([1, 1] : ByteSeq).Nodup ∧ rD.length ≤ (7#8).toNat ∧
    (∃ p ∈ ([7] : ByteSeq), rD.length ≤ p.toNat) ∧ 255 < (zeros 256).length ∧
    (∀ j < 4, polyEval sA.tables c7 (alpha sA.tables j) = 0#8) ∧
    (tabled [] [(1, [4, 1]), (4, [])]).readV 1 = some [4, 1] ∧
    (tabled [] [(1, [4, 1]), (4, [])]).readV 4 = some [] ∧
    isZero (syndromes defaultTables [4, 1] 1) = false ∧
    forneySyndromes defaultTables (syndromes defaultTables [4, 1] 1)
      (errataLocator defaultTables [] 2) = .ok [5] ∧
    berlekampMassey defaultTables [5] = .error .uncorrectable := by
  decide +kernel

theorem witness_CorrectReturnsOnlyCodewords :
    (tabled [] [(1, rD), (4, [1, 6])]).readV 1 = some rD ∧
    (nextState (exec (.correct 2 3 1 4 4) (tabled [] [(1, rD), (4, [1, 6])]))).map (·.code) =
      some .ok := by
  decide +kernel

/-- The largest values the interface presents, and the smallest it does not. -/
theorem witness_HostOperationsDoWhatTheirRowsSay :
    sA.fault = none ∧ sA.pending = none ∧ sA.readS 1 = some 0x53#8 ∧ sA.readV 1 = some c7 ∧
    (zeros 512).length ≤ 512 ∧ 256 ≤ 256 ∧ 512 < (List.replicate 513 0).length ∧
    ∃ v ∈ [256], 256 ≤ v := by
  decide +kernel

theorem witness_HostProtocolViolationsFault :
    sA.fault = none ∧ (sA.acceptWord 0).pending ≠ none ∧ HostOp.rdcfg ≠ .rdstatus ∧
    HostOp.rdcfg.presentable = true ∧ sA.pending = none ∧ sA.readS 15 = none ∧
    sA.readV 15 = none := by
  decide +kernel

theorem witness_FaultsChangeNothingAndFreezeTheModel :
    State.reset.fault = none ∧ move (.host (.rds 0)) State.reset = .fault .unwritten ∧
    (State.reset.recordFault .unwritten).fault = some .unwritten ∧ Move.core ≠ .reset :=
  ⟨rfl, rfl, rfl, by decide⟩

theorem witness_OneCoreStepResolvesThePendingCommand :
    (State.reset.acceptWord 0x02100053).fault = none ∧
    (State.reset.acceptWord 0x02100053).pending = some 0x02100053 := by
  decide

theorem witness_CodeKeepsItsValue : State.reset.pending = none := rfl

end Sys2Proof.Tests
end

section
/-! What the functions of the commands return, and how long (R24). -/

namespace Sys2Proof.Machine

/-! ### Data movement and the polynomial engine -/

theorem vsetOut_ok {q p : ByteSeq} {index : Nat} {v : Byte} (h : vsetOut q index v = .ok p) :
    index < q.length ∧ p = q.set index v := by
  unfold vsetOut at h
  split at h
  · cases h
  next hi =>
    cases h
    exact ⟨by omega, rfl⟩

theorem vcatOut_ok {p q r : ByteSeq} (h : vcatOut p q = .ok r) :
    r = p ++ q ∧ r.length ≤ Config.vlenMax := by
  unfold vcatOut at h
  split at h
  · cases h
  next hl =>
    cases h
    exact ⟨rfl, by omega⟩

theorem paddOut_ok {p q r : ByteSeq} (h : paddOut p q = .ok r) : r = polyAdd p q := by
  unfold paddOut at h
  split at h <;> cases h
  rfl

theorem pmulOut_ok {t : Tables} {p q r : ByteSeq} (h : pmulOut t p q = .ok r) :
    r = polyMul t p q ∧ r.length ≤ Config.vlenMax := by
  unfold pmulOut at h
  split at h
  · cases h
  split at h
  · cases h
  next hl =>
    cases h
    exact ⟨rfl, by omega⟩

theorem pscaleOut_ok {t : Tables} {p r : ByteSeq} {x : Byte} (h : pscaleOut t p x = .ok r) :
    r = polyScale t p x := by
  unfold pscaleOut at h
  split at h <;> cases h
  rfl

/-- Quotient and remainder have R144's lengths, in terms of the normalized divisor's. -/
theorem length_polyDivmod {t : Tables} {p v quo rm : ByteSeq}
    (h : polyDivmod t p v = .ok (quo, rm)) :
    norm v ≠ [] ∧ quo.length = max 1 (p.length + 1 - (norm v).length) ∧
      rm.length = (norm v).length - 1 := by
  simp only [polyDivmod] at h
  split at h
  · cases h
  split at h
  · cases h
  split at h
  · cases h
  next v0 vs hv =>
    rw [hv, List.length_cons]
    refine ⟨List.cons_ne_nil v0 vs, ?_⟩
    split at h
    next hshort =>
      cases h
      simp only [length_padTo, List.length_singleton]
      omega
    next hlong =>
      obtain ⟨hq, hr⟩ := length_divLoop (by omega) h
      omega

/-! ### The encoder -/

theorem genpolyOut_ok {t : Tables} {r : Nat} {g : ByteSeq} (h : genpolyOut t r = .ok g) :
    g = generatorPoly t r := by
  unfold genpolyOut at h
  split at h <;> cases h
  rfl

theorem length_rsEncode_le {t : Tables} {m c : ByteSeq} {r : Nat} (h : rsEncode t m r = .ok c) :
    c.length ≤ Config.nMax := by
  unfold rsEncode at h
  split at h
  · cases h
  next hn =>
    split at h
    next quo rm hdiv =>
      cases h
      obtain ⟨-, -, hr⟩ := length_polyDivmod hdiv
      have hg := length_norm_le (generatorPoly t r)
      rw [length_generatorPoly] at hg
      rw [List.length_append]
      omega
    · cases h

/-! ### The decoder's stages -/

theorem syndOut_ok {t : Tables} {w sy : ByteSeq} {r : Nat} (h : syndOut t w r = .ok sy) :
    sy = syndromes t w r := by
  unfold syndOut at h
  split at h <;> cases h
  rfl

theorem elocOut_ok {t : Tables} {ps g : ByteSeq} {n : Nat} (h : elocOut t ps n = .ok g) :
    g = errataLocator t ps n ∧ g.length ≤ Config.vlenMax := by
  unfold elocOut at h
  split at h
  · cases h
  split at h
  · cases h
  next hl =>
    cases h
    exact ⟨rfl, by rw [length_errataLocator]; omega⟩

theorem length_fsyndOut_le {t : Tables} {sy g ts : ByteSeq} (h : fsyndOut t sy g = .ok ts) :
    ts.length ≤ sy.length := by
  unfold fsyndOut forneySyndromes at h
  split at h
  · cases h
  dsimp only at h
  split at h <;> cases h
  simp

/-- The locator's L + 1 elements: R201's first test bounds L by half the syndromes. -/
theorem length_berlekampMassey_le {t : Tables} {ts lam : ByteSeq}
    (h : berlekampMassey t ts = .ok lam) : 2 * lam.length ≤ ts.length + 2 := by
  unfold berlekampMassey at h
  split at h
  · cases h
  split at h
  · cases h
  next z _ hn =>
    cases h
    rw [List.length_map, List.length_range]
    omega

theorem length_findRoots_le {t : Tables} {lam ps : ByteSeq} {n : Nat}
    (h : findRoots t lam n = .ok ps) : ps.length ≤ n := by
  unfold findRoots at h
  split at h <;> cases h
  rw [List.length_map]
  exact (List.length_filter_le _ _).trans_eq List.length_range

theorem length_rootsOut_le {t : Tables} {lam ps : ByteSeq} {n : Nat}
    (h : rootsOut t lam n = .ok ps) : ps.length ≤ n := by
  unfold rootsOut at h
  split at h
  · cases h
  · exact length_findRoots_le h

theorem eevalOut_ok {t : Tables} {sy psi om : ByteSeq} (h : eevalOut t sy psi = .ok om) :
    om = errorEvaluator t sy psi := by
  unfold eevalOut at h
  split at h <;> cases h
  rfl

theorem length_forneyCorrect {t : Tables} {w sy ps fixed : ByteSeq}
    (h : forneyCorrect t w sy ps = .ok fixed) : fixed.length = w.length := by
  unfold forneyCorrect at h
  dsimp only at h
  split at h
  · cases h
  split at h <;> cases h
  exact length_applyMagnitudes ..

theorem length_fcorrOut {t : Tables} {w sy ps fixed : ByteSeq}
    (h : fcorrOut t w sy ps = .ok fixed) : fixed.length = w.length := by
  unfold fcorrOut at h
  split at h
  · cases h
  · exact length_forneyCorrect h

/-! ### The whole pipeline -/

theorem length_correctStages {t : Tables} {w sy er fixed : ByteSeq}
    (h : correctStages t w sy er = .ok fixed) : fixed.length = w.length := by
  unfold correctStages at h
  split at h
  · cases h
  split at h
  · cases h
  split at h
  · cases h
  · exact length_forneyCorrect h

/-- CORRECT's function answers a word of the received word's length, split (R250). -/
theorem rsCorrect_ok {t : Tables} {w er : ByteSeq} {r : Nat} {mp : ByteSeq × ByteSeq}
    (h : rsCorrect t w er r = .ok mp) :
    ∃ fixed : ByteSeq, fixed.length = w.length ∧ mp = splitWord fixed r := by
  unfold rsCorrect at h
  dsimp only at h
  split at h
  · cases h
  split at h
  · cases h
  split at h
  · cases h
  split at h
  · cases h
    exact ⟨w, rfl, rfl⟩
  split at h
  · cases h
  next fixed hst =>
    split at h <;> cases h
    exact ⟨fixed, length_correctStages hst, rfl⟩

end Sys2Proof.Machine
end
section
/-! What executing a command can answer: the execution cycle of R79 with R307's priority, said once
for every command. -/

namespace Sys2Proof

/-- The checks before the first operand is read have passed: the word is legal, and TV = 1 if the
command uses the tables (R307, points 1 to 3). -/
def Instr.MayReadSources (i : Instr) (s : Machine.State) : Prop :=
  i.wf = true ∧ (i.tableUsing = true → s.tv = true)

/-- Every check of the execution cycle has passed (R307, points 1 to 4). -/
def Instr.MayExecute (i : Instr) (s : Machine.State) : Prop :=
  i.MayReadSources s ∧ i.sourcesWritten s = true

end Sys2Proof

namespace Sys2Proof.Machine

/-- From buffers of at most VLEN_MAX elements, the sequence a command writes has at most that many
(R24). -/
def FitsBuffer (s : State) (out : Except Raise ByteSeq) : Prop :=
  s.BuffersBounded → ∀ q, out = .ok q → q.length ≤ Config.vlenMax

/-- The same for a command that writes two buffers. -/
def FitsBuffers (s : State) (out : Except Raise (ByteSeq × ByteSeq)) : Prop :=
  s.BuffersBounded → ∀ q p, out = .ok (q, p) →
    q.length ≤ Config.vlenMax ∧ p.length ≤ Config.vlenMax

/-- The outcomes of the execution cycle for a command in a state (R79), in the order of R307: the first
check that fails, or the end of the command, by its destinations. -/
inductive Answers (i : Instr) (s : State) : Result → Prop
  | illegal (hw : i.wf = false) : Answers i s (illegal s)
  | noTables (hw : i.wf = true) (ht : i.tableUsing = true) (hv : s.tv = false) :
      Answers i s (.fault .tablesInvalid)
  | unwritten (h : i.MayReadSources s) (hs : i.sourcesWritten s = false) :
      Answers i s (.fault .unwritten)
  | nop (hi : i = .nop) : Answers i s (.next (s.setCode .ok))
  | tblinit (primlo gen : Byte) (hi : i = .tblinit primlo gen) :
      Answers i s (execTblinit primlo gen s)
  | scalar (d : SReg) (out : Except Raise Byte) (h : i.MayExecute s) (hd : i.dests = [.s d]) :
      Answers i s (finishS s d out)
  | buffer (d : VReg) (out : Except Raise ByteSeq) (h : i.MayExecute s) (hd : i.dests = [.v d])
      (hf : FitsBuffer s out) : Answers i s (finishV s d out)
  | buffers (d c : VReg) (out : Except Raise (ByteSeq × ByteSeq)) (h : i.MayExecute s)
      (hd : i.dests = [.v d, .v c]) (hf : FitsBuffers s out) : Answers i s (finishVV s d c out)

/-! ### One rule per shared operation of the cycle -/

section
variable {i : Instr} {s : State}

theorem answers_requireTables {k : Result} (hw : i.wf = true) (ht : i.tableUsing = true)
    (hk : i.MayReadSources s → Answers i s k) : Answers i s (requireTables s k) := by
  cases hv : s.tv with
  | false =>
    rw [requireTables_false s k hv]
    exact .noTables hw ht hv
  | true =>
    rw [requireTables_true s k hv]
    exact hk ⟨hw, fun _ => hv⟩

theorem answers_of_no_tables {r : Result} (hw : i.wf = true) (ht : i.tableUsing = false)
    (hr : i.MayReadSources s → Answers i s r) : Answers i s r :=
  hr ⟨hw, fun h => absurd h (by simp [ht])⟩

theorem sourcesWritten_false {o : Operand} (ho : o ∈ i.sources) (h : o.written s = false) :
    i.sourcesWritten s = false :=
  List.all_eq_false.mpr ⟨o, ho, by simp [h]⟩

theorem answers_sourceS {a : SReg} {k : Byte → Result} (h : i.MayReadSources s)
    (hk : ∀ v, s.readS a = some v → Answers i s (k v))
    (ha : Operand.s a ∈ i.sources := by simp [Instr.sources]) : Answers i s (sourceS s a k) := by
  cases hr : s.readS a with
  | none =>
    rw [sourceS_none s a k hr]
    exact .unwritten h (sourcesWritten_false ha (by simp [Operand.written, hr]))
  | some v =>
    rw [sourceS_some s a k v hr]
    exact hk v hr

theorem answers_sourceV {a : VReg} {k : ByteSeq → Result} (h : i.MayReadSources s)
    (hk : ∀ q, s.readV a = some q → Answers i s (k q))
    (ha : Operand.v a ∈ i.sources := by simp [Instr.sources]) : Answers i s (sourceV s a k) := by
  cases hr : s.readV a with
  | none =>
    rw [sourceV_none s a k hr]
    exact .unwritten h (sourcesWritten_false ha (by simp [Operand.written, hr]))
  | some q =>
    rw [sourceV_some s a k q hr]
    exact hk q hr

/-- The sources are written because the cycle has just read each of them, so `hs` is found from the
context of the call. -/
theorem answers_finishS {d : SReg} {out : Except Raise Byte} (h : i.MayReadSources s)
    (hs : i.sourcesWritten s = true := by
      simp [Instr.sourcesWritten, Instr.sources, Operand.written, *])
    (hd : i.dests = [.s d] := by rfl) : Answers i s (finishS s d out) :=
  .scalar d out ⟨h, hs⟩ hd

theorem answers_finishV {d : VReg} {out : Except Raise ByteSeq} (h : i.MayReadSources s)
    (hf : FitsBuffer s out)
    (hs : i.sourcesWritten s = true := by
      simp [Instr.sourcesWritten, Instr.sources, Operand.written, *])
    (hd : i.dests = [.v d] := by rfl) : Answers i s (finishV s d out) :=
  .buffer d out ⟨h, hs⟩ hd hf

theorem answers_finishVV {d c : VReg} {out : Except Raise (ByteSeq × ByteSeq)}
    (h : i.MayReadSources s) (hf : FitsBuffers s out)
    (hs : i.sourcesWritten s = true := by
      simp [Instr.sourcesWritten, Instr.sources, Operand.written, *])
    (hd : i.dests = [.v d, .v c] := by rfl) : Answers i s (finishVV s d c out) :=
  .buffers d c out ⟨h, hs⟩ hd hf

end

/-! ### The lengths of what is written, from the lengths of what is read -/

section
variable {s : State}

/-- A sequence no longer than a written buffer fits. -/
theorem fitsBuffer_of_le {a : VReg} {p : ByteSeq} {out : Except Raise ByteSeq}
    (hp : s.readV a = some p) (h : ∀ q, out = .ok q → q.length ≤ p.length) : FitsBuffer s out :=
  fun hb q hq => (h q hq).trans (hb a p hp)

/-- Whatever an 8-bit count or a codeword's length bounds, fits. -/
theorem fitsBuffer_of_le_nMax {out : Except Raise ByteSeq}
    (h : ∀ q, out = .ok q → q.length ≤ Config.nMax + 1) : FitsBuffer s out :=
  fun _ q hq => (h q hq).trans (by decide)

theorem fitsBuffer_berlekampMassey {a : VReg} {ts : ByteSeq} (t : Tables)
    (hts : s.readV a = some ts) : FitsBuffer s (berlekampMassey t ts) := fun hb lam hlam => by
  have hl := length_berlekampMassey_le hlam
  have hn := hb a ts hts
  unfold Config.vlenMax at *
  omega

theorem fitsBuffer_paddOut {a b : VReg} {p q : ByteSeq} (hp : s.readV a = some p)
    (hq : s.readV b = some q) : FitsBuffer s (paddOut p q) := fun hb r hr => by
  rw [paddOut_ok hr, length_polyAdd]
  exact max_le (hb a p hp) (hb b q hq)

/-- The quotient is no longer than the dividend, the remainder shorter than the divisor (R144). -/
theorem fitsBuffers_polyDivmod {a b : VReg} {p v : ByteSeq} (t : Tables) (hp : s.readV a = some p)
    (hv : s.readV b = some v) : FitsBuffers s (polyDivmod t p v) := fun hb quo rm h => by
  obtain ⟨hne, hquo, hrm⟩ := length_polyDivmod h
  have hpos := List.length_pos_iff.mpr hne
  have hn := length_norm_le v
  have hpl := hb a p hp
  have hvl := hb b v hv
  unfold Config.vlenMax at *
  constructor <;> omega

theorem fitsBuffers_rsCorrect {a : VReg} {w : ByteSeq} (t : Tables) (er : ByteSeq) (r : Nat)
    (hw : s.readV a = some w) : FitsBuffers s (rsCorrect t w er r) := fun hb m p h => by
  obtain ⟨fixed, hlen, hsplit⟩ := rsCorrect_ok h
  obtain ⟨rfl, rfl⟩ := Prod.mk.inj hsplit
  have hwl := hb a w hw
  rw [List.length_take, List.length_drop]
  omega

end

/-! ### The inversion of exec -/

/-- Every command answers as the execution cycle says. -/
theorem exec_answers (i : Instr) (s : State) : Answers i s (exec i s) := by
  cases i with
  | nop => exact .nop rfl
  | tblinit primlo gen => exact .tblinit primlo gen rfl
  | sldi d imm =>
    rw [exec, execSldi]
    exact answers_of_no_tables rfl rfl fun h => answers_finishS h
  | gadd d a b =>
    exact answers_of_no_tables rfl rfl fun h =>
      answers_sourceS h fun x hx => answers_sourceS h fun y hy => answers_finishS h
  | gmul d a b =>
    exact answers_requireTables rfl rfl fun h =>
      answers_sourceS h fun x hx => answers_sourceS h fun y hy => answers_finishS h
  | gdiv d a b =>
    exact answers_requireTables rfl rfl fun h =>
      answers_sourceS h fun x hx => answers_sourceS h fun y hy => answers_finishS h
  | gpow d a b =>
    exact answers_requireTables rfl rfl fun h =>
      answers_sourceS h fun x hx => answers_sourceS h fun y hy => answers_finishS h
  | ginv d a =>
    exact answers_requireTables rfl rfl fun h => answers_sourceS h fun x hx => answers_finishS h
  | glog d a =>
    exact answers_requireTables rfl rfl fun h => answers_sourceS h fun x hx => answers_finishS h
  | gexp d a =>
    exact answers_requireTables rfl rfl fun h => answers_sourceS h fun x hx => answers_finishS h
  | vget d a index =>
    exact answers_of_no_tables rfl rfl fun h => answers_sourceV h fun q hq => answers_finishS h
  | vset d a index =>
    exact answers_of_no_tables rfl rfl fun h =>
      answers_sourceV h fun q hq => answers_sourceS h fun v hv =>
        answers_finishV h (fitsBuffer_of_le hq fun p hp => by simp [(vsetOut_ok hp).2])
  | vcat d a b =>
    exact answers_of_no_tables rfl rfl fun h =>
      answers_sourceV h fun p hp => answers_sourceV h fun q hq =>
        answers_finishV h fun _ r hr => (vcatOut_ok hr).2
  | vzero d len =>
    rw [exec, execVzero]
    exact answers_of_no_tables rfl rfl fun h =>
      answers_finishV h (fitsBuffer_of_le_nMax fun q hq => by
        rw [← Except.ok.inj hq, List.length_replicate]; exact len.isLt.le)
  | padd d a b =>
    exact answers_of_no_tables rfl rfl fun h =>
      answers_sourceV h fun p hp => answers_sourceV h fun q hq =>
        answers_finishV h (fitsBuffer_paddOut hp hq)
  | pmul d a b =>
    exact answers_requireTables rfl rfl fun h =>
      answers_sourceV h fun p hp => answers_sourceV h fun q hq =>
        answers_finishV h fun _ r hr => (pmulOut_ok hr).2
  | pscale d a b =>
    exact answers_requireTables rfl rfl fun h =>
      answers_sourceV h fun p hp => answers_sourceS h fun x hx =>
        answers_finishV h (fitsBuffer_of_le hp fun q hq => by simp [pscaleOut_ok hq])
  | peval d a b =>
    exact answers_requireTables rfl rfl fun h =>
      answers_sourceV h fun p hp => answers_sourceS h fun x hx => answers_finishS h
  | pdiv d c a b =>
    by_cases hdc : d = c
    · rw [exec, execPdiv, if_pos hdc]
      exact .illegal (by simp [Instr.wf, hdc])
    · rw [exec, execPdiv, if_neg hdc]
      exact answers_requireTables (by simp [Instr.wf, hdc]) rfl fun h =>
        answers_sourceV h fun p hp => answers_sourceV h fun q hq =>
          answers_finishVV h (fitsBuffers_polyDivmod _ hp hq)
  | genpoly d r =>
    exact answers_requireTables rfl rfl fun h =>
      answers_finishV h (fitsBuffer_of_le_nMax fun g hg => by
        rw [genpolyOut_ok hg, length_generatorPoly]; exact r.isLt)
  | encode d a r =>
    exact answers_requireTables rfl rfl fun h => answers_sourceV h fun m hm =>
      answers_finishV h (fitsBuffer_of_le_nMax fun c hc => (length_rsEncode_le hc).trans (by simp))
  | synd d a r =>
    exact answers_requireTables rfl rfl fun h => answers_sourceV h fun w hw =>
      answers_finishV h (fitsBuffer_of_le_nMax fun sy hsy => by
        rw [syndOut_ok hsy, length_syndromes]; exact r.isLt.le)
  | eloc d a n =>
    exact answers_requireTables rfl rfl fun h => answers_sourceV h fun ps hps =>
      answers_finishV h fun _ g hg => (elocOut_ok hg).2
  | fsynd d a b =>
    exact answers_requireTables rfl rfl fun h =>
      answers_sourceV h fun sy hsy => answers_sourceV h fun g hg =>
        answers_finishV h (fitsBuffer_of_le hsy fun ts hts => length_fsyndOut_le hts)
  | bma d a =>
    exact answers_requireTables rfl rfl fun h => answers_sourceV h fun ts hts =>
      answers_finishV h (fitsBuffer_berlekampMassey _ hts)
  | roots d a n =>
    exact answers_requireTables rfl rfl fun h => answers_sourceV h fun lam hlam =>
      answers_finishV h (fitsBuffer_of_le_nMax fun ps hps =>
        (length_rootsOut_le hps).trans n.isLt.le)
  | eeval d a b =>
    exact answers_requireTables rfl rfl fun h =>
      answers_sourceV h fun sy hsy => answers_sourceV h fun psi hpsi =>
        answers_finishV h (fitsBuffer_of_le hsy fun om hom => by simp [eevalOut_ok hom])
  | fcorr d a b c =>
    exact answers_requireTables rfl rfl fun h => answers_sourceV h fun w hw =>
      answers_sourceV h fun sy hsy => answers_sourceV h fun ps hps =>
        answers_finishV h (fitsBuffer_of_le hw fun fixed hf => (length_fcorrOut hf).le)
  | correct d c a b r =>
    by_cases hdc : d = c
    · rw [exec, execCorrect, if_pos hdc]
      exact .illegal (by simp [Instr.wf, hdc])
    · rw [exec, execCorrect, if_neg hdc]
      exact answers_requireTables (by simp [Instr.wf, hdc]) rfl fun h =>
        answers_sourceV h fun w hw => answers_sourceV h fun e he =>
          answers_finishVV h (fitsBuffers_rsCorrect _ e _ hw)

end Sys2Proof.Machine
end
section
/-! What a move does to the state: the updates that leave the table store alone, and the invariant. -/

namespace Sys2Proof.Machine

/-! ### Updates off the table store -/

/-- `t` comes from `s` by the named updates of the state other than TBLINIT's and reset, each buffer
written within VLEN_MAX if those of `s` are (R24, R59). -/
inductive OffTables (s : State) : State → Prop
  | refl : OffTables s s
  | setCode {t : State} (c : StatusCode) : OffTables s t → OffTables s (t.setCode c)
  | writeS {t : State} (i : SReg) (v : Byte) : OffTables s t → OffTables s (t.writeS i v)
  | writeV {t : State} (i : VReg) (q : ByteSeq)
      (hq : s.BuffersBounded → q.length ≤ Config.vlenMax) :
      OffTables s t → OffTables s (t.writeV i q)
  | acceptWord {t : State} (w : CmdWord) : OffTables s t → OffTables s (t.acceptWord w)
  | retire {t : State} : OffTables s t → OffTables s t.retire
  | recordFault {t : State} (f : Fault) : OffTables s t → OffTables s (t.recordFault f)

theorem OffTables.tables_eq {s t : State} (h : OffTables s t) :
    t.tables = s.tables ∧ t.tv = s.tv ∧ t.prim = s.prim ∧ t.gen = s.gen := by
  induction h with
  | refl => exact ⟨rfl, rfl, rfl, rfl⟩
  | setCode _ _ ih => exact ih
  | writeS _ _ _ ih => exact ih
  | writeV _ _ _ _ ih => exact ih
  | acceptWord _ _ ih => exact ih
  | retire _ ih => exact ih
  | recordFault _ _ ih => exact ih

theorem writeV_buffersBounded {s : State} {i : VReg} {q : ByteSeq} (h : s.BuffersBounded)
    (hq : q.length ≤ Config.vlenMax) : (s.writeV i q).BuffersBounded := by
  intro j p hp
  rw [State.readV_writeV] at hp
  split at hp
  · exact Option.some.inj hp ▸ hq
  · exact h j p hp

theorem OffTables.buffersBounded {s t : State} (h : OffTables s t) (hs : s.BuffersBounded) :
    t.BuffersBounded := by
  induction h with
  | refl => exact hs
  | setCode _ _ ih => exact ih
  | writeS _ _ _ ih => exact ih
  | writeV _ _ hq _ ih => exact writeV_buffersBounded ih (hq hs)
  | acceptWord _ _ ih => exact ih
  | retire _ ih => exact ih
  | recordFault _ _ ih => exact ih

theorem OffTables.inv {s t : State} (h : OffTables s t) (hs : s.Inv) : t.Inv := by
  obtain ⟨htables, hbuffers⟩ := hs
  obtain ⟨ht, hv, hp, hg⟩ := h.tables_eq
  refine ⟨?_, h.buffersBounded hbuffers⟩
  unfold State.TablesBuilt
  rw [ht, hv, hp, hg]
  exact htables

/-! ### Commands -/

theorem finishS_offTables {s t : State} {d : SReg} {out : Except Raise Byte}
    (h : finishS s d out = .next t) : OffTables s t := by
  rcases finishS_next.mp h with ⟨v, -, rfl⟩ | ⟨c, -, rfl⟩
  · exact .setCode _ (.writeS d v .refl)
  · exact .setCode _ .refl

theorem finishV_offTables {s t : State} {d : VReg} {out : Except Raise ByteSeq}
    (hf : FitsBuffer s out) (h : finishV s d out = .next t) : OffTables s t := by
  rcases finishV_next.mp h with ⟨q, hq, rfl⟩ | ⟨c, -, rfl⟩
  · exact .setCode _ (.writeV d q (fun hb => hf hb q hq) .refl)
  · exact .setCode _ .refl

theorem finishVV_offTables {s t : State} {d c : VReg} {out : Except Raise (ByteSeq × ByteSeq)}
    (hf : FitsBuffers s out) (h : finishVV s d c out = .next t) : OffTables s t := by
  rcases finishVV_next.mp h with ⟨q, p, ho, rfl⟩ | ⟨e, -, rfl⟩
  · exact .setCode _ (.writeV c p (fun hb => (hf hb q p ho).2)
      (.writeV d q (fun hb => (hf hb q p ho).1) .refl))
  · exact .setCode _ .refl

/-- A command that answers a next state is TBLINIT, or leaves the table store alone (R25, R59). -/
theorem exec_next {i : Instr} {s t : State} (h : exec i s = .next t) :
    (∃ primlo gen, i = .tblinit primlo gen) ∨ OffTables s t := by
  have ha := exec_answers i s
  rw [h] at ha
  generalize hr : Host.Outcome.next t = r at ha
  cases ha with
  | illegal => exact .inr (illegal_next.mp hr.symm ▸ .setCode _ .refl)
  | noTables => cases hr
  | unwritten => cases hr
  | nop => exact .inr (Host.Outcome.next.inj hr ▸ .setCode _ .refl)
  | tblinit primlo gen hi => exact .inl ⟨primlo, gen, hi⟩
  | scalar => exact .inr (finishS_offTables hr.symm)
  | buffer _ _ _ _ hf => exact .inr (finishV_offTables hf hr.symm)
  | buffers _ _ _ _ _ hf => exact .inr (finishVV_offTables hf hr.symm)

/-- The same for the pending word, decoded or illegal. -/
theorem executeWord_next {w : CmdWord} {s t : State} (h : executeWord w s = .next t) :
    (∃ primlo gen, decode w = .ok (.tblinit primlo gen) ∧ execTblinit primlo gen s = .next t) ∨
      OffTables s t := by
  unfold executeWord at h
  split at h
  next i hd =>
    rcases exec_next h with ⟨primlo, gen, rfl⟩ | ht
    · exact .inl ⟨primlo, gen, hd, h⟩
    · exact .inr ht
  next => exact .inr (illegal_next.mp h ▸ .setCode _ .refl)

theorem execTblinit_inv {primlo gen : Byte} {s t : State} (hs : s.Inv)
    (h : execTblinit primlo gen s = .next t) : t.Inv := by
  obtain ⟨-, hbuffers⟩ := hs
  rcases execTblinit_next.mp h with ⟨hp, rfl⟩ | ⟨-, rfl⟩
  · refine ⟨fun _ => ⟨primlo, ?_⟩, fun j q => ?_⟩
    · simp [hp]
    · simpa using hbuffers j q
  · refine ⟨fun hv => ?_, fun j q => ?_⟩
    · simp at hv
    · simpa using hbuffers j q

/-- A core step that answers a next state executed a TBLINIT, or left the table store alone. -/
theorem step_next {s t : State} (h : step s = .next t) :
    (∃ w primlo gen u, s.pending = some w ∧ decode w = .ok (.tblinit primlo gen) ∧
      execTblinit primlo gen s = .next u ∧ t = u.retire) ∨ OffTables s t := by
  rcases coreStep_next.mp h with ⟨-, ⟨-, rfl⟩ | ⟨w, u, hw, hu, rfl⟩⟩
  · exact .inr .refl
  · rcases executeWord_next hu with ⟨primlo, gen, hd, hx⟩ | ho
    · exact .inl ⟨w, primlo, gen, u, hw, hd, hx, rfl⟩
    · exact .inr ho.retire

theorem step_inv {s t : State} (hs : s.Inv) (h : step s = .next t) : t.Inv := by
  rcases step_next h with ⟨_, _, _, u, -, -, hx, rfl⟩ | ho
  · exact (OffTables.retire .refl).inv (execTblinit_inv hs hx)
  · exact ho.inv hs

/-! ### Host operations -/

theorem hostEffect_next {op : HostOp} {s : State} {u : State × HostReply}
    (hp : op.presentable = true) (h : hostEffect op s = .next u) : OffTables s u.1 := by
  cases op with
  | wrcmd w => cases h; exact .acceptWord w .refl
  | rdstatus => cases h; exact .refl
  | rdcfg => cases h; exact .refl
  | wrs i v => cases h; exact .writeS i _ .refl
  | rds i =>
    simp only [hostEffect] at h
    split at h <;> cases h
    exact .refl
  | wrv i q =>
    cases h
    refine .writeV i _ (fun _ => ?_) .refl
    rw [HostOp.presentable, Bool.and_eq_true, decide_eq_true_eq] at hp
    rw [List.length_map]
    exact hp.1
  | rdv i =>
    simp only [hostEffect] at h
    split at h <;> cases h
    exact .refl

theorem hostStep_next {op : HostOp} {s : State} {u : State × HostReply}
    (h : hostStep op s = .next u) : OffTables s u.1 := by
  unfold hostStep at h
  split at h
  · cases h
  split at h
  · cases h
  next hp =>
    split at h
    · cases h
    · exact hostEffect_next (by simpa using hp) h

/-! ### Moves and runs -/

/-- What a move leaves behind, by its outcome. -/
theorem stateAfter_cases (m : Move) (s : State) :
    (∃ u, move m s = .next u ∧ stateAfter m s = u.1) ∨
      (∃ f, move m s = .fault f ∧ stateAfter m s = s.recordFault f) ∨ stateAfter m s = s := by
  unfold stateAfter
  cases move m s with
  | next u => exact .inl ⟨u, rfl, rfl⟩
  | fault f => exact .inr (.inl ⟨f, rfl, rfl⟩)
  | refused r => exact .inr (.inr rfl)

theorem coreMove_next {s : State} {u : State × HostReply} (h : coreMove s = .next u) :
    step s = .next u.1 := by
  unfold coreMove at h
  split at h <;> cases h
  assumption

/-- A move leaves the table store alone, is a reset, or executes a TBLINIT (R25, R26, R59). -/
theorem stateAfter_next (m : Move) (s : State) :
    OffTables s (stateAfter m s) ∨ m = .reset ∨
      m = .core ∧ step s = .next (stateAfter m s) ∧
        ∃ w primlo gen, s.pending = some w ∧ decode w = .ok (.tblinit primlo gen) := by
  rcases stateAfter_cases m s with ⟨u, hu, heq⟩ | ⟨f, -, heq⟩ | heq <;> rw [heq]
  · cases m with
    | core =>
      have hstep := coreMove_next hu
      rcases step_next hstep with ⟨w, primlo, gen, -, hw, hd, -⟩ | ho
      · exact .inr (.inr ⟨rfl, hstep, w, primlo, gen, hw, hd⟩)
      · exact .inl ho
    | host op => exact .inl (hostStep_next hu)
    | reset => exact .inr (.inl rfl)
  · exact .inl (.recordFault f .refl)
  · exact .inl .refl

theorem reset_inv : State.reset.Inv := by
  refine ⟨fun hv => absurd hv Bool.false_ne_true, fun i q hq => ?_⟩
  rw [State.reset_readV] at hq
  cases hq

theorem stateAfter_inv {m : Move} {s : State} (hs : s.Inv) : (stateAfter m s).Inv := by
  rcases stateAfter_next m s with ho | rfl | ⟨rfl, hstep, -⟩
  · exact ho.inv hs
  · exact reset_inv
  · exact step_inv hs hstep

theorem runMoves_inv (ms : List Move) {s : State} (hs : s.Inv) : (runMoves ms s).1.Inv := by
  induction ms generalizing s with
  | nil => exact hs
  | cons m ms ih => exact ih (stateAfter_inv hs)

theorem State.Reachable.inv {s : State} (h : s.Reachable) : s.Inv := by
  obtain ⟨ms, rfl⟩ := h
  exact runMoves_inv ms reset_inv

end Sys2Proof.Machine
end
section
/-! The tables of a full-period pair (R25, R28, R103). -/

namespace Sys2Proof.Machine

/-! ### The list of powers -/

theorem length_powerRun (gen primlo : Byte) (n : Nat) (v : Byte) :
    (powerRun gen primlo n v).1.length = n := by
  induction n generalizing v with
  | zero => rfl
  | succ n ih => simp [powerRun, ih]

@[simp] theorem length_powers (primlo gen : Byte) : (powers primlo gen).length = 255 :=
  length_powerRun ..

/-- R103's test, in the library's terms. -/
theorem fullPeriod_iff (primlo gen : Byte) :
    fullPeriod primlo gen = true ↔
      (powerRun gen primlo 255 1#8).2 = 1#8 ∧ 0#8 ∉ powers primlo gen ∧
        (powers primlo gen).Nodup := by
  simp [fullPeriod, powers, distinct_iff, and_assoc]

/-- Multiplying x^j by x, for j below 7, does not reduce (R100). -/
theorem mulx_twoPow (primlo : Byte) {j : Nat} (hj : j < 7) :
    mulx (BitVec.twoPow 8 j) primlo = BitVec.twoPow 8 (j + 1) := by
  have h7 : (BitVec.twoPow 8 j).getLsbD 7 = false := by
    rw [BitVec.getLsbD_twoPow]
    simp
    omega
  rw [mulx, h7, if_neg Bool.false_ne_true, BitVec.xor_zero, BitVec.twoPow_eq, BitVec.twoPow_eq,
    BitVec.shiftLeft_add]

/-- Turn n of R102's loop adds bit n of b, as long as a holds 2^n. -/
theorem ringMulTurn_twoPow (b primlo : Byte) (n : Nat) :
    (ringMulTurn b primlo ((b.setWidth n).setWidth 8, BitVec.twoPow 8 n) n).1 =
      (b.setWidth (n + 1)).setWidth 8 := by
  dsimp only [ringMulTurn]
  ext i hi
  split
  next hb =>
    rw [BitVec.setWidth_setWidth_succ_eq_setWidth_setWidth_or_twoPow_of_getLsbD_true hb]
    by_cases hin : i = n <;> simp [hi, hin]
  next hb =>
    rw [BitVec.setWidth_setWidth_succ_eq_setWidth_setWidth_of_getLsbD_false (by simpa using hb)]

/-- From a = 1, n turns of R102's loop have read the low n bits of b. -/
theorem ringMul_turns_one (b primlo : Byte) (n : Nat) (hn : n ≤ 7) :
    (List.range n).foldl (ringMulTurn b primlo) (0#8, 1#8) =
      ((b.setWidth n).setWidth 8, BitVec.twoPow 8 n) := by
  induction n with
  | zero =>
    rw [BitVec.of_length_zero (x := b.setWidth 0)]
    rfl
  | succ n ih =>
    rw [List.range_succ, List.foldl_append, ih (by omega), List.foldl_cons, List.foldl_nil]
    exact Prod.ext (ringMulTurn_twoPow b primlo n) (mulx_twoPow primlo (by omega))

/-- 1 is a left unit of ring_mul, whatever the polynomial (R102). -/
theorem ringMul_one_left (b primlo : Byte) : ringMul 1#8 b primlo = b := by
  rw [ringMul, List.range_succ, List.foldl_append, ringMul_turns_one b primlo 7 le_rfl,
    List.foldl_cons, List.foldl_nil, ringMulTurn_twoPow]
  simp

theorem powers_zero (primlo gen : Byte) : (powers primlo gen).getD 0 0#8 = 1#8 := rfl

theorem powers_one (primlo gen : Byte) : (powers primlo gen).getD 1 0#8 = gen :=
  ringMul_one_left gen primlo

/-- 255 distinct nonzero bytes are all of them. -/
theorem mem_of_nodup_nonzero {e : ByteSeq} (hl : e.length = 255) (hn : e.Nodup) (h0 : 0#8 ∉ e)
    {x : Byte} (hx : x ≠ 0#8) : x ∈ e := by
  by_contra hxe
  have hnodup : (0#8 :: x :: e).Nodup := by simp [hn, h0, hxe, hx.symm]
  have hcard := hnodup.length_le_card
  rw [← FinEnum.card_eq_fintypeCard, FinEnum.card_bitVec, List.length_cons, List.length_cons,
    hl] at hcard
  omega

/-! ### Reading the tables of a list of powers -/

theorem alpha_tablesOf (e : ByteSeq) {i : Nat} (hi : i < 255) :
    alpha (tablesOf e) i = e.getD i 0#8 := by
  simp [alpha, tablesOf, Nat.mod_eq_of_lt hi]

/-- EXP[i] is α^i, for every entry (R108). -/
theorem exp_eq_alpha (t : Tables) (i : Fin 255) : t.exp[i] = alpha t i := by
  simp [alpha, Nat.mod_eq_of_lt i.isLt]

theorem logOf_tablesOf {e : ByteSeq} (hl : e.length = 255) {x : Byte} (hx : x ≠ 0#8) :
    logOf (tablesOf e) x = e.idxOf x := by
  have hpos : x.toNat - 1 + 1 = x.toNat := by
    have hne : x.toNat ≠ 0 := fun h => hx (BitVec.eq_of_toNat_eq h)
    omega
  have hidx : e.idxOf x ≤ 255 := hl ▸ List.idxOf_le_length
  simp only [logOf, tablesOf, Vector.getElem_ofFn, hpos, BitVec.ofNat_toNat, BitVec.setWidth_eq,
    BitVec.toNat_ofNat]
  omega

section
variable {e : ByteSeq} (hl : e.length = 255) (hn : e.Nodup) (h0 : 0#8 ∉ e)
include hl h0

theorem alpha_tablesOf_ne_zero {i : Nat} (hi : i < 255) : alpha (tablesOf e) i ≠ 0#8 := by
  rw [alpha_tablesOf e hi, List.getD_eq_getElem (hn := hl ▸ hi)]
  exact fun h => h0 (h ▸ List.getElem_mem _)

include hn

/-- LOG undoes EXP. -/
theorem logOf_alpha_tablesOf {i : Nat} (hi : i < 255) :
    logOf (tablesOf e) (alpha (tablesOf e) i) = i := by
  rw [logOf_tablesOf hl (alpha_tablesOf_ne_zero hl h0 hi), alpha_tablesOf e hi,
    List.getD_eq_getElem (hn := hl ▸ hi), hn.idxOf_getElem]

/-- EXP undoes LOG, because every nonzero byte is a power. -/
theorem alpha_logOf_tablesOf {x : Byte} (hx : x ≠ 0#8) :
    logOf (tablesOf e) x < 255 ∧ alpha (tablesOf e) (logOf (tablesOf e) x) = x := by
  have hlt : e.idxOf x < e.length := List.idxOf_lt_length_of_mem (mem_of_nodup_nonzero hl hn h0 hx)
  rw [logOf_tablesOf hl hx, alpha_tablesOf e (hl ▸ hlt), List.getD_eq_getElem (hn := hlt)]
  exact ⟨hl ▸ hlt, List.getElem_idxOf hlt⟩

/-- 255 distinct nonzero powers from 1 give valid tables (R25). -/
theorem tablesOf_valid (h1 : e.getD 0 0#8 = 1#8) : (tablesOf e).Valid := by
  refine ⟨fun i => ?_, fun x hx => ?_, ?_⟩
  · rw [exp_eq_alpha]
    exact ⟨alpha_tablesOf_ne_zero hl h0 i.isLt, logOf_alpha_tablesOf hl hn h0 i.isLt⟩
  · obtain ⟨hlt, hx'⟩ := alpha_logOf_tablesOf hl hn h0 hx
    exact ⟨by omega, hx'⟩
  · rw [alpha_tablesOf e (by decide), h1]

end

/-- Valid tables hold every nonzero value at exactly one index (R28). -/
theorem Tables.Valid.existsUnique_exp {t : Tables} (h : t.Valid) {x : Byte} (hx : x ≠ 0#8) :
    ∃! i : Fin 255, t.exp[i] = x := by
  obtain ⟨hexp, hlog, -⟩ := h
  obtain ⟨hle, hx'⟩ := hlog x hx
  refine ⟨⟨logOf t x, by omega⟩, ?_, fun i hi => ?_⟩
  · exact (exp_eq_alpha t _).trans hx'
  · exact Fin.ext (by rw [← (hexp i).2, hi])

theorem buildTables_valid {primlo gen : Byte} (h : fullPeriod primlo gen = true) :
    (buildTables primlo gen).Valid := by
  obtain ⟨-, h0, hn⟩ := (fullPeriod_iff primlo gen).mp h
  exact tablesOf_valid (length_powers primlo gen) hn h0 (powers_zero primlo gen)

/-- EXP[1] = GEN (R28). -/
theorem alpha_one_buildTables (primlo gen : Byte) : alpha (buildTables primlo gen) 1 = gen := by
  rw [buildTables, alpha_tablesOf _ (by decide), powers_one]

/-- While TV = 1 the invariant gives valid tables. -/
theorem State.Inv.tables_valid {s : State} (h : s.Inv) (hv : s.tv = true) : s.tables.Valid := by
  obtain ⟨primlo, -, hp, ht⟩ := h.1 hv
  exact ht ▸ buildTables_valid hp

/-- The default pair has a full period (R82, R119). -/
theorem fullPeriod_default : fullPeriod Config.primLoDefault Config.genDefault = true := by
  decide +kernel

end Sys2Proof.Machine
end
section
/-! STATUS and CFG as numbers (R29, R30), and what a faulted model does (R33, R310). -/

namespace Sys2Proof.Machine

/-- A field of a word, as a number. -/
theorem extractLsb'_eq_of_toNat {n lo len : Nat} {w : BitVec n} {v : BitVec len}
    (h : w.toNat / 2 ^ lo % 2 ^ len = v.toNat) : w.extractLsb' lo len = v := by
  apply BitVec.eq_of_toNat_eq
  rw [BitVec.extractLsb'_toNat, Nat.shiftRight_eq_div_pow, h]

theorem statusWord_toNat (s : State) :
    s.statusWord.toNat = s.code.bits.toNat * 2 ^ 4 + s.tv.toNat * 2 + s.busy.toNat := by
  simp only [State.statusWord, toNat_append_eq, BitVec.toNat_ofBool, BitVec.toNat_ofNat]
  omega

theorem cfgWord_toNat (s : State) :
    s.cfgWord.toNat = s.gen.toNat * 2 ^ 16 + s.prim.toNat := by
  simp only [State.cfgWord, toNat_append_eq, BitVec.toNat_ofNat]
  omega

theorem StatusCode.bits_le (c : StatusCode) : c.bits.toNat ≤ 5 := by
  cases c <;> decide

/-- A faulted model answers every move but reset with its fault (R33). -/
theorem move_of_fault {m : Move} {s : State} {f : Fault} (hf : s.fault = some f) (hm : m ≠ .reset) :
    move m s = .fault f := by
  cases m with
  | core => simp [move, coreMove, step, coreStep, hf]
  | host op => simp [move, hostStep, hf]
  | reset => exact absurd rfl hm

theorem recordFault_of_none {s : State} {f : Fault} (h : s.fault = none) :
    s.recordFault f = { s with fault := some f } := by
  simp [State.recordFault, h]

/-- FAULT keeps the first fault raised (R33). -/
theorem recordFault_of_some {s : State} {f g : Fault} (h : s.fault = some f) :
    s.recordFault g = s := by
  cases s
  simp_all [State.recordFault]

theorem stateAfter_of_fault {m : Move} {s : State} {f : Fault} (h : move m s = .fault f) :
    stateAfter m s = s.recordFault f := by
  rw [stateAfter, h]

end Sys2Proof.Machine
end
section
/-! The obligations of the state: the invariant, the tables, the control registers and FAULT. -/

namespace Sys2Proof.Machine

/-- Settles O18, by the inversion of the core's step: TBLINIT builds or drops the tables, and every
other command writes only what fits a buffer. -/
theorem stepKeepsTheInvariant : Obligations.StepKeepsTheInvariant :=
  fun _ _ hs h => step_inv hs h

/-- Settles O20, by the inversion of a move and induction over the moves of a run. -/
theorem everyMoveKeepsTheInvariant : Obligations.EveryMoveKeepsTheInvariant :=
  ⟨fun _ _ hs => stateAfter_inv hs, fun _ hr => ⟨hr.inv.2, hr.inv.tables_valid⟩⟩

/-- Settles O19: TV is 0 and every buffer unwritten. -/
theorem resetMeetsTheInvariant : Obligations.ResetMeetsTheInvariant := reset_inv

/-- Settles O13: of the outcomes of the execution cycle, only F_UNWRITTEN is left. -/
theorem unwrittenSourceFaults : Obligations.UnwrittenSourceFaults := by
  intro i s hw ht hs
  have hexec : ¬ i.MayExecute s := fun h => by simp [h.2] at hs
  have ha := exec_answers i s
  generalize exec i s = r at ha
  cases ha with
  | illegal hw' => simp [hw] at hw'
  | noTables _ hu hv => simp [ht hu] at hv
  | unwritten => rfl
  | nop hi => exact absurd hs (by simp [hi, Instr.sourcesWritten, Instr.sources])
  | tblinit _ _ hi => exact absurd hs (by simp [hi, Instr.sourcesWritten, Instr.sources])
  | scalar _ _ h => exact absurd h hexec
  | buffer _ _ h => exact absurd h hexec
  | buffers _ _ _ h => exact absurd h hexec

/-- Settles O21: the only other moves are resets and core steps on a pending TBLINIT. -/
theorem onlyTblinitChangesTheTables : Obligations.OnlyTblinitChangesTheTables := by
  intro m s hreset hcore
  rcases stateAfter_next m s with ho | hm | ⟨hm, -, w, primlo, gen, hw, hd⟩
  · exact ho.tables_eq
  · exact absurd hm hreset
  · exact absurd hd (hcore hm w primlo gen hw)

/-- Settles O22: the 255 powers are distinct and nonzero, so they are all the nonzero bytes. -/
theorem fullPeriodTablesAreValid : Obligations.FullPeriodTablesAreValid := by
  intro primlo gen h
  have hv := buildTables_valid h
  have h1 := alpha_one_buildTables primlo gen
  refine ⟨hv, fun x hx => hv.existsUnique_exp hx, h1, ?_⟩
  obtain ⟨hexp, -, -⟩ := hv
  have hlog := (hexp ⟨1, by decide⟩).2
  rwa [exp_eq_alpha, h1] at hlog

/-- Settles O2, by the value of the word as a number. -/
theorem statusWordFields : Obligations.StatusWordFields := by
  refine ⟨fun s => ?_, by decide⟩
  have hval := statusWord_toNat s
  have hcode := s.code.bits_le
  have htv := s.tv.toNat_le
  have hbusy := s.busy.toNat_le
  refine ⟨extractLsb'_eq_of_toNat ?_, extractLsb'_eq_of_toNat ?_, extractLsb'_eq_of_toNat ?_,
    extractLsb'_eq_of_toNat ?_, extractLsb'_eq_of_toNat ?_, hcode, fun hf => ?_⟩
  · rw [BitVec.toNat_ofBool, ← State.busy]
    omega
  · rw [BitVec.toNat_ofBool]
    omega
  · rw [BitVec.toNat_ofNat]
    omega
  · omega
  · rw [BitVec.toNat_ofNat]
    omega
  · simp [hostStep, hf, HostOp.presentable, hostEffect]

/-- Settles O3, by the value of the word as a number. -/
theorem cfgWordFields : Obligations.CfgWordFields := by
  refine ⟨fun s => ?_, by decide⟩
  have hval := cfgWord_toNat s
  have hprim := s.prim.isLt
  have hgen := s.gen.isLt
  refine ⟨extractLsb'_eq_of_toNat ?_, extractLsb'_eq_of_toNat ?_, extractLsb'_eq_of_toNat ?_,
    extractLsb'_eq_of_toNat ?_, fun hf hp => ?_,
    (s.installTables 0x1D#8 2#8).setCode .ok, ?_, ?_⟩
  · omega
  · rw [BitVec.toNat_ofNat]
    omega
  · omega
  · rw [BitVec.toNat_ofNat]
    omega
  · simp [hostStep, hf, hp, State.busy, HostOp.presentable, hostEffect]
  · exact execTblinit_next.mpr (.inl ⟨fullPeriod_default, rfl⟩)
  · apply BitVec.eq_of_toNat_eq
    simp [cfgWord_toNat]

/-- Settles O58: a fault is recorded on the unchanged state, and answered to every later move. -/
theorem faultsChangeNothingAndFreezeTheModel :
    Obligations.FaultsChangeNothingAndFreezeTheModel := by
  refine ⟨fun m s f hs hm => ?_, fun m s f hs hm => ?_⟩
  · rw [stateAfter_of_fault hm, recordFault_of_none hs]
  · have hmove := move_of_fault hs hm
    refine ⟨fun u hu => ?_, ?_⟩
    · rw [hmove] at hu
      cases hu
    · rw [stateAfter_of_fault hmove, recordFault_of_some hs]

end Sys2Proof.Machine
end
section
/-! What a core step leaves unchanged, and the outcomes it can have (R53, R65, R75, R79). -/

namespace Sys2Proof.Machine

/-! ### The frame of a command -/

/-- What every command keeps, TBLINIT too: the registers outside a list of destinations, PENDING and
FAULT (R53, R65, R310). -/
structure KeptOutside (ds : List Operand) (s t : State) : Prop where
  readS : ∀ r : SReg, Operand.s r ∉ ds → t.readS r = s.readS r
  readV : ∀ r : VReg, Operand.v r ∉ ds → t.readV r = s.readV r
  pending : t.pending = s.pending
  fault : t.fault = s.fault

section
variable {ds : List Operand} {s t : State}

theorem KeptOutside.refl : KeptOutside ds s s :=
  ⟨fun _ _ => rfl, fun _ _ => rfl, rfl, rfl⟩

theorem KeptOutside.setCode (c : StatusCode) (h : KeptOutside ds s t) :
    KeptOutside ds s (t.setCode c) :=
  ⟨h.readS, h.readV, h.pending, h.fault⟩

theorem KeptOutside.installTables (primlo gen : Byte) (h : KeptOutside ds s t) :
    KeptOutside ds s (t.installTables primlo gen) :=
  ⟨fun r hr => by simp [h.readS r hr], fun r hr => by simp [h.readV r hr], by simp [h.pending],
    by simp [h.fault]⟩

theorem KeptOutside.dropTables (h : KeptOutside ds s t) : KeptOutside ds s t.dropTables :=
  ⟨fun r hr => by simp [h.readS r hr], fun r hr => by simp [h.readV r hr], by simp [h.pending],
    by simp [h.fault]⟩

theorem KeptOutside.writeS {d : SReg} (v : Byte) (hd : Operand.s d ∈ ds)
    (h : KeptOutside ds s t) : KeptOutside ds s (t.writeS d v) := by
  refine ⟨fun r hr => ?_, h.readV, h.pending, h.fault⟩
  have hne : d ≠ r := fun e => hr (e ▸ hd)
  rw [State.readS_writeS, if_neg hne, h.readS r hr]

theorem KeptOutside.writeV {d : VReg} (q : ByteSeq) (hd : Operand.v d ∈ ds)
    (h : KeptOutside ds s t) : KeptOutside ds s (t.writeV d q) := by
  refine ⟨h.readS, fun r hr => ?_, h.pending, h.fault⟩
  have hne : d ≠ r := fun e => hr (e ▸ hd)
  rw [State.readV_writeV, if_neg hne, h.readV r hr]

end

theorem finishS_kept {s t : State} {d : SReg} {out : Except Raise Byte}
    (h : finishS s d out = .next t) : KeptOutside [.s d] s t := by
  rcases finishS_next.mp h with ⟨v, -, rfl⟩ | ⟨c, -, rfl⟩
  · exact .setCode _ (.writeS v (by simp) .refl)
  · exact .setCode _ .refl

theorem finishV_kept {s t : State} {d : VReg} {out : Except Raise ByteSeq}
    (h : finishV s d out = .next t) : KeptOutside [.v d] s t := by
  rcases finishV_next.mp h with ⟨q, -, rfl⟩ | ⟨c, -, rfl⟩
  · exact .setCode _ (.writeV q (by simp) .refl)
  · exact .setCode _ .refl

theorem finishVV_kept {s t : State} {d c : VReg} {out : Except Raise (ByteSeq × ByteSeq)}
    (h : finishVV s d c out = .next t) : KeptOutside [.v d, .v c] s t := by
  rcases finishVV_next.mp h with ⟨q, p, -, rfl⟩ | ⟨e, -, rfl⟩
  · exact .setCode _ (.writeV p (by simp) (.writeV q (by simp) .refl))
  · exact .setCode _ .refl

theorem execTblinit_kept {primlo gen : Byte} {s t : State} {ds : List Operand}
    (h : execTblinit primlo gen s = .next t) : KeptOutside ds s t := by
  rcases execTblinit_next.mp h with ⟨-, rfl⟩ | ⟨-, rfl⟩
  · exact .setCode _ (.installTables primlo gen .refl)
  · exact .setCode _ (.dropTables .refl)

/-- Every command keeps what lies outside its Dests column (R75). -/
theorem exec_kept {i : Instr} {s t : State} (h : exec i s = .next t) : KeptOutside i.dests s t := by
  have ha := exec_answers i s
  rw [h] at ha
  generalize hr : Host.Outcome.next t = r at ha
  cases ha with
  | illegal => exact illegal_next.mp hr.symm ▸ .setCode _ .refl
  | noTables => cases hr
  | unwritten => cases hr
  | nop => exact Host.Outcome.next.inj hr ▸ .setCode _ .refl
  | tblinit => exact execTblinit_kept hr.symm
  | scalar _ _ _ hd => exact hd ▸ finishS_kept hr.symm
  | buffer _ _ _ hd => exact hd ▸ finishV_kept hr.symm
  | buffers _ _ _ _ hd => exact hd ▸ finishVV_kept hr.symm

/-- Only a refused TBLINIT and reset move the counter of unspecified table contents. -/
theorem OffTables.freeCount_eq {s t : State} (h : OffTables s t) : t.freeCount = s.freeCount := by
  induction h with
  | refl => rfl
  | setCode _ _ ih => exact ih
  | writeS _ _ _ ih => exact ih
  | writeV _ _ _ _ ih => exact ih
  | acceptWord _ _ ih => exact ih
  | retire _ ih => exact ih
  | recordFault _ _ ih => exact ih

/-! ### The outcomes of a command -/

/-- The outcomes a command can have: it completes, or it meets one of the two faults of a core step;
it is never refused (R310, R311). -/
def Resolves (r : Result) : Prop :=
  (∃ t, r = .next t) ∨ r = .fault .tablesInvalid ∨ r = .fault .unwritten

theorem Resolves.next (t : State) : Resolves (.next t) := .inl ⟨t, rfl⟩

theorem finishS_resolves (s : State) (d : SReg) (out : Except Raise Byte) :
    Resolves (finishS s d out) := by
  cases out <;> exact .next _

theorem finishV_resolves (s : State) (d : VReg) (out : Except Raise ByteSeq) :
    Resolves (finishV s d out) := by
  cases out <;> exact .next _

theorem finishVV_resolves (s : State) (d c : VReg) (out : Except Raise (ByteSeq × ByteSeq)) :
    Resolves (finishVV s d c out) := by
  cases out <;> exact .next _

theorem execTblinit_resolves (primlo gen : Byte) (s : State) :
    Resolves (execTblinit primlo gen s) := by
  unfold execTblinit
  split <;> exact .next _

theorem exec_resolves (i : Instr) (s : State) : Resolves (exec i s) := by
  have ha := exec_answers i s
  generalize exec i s = r at ha
  cases ha with
  | illegal => exact .next _
  | noTables => exact .inr (.inl rfl)
  | unwritten => exact .inr (.inr rfl)
  | nop => exact .next _
  | tblinit primlo gen => exact execTblinit_resolves primlo gen s
  | scalar d out => exact finishS_resolves s d out
  | buffer d out => exact finishV_resolves s d out
  | buffers d c out => exact finishVV_resolves s d c out

/-! ### The pending word -/

theorem executeWord_ok {w : CmdWord} {i : Instr} (h : decode w = .ok i) (s : State) :
    executeWord w s = exec i s := by
  rw [executeWord, h]

theorem executeWord_error {w : CmdWord} {e : DecodeError} (h : decode w = .error e) (s : State) :
    executeWord w s = illegal s := by
  rw [executeWord, h]

theorem executeWord_resolves (w : CmdWord) (s : State) : Resolves (executeWord w s) := by
  cases hd : decode w with
  | ok i => exact executeWord_ok hd s ▸ exec_resolves i s
  | error e => exact executeWord_error hd s ▸ .next _

/-- A word that runs to a next state keeps FAULT. -/
theorem executeWord_fault_eq {w : CmdWord} {s t : State} (h : executeWord w s = .next t) :
    t.fault = s.fault := by
  cases hd : decode w with
  | ok i => exact (exec_kept (executeWord_ok hd s ▸ h)).fault
  | error e =>
    rw [executeWord_error hd, illegal_next] at h
    rw [h, State.setCode_fault]

/-- A faulted model takes no further step (R33). -/
theorem step_of_fault {s : State} {f : Fault} (hf : s.fault = some f) : step s = .fault f := by
  rw [step, coreStep, hf]

/-- With nothing pending the core waits (R317). -/
theorem step_of_idle {s : State} (hf : s.fault = none) (hp : s.pending = none) :
    step s = .next s := by
  rw [step, coreStep, hf, hp]

/-- A core step executes the pending word and retires it (R65). -/
theorem step_of_pending {s : State} {w : CmdWord} (hf : s.fault = none) (hp : s.pending = some w) :
    step s = retireResult (executeWord w s) := by
  rw [step, coreStep, hf, hp]

end Sys2Proof.Machine
end
section
/-! The byte channel (R51), and one step of the host agent (R62, R64). -/

namespace Sys2Proof

/-- The decoder reads a word's bytes as the word, and leaves the bytes after them (R51). -/
theorem decodeBytes_wordToBytes (w : CmdWord) (rest : ByteSeq) :
    decodeBytes (wordToBytes w ++ rest) = (decode w).map fun i => (i, rest) := by
  simp only [wordToBytes, List.cons_append, List.nil_append, decodeBytes, wordOfBytes_wordToBytes]
  cases decode w <;> rfl

end Sys2Proof

namespace Sys2Proof.Machine

/-- The interface presents an 8-bit value (R62). -/
@[simp] theorem presentable_wrs {i : SReg} {v : Nat} :
    (HostOp.wrs i v).presentable = true ↔ v < 256 := by
  simp [HostOp.presentable]

/-- The interface presents at most VLEN_MAX 8-bit elements (R62). -/
@[simp] theorem presentable_wrv {i : VReg} {q : List Nat} :
    (HostOp.wrv i q).presentable = true ↔ q.length ≤ 512 ∧ ∀ v ∈ q, v < 256 := by
  rw [HostOp.presentable, Bool.and_eq_true, decide_eq_true_eq, List.all_eq_true, Config.vlenMax]
  simp

/-- Bytes, as the numbers of a host sequence, are presentable up to VLEN_MAX of them. -/
theorem presentable_wrv_bytes (i : VReg) {q : ByteSeq} (hq : q.length ≤ 512) :
    (HostOp.wrv i (q.map (·.toNat))).presentable = true := by
  rw [presentable_wrv, List.length_map, List.forall_mem_map]
  exact ⟨hq, fun v _ => v.isLt⟩

/-- Bytes survive their passage through the host's numbers. -/
theorem map_ofNat_map_toNat (q : ByteSeq) : (q.map (·.toNat)).map (BitVec.ofNat 8) = q := by
  simp [Function.comp_def]

theorem busy_eq_false {s : State} : s.busy = false ↔ s.pending = none := by
  simp [State.busy]

theorem busy_eq_true {s : State} : s.busy = true ↔ s.pending ≠ none := by
  simp [State.busy, Option.isSome_iff_ne_none]

section
variable {op : HostOp} {s : State}

/-- Data that cannot be presented is refused (R62, U10). -/
theorem hostStep_of_not_presentable (hf : s.fault = none) (hp : ¬ op.presentable = true) :
    hostStep op s = .refused .hostDataNotPresentable := by
  simp [hostStep, hf, hp]

/-- While BUSY = 1 every operation but H_RDSTATUS faults (R64). -/
theorem hostStep_of_busy (hf : s.fault = none) (hp : op.presentable = true)
    (hb : s.pending ≠ none) (hop : op ≠ .rdstatus) : hostStep op s = .fault .hostBusy := by
  simp [hostStep, hf, hp, busy_eq_true.mpr hb, hop]

/-- While BUSY = 0 a presentable operation happens (R62). -/
theorem hostStep_of_idle (hf : s.fault = none) (hb : s.pending = none)
    (hp : op.presentable = true) : hostStep op s = hostEffect op s := by
  simp [hostStep, hf, hp, busy_eq_false.mpr hb]

end

/-- H_RDSTATUS is allowed whatever BUSY is (R62). -/
theorem hostStep_rdstatus {s : State} (hf : s.fault = none) :
    hostStep .rdstatus s = .next (s, .word s.statusWord) := by
  simp [hostStep, hf, HostOp.presentable, hostEffect]

theorem hostEffect_rds_some {s : State} {i : SReg} {v : Byte} (h : s.readS i = some v) :
    hostEffect (.rds i) s = .next (s, .value v) := by
  rw [hostEffect, h]

theorem hostEffect_rds_none {s : State} {i : SReg} (h : s.readS i = none) :
    hostEffect (.rds i) s = .fault .unwritten := by
  rw [hostEffect, h]

theorem hostEffect_rdv_some {s : State} {i : VReg} {q : ByteSeq} (h : s.readV i = some q) :
    hostEffect (.rdv i) s = .next (s, .sequence q) := by
  rw [hostEffect, h]

theorem hostEffect_rdv_none {s : State} {i : VReg} (h : s.readV i = none) :
    hostEffect (.rdv i) s = .fault .unwritten := by
  rw [hostEffect, h]

theorem hostEffect_wrs_byte (s : State) (i : SReg) (v : Byte) :
    hostEffect (.wrs i v.toNat) s = .next (s.writeS i v, .nothing) := by
  rw [hostEffect, BitVec.ofNat_toNat, BitVec.setWidth_eq]

theorem hostEffect_wrv_bytes (s : State) (i : VReg) (q : ByteSeq) :
    hostEffect (.wrv i (q.map (·.toNat))) s = .next (s.writeV i q, .nothing) := by
  rw [hostEffect, map_ofNat_map_toNat]

end Sys2Proof.Machine
end
section
/-! The obligations of the memory chapter: the frame, the core's step, the byte channel and the host
interface. -/

namespace Sys2Proof.Machine

/-- Settles O16: the inversion of `exec` gives what lies outside the Dests column, and that only
TBLINIT touches the table store. -/
theorem commandsChangeOnlyTheirDestinations : Obligations.CommandsChangeOnlyTheirDestinations := by
  intro i s t h
  have hk := exec_kept h
  refine ⟨hk.readS, hk.readV, hk.pending, hk.fault, fun hi => ?_⟩
  rcases exec_next h with ⟨primlo, gen, htbl⟩ | ho
  · exact absurd htbl (hi primlo gen)
  · obtain ⟨htables, htv, hprim, hgen⟩ := ho.tables_eq
    exact ⟨htables, htv, hprim, hgen, ho.freeCount_eq⟩

/-- Settles O59, by the outcomes of the pending word: a next state is retired, and keeps FAULT. -/
theorem oneCoreStepResolvesThePendingCommand :
    Obligations.OneCoreStepResolvesThePendingCommand := by
  intro s w hf hp
  rw [step_of_pending hf hp]
  rcases executeWord_resolves w s with ⟨t, ht⟩ | ht | ht <;> rw [ht]
  · exact .inl ⟨t.retire, rfl, rfl, (executeWord_fault_eq ht).trans hf⟩
  · exact .inr (.inl rfl)
  · exact .inr (.inr rfl)

/-- Settles O8: decoding a word's bytes is decoding the word. -/
theorem byteChannelCarriesTheWord : Obligations.ByteChannelCarriesTheWord := by
  intro w rest
  simp only [decodeBytes_wordToBytes]
  cases decode w with
  | ok j => exact ⟨rfl, fun i => by simp [Except.map], fun e => by simp [Except.map]⟩
  | error d => exact ⟨rfl, fun i => by simp [Except.map], fun e => by simp [Except.map]⟩

/-- Settles O10, by the three cases of a core step. -/
theorem stepRunsTheDecodedCommand : Obligations.StepRunsTheDecodedCommand := by
  refine ⟨fun s w i hf hp hd => ?_, fun s hf hp => step_of_idle hf hp,
    fun s f hf => step_of_fault hf⟩
  rw [step_of_pending hf hp, executeWord_ok hd]
  exact ⟨fun t ht => by rw [ht]; rfl, fun f hx => by rw [hx]; rfl⟩

/-- Settles O56: each operation is presentable and meets BUSY = 0, so its effect happens; the two
writes of data that is not presentable are refused. -/
theorem hostOperationsDoWhatTheirRowsSay : Obligations.HostOperationsDoWhatTheirRowsSay := by
  refine fun s hf => ⟨hostStep_rdstatus hf, fun hb => ⟨fun w => ?_, ?_, fun i v => ?_,
    fun i v hv => ?_, fun i q hq => ?_, fun i q hq => ?_, fun i v hv => ?_, fun i q hq => ?_⟩⟩
  · exact hostStep_of_idle hf hb rfl
  · exact hostStep_of_idle hf hb rfl
  · exact (hostStep_of_idle hf hb (presentable_wrs.mpr v.isLt)).trans (hostEffect_wrs_byte s i v)
  · exact (hostStep_of_idle hf hb rfl).trans (hostEffect_rds_some hv)
  · exact (hostStep_of_idle hf hb (presentable_wrv_bytes i hq)).trans (hostEffect_wrv_bytes s i q)
  · exact (hostStep_of_idle hf hb rfl).trans (hostEffect_rdv_some hq)
  · refine hostStep_of_not_presentable hf fun h => ?_
    exact absurd (presentable_wrs.mp h) (by omega)
  · refine hostStep_of_not_presentable hf fun h => ?_
    obtain ⟨hlen, hbytes⟩ := presentable_wrv.mp h
    rcases hq with hlong | ⟨v, hmem, hbig⟩
    · omega
    · exact absurd (hbytes v hmem) (by omega)

/-- Settles O57: BUSY = 1 is met first, and a read of an unwritten register faults while
BUSY = 0. -/
theorem hostProtocolViolationsFault : Obligations.HostProtocolViolationsFault := by
  refine fun s hf => ⟨fun op hb hop hp => hostStep_of_busy hf hp hb hop, fun i hb hr => ?_,
    fun i hb hr => ?_⟩
  · exact (hostStep_of_idle hf hb rfl).trans (hostEffect_rds_none hr)
  · exact (hostStep_of_idle hf hb rfl).trans (hostEffect_rdv_none hr)

end Sys2Proof.Machine
end
section
/-! Encoding and decoding: the word that a row's command encodes to, the rows that select a word, and
the errors of the decoder (R71 to R78). -/

namespace Sys2Proof

/-! ### A word rebuilt from the fields of its format -/

/-- The word with an opcode, the fields of `w` that a format uses, and 0 in the others (R72). -/
def Format.pack (f : Format) (opc : Byte) (w : CmdWord) : CmdWord :=
  match f with
  | .N => packWord opc 0 0 0 0 0#8
  | .T => packWord opc 0 0 (fieldB w) (fieldC w) (fieldImm w)
  | .DI => packWord opc (fieldD w) 0 0 0 (fieldImm w)
  | .DA => packWord opc (fieldD w) (fieldA w) 0 0 0#8
  | .DAB => packWord opc (fieldD w) (fieldA w) (fieldB w) 0 0#8
  | .DAI => packWord opc (fieldD w) (fieldA w) 0 0 (fieldImm w)
  | .DABC => packWord opc (fieldD w) (fieldA w) (fieldB w) (fieldC w) 0#8
  | .DABCI => packWord opc (fieldD w) (fieldA w) (fieldB w) (fieldC w) (fieldImm w)

/-- A word whose must-be-zero fields are 0 is its opcode and its format's fields, and nothing else. -/
theorem Format.pack_of_mustBeZero {f : Format} {w : CmdWord} (h : f.mustBeZero w) :
    f.pack (fieldOpc w) w = w := by
  conv_rhs => rw [← packWord_fields w]
  cases f <;> simp_all [Format.pack, Format.mustBeZero]

/-- GEN lies in the fields B and C of TBLINIT's word (R71, R74). -/
theorem encode_tblinit_fields (w : CmdWord) :
    encode (.tblinit (fieldImm w) (fieldGen w)) = Format.T.pack 0x01#8 w := by
  apply BitVec.eq_of_toNat_eq
  rw [encode_tblinit_toNat, Format.pack, packWord_toNat, fieldGen_toNat, fieldImm_toNat,
    fieldB_val, fieldC_val, BitVec.toNat_ofNat, Fin.val_zero]
  omega

/-- The encoder puts each field where the row of the map reads it (R75). -/
theorem encode_build (w : CmdWord) :
    ∀ r ∈ opcodeMap, encode (r.build w) = r.format.pack r.opc w := by
  simp only [opcodeMap, controlRows, fieldRows, dataRows, polyRows, encoderRows, decoderRows,
    List.cons_append, List.nil_append, List.forall_mem_cons]
  refine ⟨rfl, encode_tblinit_fields w, ?_⟩
  simp [encode, Format.pack]

/-- A row that selects a word builds a command whose encoding is that word. -/
theorem encode_build_of_selects {r : Row} {w : CmdWord} (hr : r ∈ opcodeMap)
    (hs : r.selects w = true) : encode (r.build w) = w := by
  obtain ⟨hopc, hzero⟩ := (selects_iff r w).mp hs
  rw [encode_build w r hr, ← hopc, Format.pack_of_mustBeZero hzero]

/-! ### The row of a word -/

theorem selects_iff_mask {r : Row} {w : CmdWord} :
    r.selects w = true ↔ w &&& r.format.mask = r.opc ++ 0#24 :=
  beq_iff_eq

/-- At most one row selects a word (R76). -/
theorem row_unique {r r' : Row} {w : CmdWord} (hr : r ∈ opcodeMap) (hr' : r' ∈ opcodeMap)
    (hs : r.selects w = true) (hs' : r'.selects w = true) : r = r' :=
  Option.some.inj ((selectRow_of_selects hr hs).symm.trans (selectRow_of_selects hr' hs'))

/-! ### The command of a word -/

@[simp] theorem fieldOpc_tblinit (primlo gen : Byte) :
    fieldOpc (encode (.tblinit primlo gen)) = 0x01#8 := by
  apply BitVec.eq_of_toNat_eq
  rw [fieldOpc_toNat, encode_tblinit_toNat, BitVec.toNat_ofNat]
  omega

/-- The row with the opcode of a command's word reads the command's operands back. -/
theorem build_encode (i : Instr) :
    ∀ r ∈ opcodeMap, fieldOpc (encode i) = r.opc → r.build (encode i) = i := by
  simp only [opcodeMap, controlRows, fieldRows, dataRows, polyRows, encoderRows, decoderRows,
    List.cons_append, List.nil_append, List.forall_mem_cons]
  cases i with
  | tblinit primlo gen => simp
  | _ => simp [encode]

theorem decode_encode (i : Instr) : decode (encode i) = .ok i := by
  obtain ⟨r, hr, hs⟩ := Laws.RowSelects.all i
  have hopc := ((selects_iff r (encode i)).mp hs).1
  rw [decode_of_selects hr hs, build_encode i r hr hopc]

theorem encode_of_decode {w : CmdWord} {i : Instr} (h : decode w = .ok i) : encode i = w := by
  obtain ⟨r, hr, hs, rfl⟩ := decode_ok h
  exact encode_build_of_selects hr hs

/-! ### The words that are no command -/

/-- A word no row selects is no command (R76); `decode_error` is the converse. -/
theorem decode_error_of_not_selects {w : CmdWord} (h : ∀ r ∈ opcodeMap, r.selects w = false) :
    ∃ e, decode w = .error e := by
  cases hd : decode w with
  | ok i =>
    obtain ⟨r, hr, hs, -⟩ := decode_ok hd
    simp [h r hr] at hs
  | error e => exact ⟨e, rfl⟩

/-- Which of its two errors the decoder gives: whether the opcode is in the map (R76, R78). -/
theorem decode_eq_error_cases {w : CmdWord} {e : DecodeError} (h : decode w = .error e) :
    ((∃ r ∈ opcodeMap, r.opc = fieldOpc w) ∧ e = .nonzeroMustBeZero (fieldOpc w)) ∨
      ((∀ r ∈ opcodeMap, r.opc ≠ fieldOpc w) ∧ e = .reservedOpcode (fieldOpc w)) := by
  unfold decode at h
  split at h
  · cases h
  · split at h
    next hopc => exact .inl ⟨by simpa using hopc, (Except.error.inj h).symm⟩
    next hopc => exact .inr ⟨by simpa using hopc, (Except.error.inj h).symm⟩

/-- A word's opcode is reserved exactly when it is none of the map's (R78). -/
theorem decode_eq_reserved_iff {w : CmdWord} :
    decode w = .error (.reservedOpcode (fieldOpc w)) ↔ ∀ r ∈ opcodeMap, r.opc ≠ fieldOpc w := by
  constructor
  · intro h
    rcases decode_eq_error_cases h with ⟨-, he⟩ | ⟨hopc, -⟩
    · cases he
    · exact hopc
  · intro hopc
    obtain ⟨e, he⟩ := decode_error_of_not_selects (w := w) fun r hr =>
      Bool.eq_false_iff.mpr fun hs => hopc r hr ((selects_iff r w).mp hs).1.symm
    rcases decode_eq_error_cases he with ⟨⟨r, hr, ho⟩, -⟩ | ⟨-, rfl⟩
    · exact absurd ho (hopc r hr)
    · exact he

/-- A word with opcode 0x00 that is a command is the word of NOP, 0x00000000 (R78). -/
theorem eq_zero_of_decode_ok {w : CmdWord} {i : Instr} (ho : fieldOpc w = 0x00#8)
    (h : decode w = .ok i) : w = 0#32 := by
  obtain ⟨r, hr, hs, -⟩ := decode_ok h
  obtain ⟨hopc, hzero⟩ := (selects_iff r w).mp hs
  have hnop : ∀ r ∈ opcodeMap, r.opc = 0x00#8 → r.format = .N := by decide
  rw [hnop r hr (hopc.symm.trans ho)] at hzero
  rw [← Format.pack_of_mustBeZero hzero, ho]
  rfl

/-- The opcodes of R78's ranges are those the map leaves out. -/
theorem reserved_ranges_iff (opc : Byte) :
    (0x03 ≤ opc.toNat ∧ opc.toNat ≤ 0x0F ∨ 0x17 ≤ opc.toNat ∧ opc.toNat ≤ 0x1F ∨
      0x24 ≤ opc.toNat ∧ opc.toNat ≤ 0x2F ∨ 0x35 ≤ opc.toNat ∧ opc.toNat ≤ 0x3F ∨
      0x42 ≤ opc.toNat ∧ opc.toNat ≤ 0x4F ∨ 0x58 ≤ opc.toNat) ↔
      ∀ r ∈ opcodeMap, r.opc ≠ opc := by
  have hopcs : opcodeMap.map (·.opc.toNat) =
      [0x00, 0x01, 0x02, 0x10, 0x11, 0x12, 0x13, 0x14, 0x15, 0x16, 0x20, 0x21, 0x22, 0x23, 0x30, 0x31,
        0x32, 0x33, 0x34, 0x40, 0x41, 0x50, 0x51, 0x52, 0x53, 0x54, 0x55, 0x56, 0x57] := rfl
  have hmem : (∀ r ∈ opcodeMap, r.opc ≠ opc) ↔ opc.toNat ∉ opcodeMap.map (·.opc.toNat) := by
    simp [BitVec.toNat_inj]
  rw [hmem, hopcs]
  simp only [List.mem_cons, List.not_mem_nil, or_false]
  omega

end Sys2Proof

namespace Sys2Proof.Machine

/-! ### Table-using commands -/

theorem execTblinit_ne_fault (primlo gen : Byte) (s : State) (f : Fault) :
    execTblinit primlo gen s ≠ .fault f := by
  unfold execTblinit
  split <;> exact nofun

/-- A command faults F_TABLES_INVALID exactly when it is legal, uses the tables and TV = 0 (R80). -/
theorem exec_tablesInvalid_iff {i : Instr} {s : State} :
    exec i s = .fault .tablesInvalid ↔ i.wf = true ∧ i.tableUsing = true ∧ s.tv = false := by
  have blocked (h : i.MayReadSources s) : ¬ (i.wf = true ∧ i.tableUsing = true ∧ s.tv = false) :=
    fun ⟨_, ht, hv⟩ => by simp [h.2 ht] at hv
  have ha := exec_answers i s
  generalize exec i s = r at ha
  cases ha with
  | illegal hw => simp [illegal, hw]
  | noTables hw ht hv => simp [hw, ht, hv]
  | unwritten h => simp [blocked h]
  | nop hi => simp [hi, Instr.tableUsing]
  | tblinit primlo gen hi => simp [hi, Instr.tableUsing, execTblinit_ne_fault]
  | scalar d out h => exact iff_of_false (finishS_ne_fault s d out _) (blocked h.1)
  | buffer d out h => exact iff_of_false (finishV_ne_fault s d out _) (blocked h.1)
  | buffers d c out h => exact iff_of_false (finishVV_ne_fault s d c out _) (blocked h.1)

/-! ### Illegal commands -/

/-- PDIV with D = C (R77). -/
theorem exec_pdiv_self (d a b : VReg) (s : State) : exec (.pdiv d d a b) s = illegal s := by
  rw [exec, execPdiv, if_pos rfl]

/-- CORRECT with D = C (R77). -/
theorem exec_correct_self (d a b : VReg) (r : Byte) (s : State) :
    exec (.correct d d a b r) s = illegal s := by
  rw [exec, execCorrect, if_pos rfl]

/-- A pending word that is no command sets CODE and is retired (R76). -/
theorem step_of_decode_error {w : CmdWord} {e : DecodeError} {s : State} (hf : s.fault = none)
    (hp : s.pending = some w) (h : decode w = .error e) :
    step s = .next (s.setCode .illegalCommand).retire := by
  rw [step_of_pending hf hp, executeWord_error h]
  rfl

end Sys2Proof.Machine
end
section
/-! The obligations of the encoding chapter: decoder and encoder, illegal words, R80's fault and the
pseudo-instructions. -/

namespace Sys2Proof.Machine

/-- Settles O4, by the row that selects a command's word. -/
theorem decodeOfEncodeIsTheCommand : Obligations.DecodeOfEncodeIsTheCommand := decode_encode

/-- Settles O5, by the row that selects the word. -/
theorem decodedWordIsTheEncoding : Obligations.DecodedWordIsTheEncoding :=
  fun _ _ => encode_of_decode

/-- Settles O6: a word no row selects is an error of the decoder, whose kind the opcode decides. -/
theorem illegalWordsSetTheCodeAlone : Obligations.IllegalWordsSetTheCodeAlone := by
  refine ⟨fun w s hno hf hp => ?_, fun w r r' hr hr' hs hs' => ?_, fun w => ?_, fun w ho hw => ?_⟩
  · obtain ⟨e, he⟩ := decode_error_of_not_selects (w := w) fun r hr =>
      Bool.eq_false_iff.mpr fun hs => hno r hr (selects_iff_mask.mp hs)
    exact step_of_decode_error hf hp he
  · rw [row_unique hr hr' hs hs']
  · exact (reserved_ranges_iff (fieldOpc w)).trans decode_eq_reserved_iff.symm
  · cases hd : decode w with
    | ok i => exact absurd (eq_zero_of_decode_ok ho hd) hw
    | error e =>
      rcases decode_eq_error_cases hd with ⟨-, rfl⟩ | ⟨hopc, -⟩
      · rw [ho]
      · exact absurd ho.symm (hopc opcodeMap[0] (List.getElem_mem _))

/-- Settles O12: F_TABLES_INVALID is raised exactly when a legal command needs tables and TV = 0. -/
theorem tableUsingCommandsNeedTv : Obligations.TableUsingCommandsNeedTv := by
  refine fun i s hw => ⟨fun ht hv => exec_tablesInvalid_iff.mpr ⟨hw, ht, hv⟩, fun ht h => ?_⟩
  obtain ⟨-, ht', -⟩ := exec_tablesInvalid_iff.mp h
  simp [ht] at ht'

/-- Settles O9: each mnemonic of R82 has one row that fits its operands. -/
theorem pseudoInstructionsExpand : Obligations.PseudoInstructionsExpand :=
  ⟨rfl, fun _ _ _ => rfl, fun _ _ _ => rfl, fun _ _ => rfl, fun _ => rfl, fun _ => rfl⟩

/-- Settles O11: the two words decode, and D = C is settled before anything else. -/
theorem oneBufferAsBothDestinationsIsIllegal : Obligations.OneBufferAsBothDestinationsIsIllegal :=
  fun d a b r s => ⟨decode_encode _, decode_encode _, exec_pdiv_self d a b s,
    exec_correct_self d a b r s⟩

end Sys2Proof.Machine
end
section
/-! `ring_mul` is multiplication modulo x^8 + PRIMLO (R100, R102, R117). Its properties follow from one
fact: a map that adds and commutes with multiplication by x also commutes with `ring_mul`. -/

namespace Sys2Proof.Machine

/-! ### Multiplication by x -/

@[simp] theorem mulx_zero (primlo : Byte) : mulx 0#8 primlo = 0#8 := by
  simp [mulx]

/-- Multiplication by x adds: shifting does, and so does the choice whether to reduce. -/
theorem mulx_xor (v w primlo : Byte) : mulx (v ^^^ w) primlo = mulx v primlo ^^^ mulx w primlo := by
  have hreduce : (if (v ^^^ w).getLsbD 7 then primlo else 0#8) =
      (if v.getLsbD 7 then primlo else 0#8) ^^^ (if w.getLsbD 7 then primlo else 0#8) := by
    rw [BitVec.getLsbD_xor]
    cases v.getLsbD 7 <;> cases w.getLsbD 7 <;> simp
  rw [mulx, hreduce, BitVec.shiftLeft_xor_distrib, mulx, mulx]
  ac_rfl

/-! ### The turns of R102's loop -/

/-- A map that adds and commutes with multiplication by x commutes with a turn. -/
theorem map_ringMulTurn {f : Byte → Byte} {primlo : Byte} (hadd : ∀ v w, f (v ^^^ w) = f v ^^^ f w)
    (hx : ∀ v, f (mulx v primlo) = mulx (f v) primlo) (b : Byte) (ra : Byte × Byte) (j : Nat) :
    ringMulTurn b primlo (Prod.map f f ra) j = Prod.map f f (ringMulTurn b primlo ra j) := by
  refine Prod.ext ?_ (hx ra.2).symm
  dsimp only [ringMulTurn, Prod.map]
  split
  · exact (hadd _ _).symm
  · rfl

/-- A map that adds and commutes with multiplication by x commutes with `ring_mul`. -/
theorem map_ringMul {f : Byte → Byte} {primlo : Byte} (hadd : ∀ v w, f (v ^^^ w) = f v ^^^ f w)
    (hx : ∀ v, f (mulx v primlo) = mulx (f v) primlo) (a b : Byte) :
    f (ringMul a b primlo) = ringMul (f a) b primlo := by
  have hzero : f 0#8 = 0#8 := by
    have h := hadd 0#8 0#8
    rwa [BitVec.xor_self, BitVec.xor_self] at h
  have hfold := List.foldl_hom (Prod.map f f) (l := List.range 8) (init := (0#8, a))
    (fun ra j => map_ringMulTurn hadd hx b ra j)
  rw [Prod.map_apply, hzero] at hfold
  exact (congrArg Prod.fst hfold).symm

/-- Two runs of the loop, added. -/
theorem ringMulTurn_xor (b primlo : Byte) (x y : Byte × Byte) (j : Nat) :
    ringMulTurn b primlo (x.1 ^^^ y.1, x.2 ^^^ y.2) j =
      ((ringMulTurn b primlo x j).1 ^^^ (ringMulTurn b primlo y j).1,
        (ringMulTurn b primlo x j).2 ^^^ (ringMulTurn b primlo y j).2) := by
  refine Prod.ext ?_ (mulx_xor ..)
  dsimp only [ringMulTurn]
  split
  · ac_rfl
  · rfl

/-! ### The ring -/

theorem ringMul_xor_left (a b c primlo : Byte) :
    ringMul (a ^^^ b) c primlo = ringMul a c primlo ^^^ ringMul b c primlo := by
  have hfold := List.foldl_hom₂ (List.range 8) (fun x y => (x.1 ^^^ y.1, x.2 ^^^ y.2)) _ _ _
    (0#8, a) (0#8, b) fun x y j => (ringMulTurn_xor c primlo x y j).symm
  rw [BitVec.xor_self] at hfold
  exact congrArg Prod.fst hfold

theorem mulx_ringMul (a b primlo : Byte) :
    mulx (ringMul a b primlo) primlo = ringMul (mulx a primlo) b primlo :=
  map_ringMul (f := (mulx · primlo)) (fun v w => mulx_xor v w primlo) (fun _ => rfl) a b

/-- Multiplication by c adds and commutes with multiplication by x, so it commutes with `ring_mul`. -/
theorem ringMul_right_comm (a b c primlo : Byte) :
    ringMul (ringMul a b primlo) c primlo = ringMul (ringMul a c primlo) b primlo :=
  map_ringMul (f := (ringMul · c primlo)) (fun v w => ringMul_xor_left v w c primlo)
    (fun v => (mulx_ringMul v c primlo).symm) a b

theorem ringMul_comm (a b primlo : Byte) : ringMul a b primlo = ringMul b a primlo := by
  have h := ringMul_right_comm 1#8 a b primlo
  rwa [ringMul_one_left, ringMul_one_left] at h

theorem ringMul_assoc (a b c primlo : Byte) :
    ringMul (ringMul a b primlo) c primlo = ringMul a (ringMul b c primlo) primlo := by
  rw [ringMul_comm a b, ringMul_right_comm, ringMul_comm]

theorem ringMul_xor_right (a b c primlo : Byte) :
    ringMul a (b ^^^ c) primlo = ringMul a b primlo ^^^ ringMul a c primlo := by
  rw [ringMul_comm a, ringMul_xor_left, ringMul_comm b, ringMul_comm c]

@[simp] theorem ringMul_one_right (a primlo : Byte) : ringMul a 1#8 primlo = a := by
  rw [ringMul_comm, ringMul_one_left]

@[simp] theorem ringMul_zero_left (b primlo : Byte) : ringMul 0#8 b primlo = 0#8 :=
  (map_ringMul (f := fun _ => 0#8) (by simp) (by simp) 0#8 b).symm

@[simp] theorem ringMul_zero_right (a primlo : Byte) : ringMul a 0#8 primlo = 0#8 := by
  rw [ringMul_comm, ringMul_zero_left]

/-- 2 is x: multiplying by it is multiplication by x (R102's remark). -/
theorem ringMul_two_right (v primlo : Byte) : ringMul v 2#8 primlo = mulx v primlo := by
  have hx : mulx 1#8 primlo = 2#8 := mulx_twoPow primlo (j := 0) (by decide)
  rw [ringMul_comm, ← hx, ← mulx_ringMul, ringMul_one_left]

end Sys2Proof.Machine
end
section
/-! The powers of GEN: the values R103's loop lists, and how they multiply. With the tables of a
full-period pair `gf_mul` is `ring_mul` (R117). -/

namespace Sys2Proof.Machine

/-- GEN to the n-th power, modulo x^8 + PRIMLO. -/
def genPower (primlo gen : Byte) : Nat → Byte
  | 0 => 1#8
  | n + 1 => ringMul (genPower primlo gen n) gen primlo

theorem genPower_zero (primlo gen : Byte) : genPower primlo gen 0 = 1#8 := rfl

theorem genPower_succ (primlo gen : Byte) (n : Nat) :
    genPower primlo gen (n + 1) = ringMul (genPower primlo gen n) gen primlo := rfl

/-- R103's loop, entered at the k-th power, lists the n powers from there on. -/
theorem powerRun_genPower (primlo gen : Byte) (n k : Nat) :
    powerRun gen primlo n (genPower primlo gen k) =
      ((List.range' k n).map (genPower primlo gen), genPower primlo gen (k + n)) := by
  induction n generalizing k with
  | zero => rfl
  | succ n ih =>
    rw [powerRun, ← genPower_succ, ih, List.range'_succ, List.map_cons, Nat.add_right_comm,
      Nat.add_assoc]

theorem powers_eq (primlo gen : Byte) :
    powers primlo gen = (List.range 255).map (genPower primlo gen) := by
  rw [powers, ← genPower_zero primlo gen, powerRun_genPower, List.range_eq_range']

theorem getD_powers (primlo gen : Byte) {i : Nat} (hi : i < 255) :
    (powers primlo gen).getD i 0#8 = genPower primlo gen i := by
  simp [powers_eq, hi]

/-- R103's test: the 255 powers are distinct and nonzero, and the next one is 1. -/
theorem fullPeriod_iff_powers (primlo gen : Byte) :
    fullPeriod primlo gen = true ↔
      (powers primlo gen).Nodup ∧ 0#8 ∉ powers primlo gen ∧ genPower primlo gen 255 = 1#8 := by
  rw [fullPeriod_iff, ← genPower_zero primlo gen, powerRun_genPower]
  tauto

theorem genPower_add (primlo gen : Byte) (m n : Nat) :
    genPower primlo gen (m + n) = ringMul (genPower primlo gen m) (genPower primlo gen n) primlo := by
  induction n with
  | zero => exact (ringMul_one_right ..).symm
  | succ n ih => rw [← Nat.add_assoc, genPower_succ, ih, ringMul_assoc, genPower_succ]

/-- The powers of a full-period pair repeat after 255. -/
theorem genPower_mod {primlo gen : Byte} (h : fullPeriod primlo gen = true) (n : Nat) :
    genPower primlo gen (n % 255) = genPower primlo gen n := by
  obtain ⟨-, -, hone⟩ := (fullPeriod_iff_powers primlo gen).mp h
  have hperiodic : Function.Periodic (genPower primlo gen) 255 := fun n => by
    rw [genPower_add, hone, ringMul_one_right]
  exact hperiodic.map_mod_nat n

/-- α^i of a full-period pair is GEN^i, for every i (R108). -/
theorem alpha_buildTables {primlo gen : Byte} (h : fullPeriod primlo gen = true) (i : Nat) :
    alpha (buildTables primlo gen) (i % 255) = genPower primlo gen i := by
  have hi : i % 255 < 255 := Nat.mod_lt i (by decide)
  rw [buildTables, alpha_tablesOf _ hi, getD_powers _ _ hi, genPower_mod h]

/-- LOG gives every nonzero byte as a power of GEN. -/
theorem genPower_logOf {primlo gen : Byte} (h : fullPeriod primlo gen = true) {x : Byte}
    (hx : x ≠ 0#8) : genPower primlo gen (logOf (buildTables primlo gen) x) = x := by
  obtain ⟨-, hlog, -⟩ := buildTables_valid h
  obtain ⟨hle, hx'⟩ := hlog x hx
  rwa [← alpha_buildTables h, Nat.mod_eq_of_lt (by omega)]

/-- Adding logarithms modulo 255 multiplies modulo x^8 + PRIMLO (R117). -/
theorem gfMul_buildTables {primlo gen : Byte} (h : fullPeriod primlo gen = true) (a b : Byte) :
    gfMul (buildTables primlo gen) a b = ringMul a b primlo := by
  unfold gfMul
  split
  next hzero => rcases hzero with rfl | rfl <;> simp
  next hne =>
    obtain ⟨ha, hb⟩ := not_or.mp hne
    rw [alpha_buildTables h, genPower_add, genPower_logOf h ha, genPower_logOf h hb]

/-- EXP[i] = e[i] and LOG[e[i]] = i, for the powers e of a full-period pair (R103). -/
theorem buildTables_powers {primlo gen : Byte} (h : fullPeriod primlo gen = true) {i : Nat}
    (hi : i < 255) :
    alpha (buildTables primlo gen) i = (powers primlo gen).getD i 0#8 ∧
      logOf (buildTables primlo gen) ((powers primlo gen).getD i 0#8) = i := by
  obtain ⟨hn, h0, -⟩ := (fullPeriod_iff_powers primlo gen).mp h
  have halpha := alpha_tablesOf (powers primlo gen) hi
  exact ⟨halpha, halpha ▸ logOf_alpha_tablesOf (length_powers primlo gen) hn h0 hi⟩

end Sys2Proof.Machine
end
section
/-! The field functions on valid tables: every nonzero byte is a power of α, and on powers of α the
functions add and subtract exponents (R105 to R109). -/

namespace Sys2Proof.Machine

theorem alpha_congr (t : Tables) {i j : Nat} (h : i % 255 = j % 255) : alpha t i = alpha t j := by
  simp only [alpha, h]

@[simp] theorem gfMul_zero_left (t : Tables) (b : Byte) : gfMul t 0#8 b = 0#8 :=
  if_pos (.inl rfl)

theorem gfDiv_zero_left (t : Tables) {b : Byte} (hb : b ≠ 0#8) : gfDiv t 0#8 b = .ok 0#8 := by
  rw [gfDiv, if_neg hb, if_pos rfl]

section
variable {t : Tables} (h : t.Valid)
include h

theorem Tables.Valid.alpha_ne_zero (i : Nat) : alpha t i ≠ 0#8 :=
  (h.1 ⟨i % 255, Nat.mod_lt i (by decide)⟩).1

theorem Tables.Valid.logOf_alpha (i : Nat) : logOf t (alpha t i) = i % 255 :=
  (h.1 ⟨i % 255, Nat.mod_lt i (by decide)⟩).2

theorem Tables.Valid.alpha_logOf {x : Byte} (hx : x ≠ 0#8) : alpha t (logOf t x) = x :=
  (h.2.1 x hx).2

/-- α^0 = 1, and so is every power whose exponent is a multiple of 255. -/
theorem Tables.Valid.alpha_eq_one {i : Nat} (hi : i % 255 = 0) : alpha t i = 1#8 :=
  (alpha_congr t hi).trans h.2.2

/-- Every nonzero byte is a power of α. -/
theorem Tables.Valid.exists_alpha {x : Byte} (hx : x ≠ 0#8) : ∃ i < 255, x = alpha t i := by
  obtain ⟨hle, hx'⟩ := h.2.1 x hx
  exact ⟨logOf t x, by omega, hx'.symm⟩

theorem Tables.Valid.gfMul_alpha (i j : Nat) :
    gfMul t (alpha t i) (alpha t j) = alpha t (i + j) := by
  rw [gfMul, if_neg (not_or.mpr ⟨h.alpha_ne_zero i, h.alpha_ne_zero j⟩), h.logOf_alpha,
    h.logOf_alpha]
  exact alpha_congr t (by omega)

theorem Tables.Valid.gfDiv_alpha (i : Nat) {j : Nat} (hj : j < 255) :
    gfDiv t (alpha t i) (alpha t j) = .ok (alpha t (i + (255 - j))) := by
  rw [gfDiv, if_neg (h.alpha_ne_zero j), if_neg (h.alpha_ne_zero i), h.logOf_alpha, h.logOf_alpha]
  exact congrArg _ (alpha_congr t (by omega))

theorem Tables.Valid.gfInv_alpha {i : Nat} (hi : i < 255) :
    gfInv t (alpha t i) = .ok (alpha t (255 - i)) := by
  rw [gfInv, if_neg (h.alpha_ne_zero i), h.logOf_alpha]
  exact congrArg _ (alpha_congr t (by omega))

/-- Division is undone by multiplication (R118). -/
theorem Tables.Valid.gfDiv_gfMul {a b : Byte} (ha : a ≠ 0#8) (hb : b ≠ 0#8) :
    ∃ q, gfDiv t a b = .ok q ∧ gfMul t q b = a := by
  obtain ⟨i, -, rfl⟩ := h.exists_alpha ha
  obtain ⟨j, hj, rfl⟩ := h.exists_alpha hb
  refine ⟨_, h.gfDiv_alpha i hj, ?_⟩
  rw [h.gfMul_alpha]
  exact alpha_congr t (by omega)

/-- A nonzero byte times its inverse is 1 (R118). -/
theorem Tables.Valid.gfMul_gfInv {a : Byte} (ha : a ≠ 0#8) :
    ∃ v, gfInv t a = .ok v ∧ gfMul t a v = 1#8 := by
  obtain ⟨i, hi, rfl⟩ := h.exists_alpha ha
  refine ⟨_, h.gfInv_alpha hi, ?_⟩
  rw [h.gfMul_alpha]
  exact h.alpha_eq_one (by omega)

/-- The powers of α below 255 other than α^0 differ from it (R118). -/
theorem Tables.Valid.alpha_ne_alpha_zero {p : Nat} (hp : 0 < p) (hlt : p < 255) :
    alpha t p ≠ alpha t 0 := by
  intro heq
  have hlog := congrArg (logOf t) heq
  rw [h.logOf_alpha, h.logOf_alpha] at hlog
  omega

/-- To divide is to multiply by the inverse, also for a dividend of 0. -/
theorem Tables.Valid.gfDiv_eq_gfMul_gfInv (a : Byte) {b : Byte} (hb : b ≠ 0#8) :
    ∃ v, gfInv t b = .ok v ∧ gfDiv t a b = .ok (gfMul t a v) := by
  by_cases ha : a = 0#8
  · subst ha
    obtain ⟨v, hv, -⟩ := h.gfMul_gfInv hb
    exact ⟨v, hv, by rw [gfDiv_zero_left t hb, gfMul_zero_left]⟩
  · obtain ⟨i, -, rfl⟩ := h.exists_alpha ha
    obtain ⟨j, hj, rfl⟩ := h.exists_alpha hb
    exact ⟨_, h.gfInv_alpha hj, by rw [h.gfDiv_alpha i hj, h.gfMul_alpha]⟩

end

end Sys2Proof.Machine
end
section
/-! The encoding of a command from its row of the map (R75), and the run of a command whose checks
pass (R79). -/

namespace Sys2Proof.Machine

/-! ### Encodings -/

theorem decode_of_encode_eq {w : CmdWord} {i : Instr} (h : encode i = w) : decode w = .ok i :=
  h ▸ decode_encode i

/-- A command is encoded by the row that has its word's opcode: opcodes are distinct (R75). -/
theorem hasEncoding_of_opc {i : Instr} {r : Row} (hr : r ∈ opcodeMap)
    (ho : fieldOpc (encode i) = r.opc) : HasEncoding i r.opc r.format.mask := by
  obtain ⟨r', hr', hs⟩ := Laws.RowSelects.all i
  have hopc : r'.opc = r.opc := ((selects_iff r' _).mp hs).1.symm.trans ho
  have hrow : r' = r := List.inj_on_of_nodup_map
    (List.pairwise_map.mpr opcodeMap_opcs_distinct) hr' hr hopc
  subst hrow
  exact ⟨selects_iff_mask.mp hs, decode_encode i⟩

/-- The row of the map at an index, as the row of a command. -/
theorem hasEncoding_of_index {i : Instr} (k : Nat) (hk : k < opcodeMap.length)
    (ho : fieldOpc (encode i) = opcodeMap[k].opc) :
    HasEncoding i opcodeMap[k].opc opcodeMap[k].format.mask :=
  hasEncoding_of_opc (List.getElem_mem hk) ho

/-! ### A command past its checks -/

section
variable {s : State} {a b : SReg} {x y : Byte}

/-- Two written scalar sources are read. -/
theorem sourceS_sourceS (hx : s.readS a = some x) (hy : s.readS b = some y)
    (k : Byte → Byte → Result) :
    (sourceS s a fun x => sourceS s b fun y => k x y) = k x y := by
  rw [sourceS_some s a _ x hx, sourceS_some s b _ y hy]

/-- A table-using command with one scalar source. -/
theorem requireTables_sourceS (hv : s.tv = true) (hx : s.readS a = some x) (k : Byte → Result) :
    requireTables s (sourceS s a k) = k x := by
  rw [requireTables_true s _ hv, sourceS_some s a k x hx]

/-- A table-using command with two scalar sources. -/
theorem requireTables_sourceS_sourceS (hv : s.tv = true) (hx : s.readS a = some x)
    (hy : s.readS b = some y) (k : Byte → Byte → Result) :
    (requireTables s <| sourceS s a fun x => sourceS s b fun y => k x y) = k x y := by
  rw [requireTables_true s _ hv, sourceS_sourceS hx hy]

end

theorem finishS_ok (s : State) (d : SReg) (v : Byte) :
    finishS s d (.ok v) = .next { s with sreg := s.sreg.set d (some v), code := .ok } := rfl

/-- A raise writes the code alone (R305). -/
theorem finishS_error (s : State) (d : SReg) (c : Raise) :
    finishS s d (.error c) = .next { s with code := c.toCode } := rfl

/-! ### The commands of the field engine -/

/-- TBLINIT on a pair with a full period (R103). -/
theorem exec_tblinit_of_fullPeriod {primlo gen : Byte} (s : State)
    (h : fullPeriod primlo gen = true) :
    exec (.tblinit primlo gen) s = .next { s with
      tables := buildTables primlo gen, tv := true, prim := 0x100#9 + primlo.setWidth 9,
      gen := gen, code := .ok } := by
  rw [exec, execTblinit, if_pos h, State.setCode, State.installTables]

/-- TBLINIT on any other pair (R103, R305). -/
theorem exec_tblinit_of_not_fullPeriod {primlo gen : Byte} (s : State)
    (h : ¬ fullPeriod primlo gen = true) :
    exec (.tblinit primlo gen) s = .next { s with
      tables := freeTables s.freeCount, tv := false, code := .configError,
      freeCount := s.freeCount + 1 } := by
  rw [exec, execTblinit, if_neg h, State.setCode, State.dropTables, Raise.toCode]

section
variable {s : State} {a b : SReg} {x y : Byte} (d : SReg)

theorem exec_gadd (hx : s.readS a = some x) (hy : s.readS b = some y) :
    exec (.gadd d a b) s = finishS s d (.ok (x ^^^ y)) :=
  sourceS_sourceS hx hy fun x y => finishS s d (.ok (gfAdd x y))

variable (hv : s.tv = true) (hx : s.readS a = some x)
include hv hx

theorem exec_gmul (hy : s.readS b = some y) :
    exec (.gmul d a b) s = finishS s d (.ok (gfMul s.tables x y)) :=
  requireTables_sourceS_sourceS hv hx hy fun x y => finishS s d (.ok (gfMul s.tables x y))

theorem exec_gdiv (hy : s.readS b = some y) :
    exec (.gdiv d a b) s = finishS s d (gfDiv s.tables x y) :=
  requireTables_sourceS_sourceS hv hx hy fun x y => finishS s d (gfDiv s.tables x y)

theorem exec_gpow (hy : s.readS b = some y) :
    exec (.gpow d a b) s = finishS s d (.ok (gfPow s.tables x y.toNat)) :=
  requireTables_sourceS_sourceS hv hx hy fun x y => finishS s d (.ok (gfPow s.tables x y.toNat))

theorem exec_ginv : exec (.ginv d a) s = finishS s d (gfInv s.tables x) :=
  requireTables_sourceS hv hx fun x => finishS s d (gfInv s.tables x)

theorem exec_glog : exec (.glog d a) s = finishS s d (glogOut s.tables x) :=
  requireTables_sourceS hv hx fun x => finishS s d (glogOut s.tables x)

theorem exec_gexp : exec (.gexp d a) s = finishS s d (gexpOut s.tables x) :=
  requireTables_sourceS hv hx fun x => finishS s d (gexpOut s.tables x)

end

/-! ### The values of the field functions -/

theorem gfDiv_of_ne_zero (t : Tables) (x : Byte) {y : Byte} (hy : y ≠ 0#8) :
    gfDiv t x y = .ok (if x = 0#8 then 0#8 else alpha t ((logOf t x + 255 - logOf t y) % 255)) := by
  rw [gfDiv, if_neg hy]
  split <;> rfl

theorem gfPow_toNat (t : Tables) (x y : Byte) :
    gfPow t x y.toNat = if x = 0#8 ∧ y = 0#8 then 1#8 else if x = 0#8 then 0#8
      else alpha t (logOf t x * y.toNat % 255) := by
  have hy : y.toNat = 0 ↔ y = 0#8 := BitVec.toNat_inj (y := 0#8)
  by_cases hx : x = 0#8 <;> simp [gfPow, hx, hy]

theorem glogOut_of_ne_zero (t : Tables) {x : Byte} (hx : x ≠ 0#8) :
    glogOut t x = .ok (t.log[x.toNat - 1]'(by have := x.isLt; omega)) := by
  simp [glogOut, hx, logOf]

theorem gexpOut_of_lt (t : Tables) {x : Byte} (hx : x.toNat < 255) :
    gexpOut t x = .ok t.exp[x.toNat] := by
  simp [gexpOut, alpha, Nat.mod_eq_of_lt hx, Nat.not_le.mpr hx]

end Sys2Proof.Machine
end
section
/-! The obligations of the field engine. -/

namespace Sys2Proof.Machine

/-- Settles O23: on powers of α the functions add and subtract exponents modulo 255. -/
theorem fieldDivisionUndoesMultiplication : Obligations.FieldDivisionUndoesMultiplication :=
  fun t h => ⟨fun _ _ => h.gfDiv_gfMul, fun _ => h.gfMul_gfInv,
    fun i hi => (h.logOf_alpha i).trans (Nat.mod_eq_of_lt hi), fun _ => h.alpha_logOf,
    fun i => alpha_congr t (Nat.add_mod_right i 255), fun _ => h.alpha_ne_alpha_zero,
    fun a _ => h.gfDiv_eq_gfMul_gfInv a⟩

/-- Settles O24: the powers of GEN multiply by adding exponents, and `ring_mul` commutes with every map
that adds and commutes with multiplication by x. -/
theorem gfMulIsRingMultiplication : Obligations.GfMulIsRingMultiplication :=
  fun primlo _ h => ⟨gfMul_buildTables h, fun a b => ringMul_comm a b primlo,
    fun a b c => ringMul_assoc a b c primlo, fun a b c => ringMul_xor_right a b c primlo⟩

/-- Settles O26, with the list of powers R103's loop makes. -/
theorem tblinitBuildsTheTables : Obligations.TblinitBuildsTheTables := by
  refine fun primlo gen s => ⟨hasEncoding_of_index 1 (by decide) (fieldOpc_tblinit primlo gen),
    powers primlo gen, length_powers primlo gen, powers_zero primlo gen, fun i hi => ?_, ?_⟩
  · rw [getD_powers _ _ (by omega), getD_powers _ _ (by omega), genPower_succ]
  · rw [getD_powers _ _ (by decide), ← genPower_succ, ← fullPeriod_iff_powers]
    exact ⟨fun h => ⟨buildTables primlo gen, fun i => buildTables_powers h,
        exec_tblinit_of_fullPeriod s h⟩,
      fun h => ⟨freeTables s.freeCount, s.freeCount + 1, exec_tblinit_of_not_fullPeriod s h⟩⟩

/-- Settles O7: each word is the encoding of its command. -/
theorem wordsOfTheRulesDecode : Obligations.WordsOfTheRulesDecode := by
  refine ⟨?_, ?_, ?_, ?_, ?_, ?_, ?_, ?_, ?_, ?_, ?_⟩ <;> exact decode_of_encode_eq (by decide)

/-- Settles O25: 2 is 1 multiplied by x. -/
theorem ringMulByTwoIsMulx : Obligations.RingMulByTwoIsMulx := by
  refine fun v primlo => ⟨?_, ringMul_two_right v primlo⟩
  have hmask : v <<< 1 &&& 0xFF#8 = v <<< 1 := BitVec.and_allOnes
  rw [hmask, mulx]

/-- Settles O27, by the run of a command with two written sources. -/
theorem gaddXors : Obligations.GaddXors :=
  fun d _ _ _ _ _ => ⟨hasEncoding_of_index 3 (by decide) (fieldOpc_packWord ..), exec_gadd d⟩

/-- Settles O28, by the run of a command whose tables are valid and sources written. -/
theorem gmulMultiplies : Obligations.GmulMultiplies :=
  fun d _ _ _ _ _ => ⟨hasEncoding_of_index 4 (by decide) (fieldOpc_packWord ..),
    fun hv => exec_tablesInvalid_iff.mpr ⟨rfl, rfl, hv⟩, exec_gmul d⟩

/-- Settles O29: the divisor decides between a quotient and a raise. -/
theorem gdivDivides : Obligations.GdivDivides := by
  refine fun d a b x y s => ⟨hasEncoding_of_index 5 (by decide) (fieldOpc_packWord ..),
    fun hv => exec_tablesInvalid_iff.mpr ⟨rfl, rfl, hv⟩, fun hv hx hy hne => ?_, fun hv hx hy => ?_⟩
  · rw [exec_gdiv d hv hx hy, gfDiv_of_ne_zero s.tables x hne, finishS_ok]
  · exact (exec_gdiv d hv hx hy).trans (finishS_error s d .divByZero)

/-- Settles O30, by the value of `gf_pow` at a byte read as a number. -/
theorem gpowRaisesToAPower : Obligations.GpowRaisesToAPower := by
  refine fun d a b x y s => ⟨hasEncoding_of_index 6 (by decide) (fieldOpc_packWord ..),
    fun hv => exec_tablesInvalid_iff.mpr ⟨rfl, rfl, hv⟩, fun hv hx hy => ?_⟩
  rw [exec_gpow d hv hx hy, gfPow_toNat, finishS_ok]

/-- Settles O31: the operand decides between an inverse and a raise. -/
theorem ginvInverts : Obligations.GinvInverts := by
  refine fun d a x s => ⟨hasEncoding_of_index 7 (by decide) (fieldOpc_packWord ..),
    fun hv => exec_tablesInvalid_iff.mpr ⟨rfl, rfl, hv⟩, fun hv hx hne => ?_, fun hv hx => ?_⟩
  · rw [exec_ginv d hv hx, gfInv, if_neg hne, finishS_ok]
  · exact (exec_ginv d hv hx).trans (finishS_error s d .divByZero)

/-- Settles O32: the operand decides between a table entry and a raise. -/
theorem glogAndGexpReadTheTables : Obligations.GlogAndGexpReadTheTables := by
  refine fun d a x s => ⟨hasEncoding_of_index 8 (by decide) (fieldOpc_packWord ..),
    hasEncoding_of_index 9 (by decide) (fieldOpc_packWord ..),
    fun hv => ⟨exec_tablesInvalid_iff.mpr ⟨rfl, rfl, hv⟩, exec_tablesInvalid_iff.mpr ⟨rfl, rfl, hv⟩⟩,
    fun hv hx hne => ?_, fun hv hx => ?_, fun hlt hv hx => ?_, fun hv hx => ?_⟩
  · rw [exec_glog d hv hx, glogOut_of_ne_zero s.tables hne, finishS_ok]
  · exact (exec_glog d hv hx).trans (finishS_error s d .invalidInput)
  · rw [exec_gexp d hv hx, gexpOut_of_lt s.tables hlt, finishS_ok]
  · exact (exec_gexp d hv hx).trans (finishS_error s d .invalidInput)

end Sys2Proof.Machine
end
section
/-! Coefficients and elements of the polynomial functions: sums at matching degree (R9, R140), products
as convolutions (R141), Horner's recursion (R143) and the division loop (R144). -/

namespace Sys2Proof.Machine

/-! ### Zeros, and adding onto the first elements -/

theorem zeros_succ (k : Nat) : zeros (k + 1) = 0#8 :: zeros k := rfl

theorem getD_zeros (k j : Nat) : (zeros k).getD j 0#8 = 0#8 := by
  rw [zeros, List.getD_eq_getElem?_getD, List.getElem?_replicate]
  split <;> rfl

/-- Adding zeros onto a sequence leaves it. -/
theorem xorOnto_zeros (k : Nat) (p : ByteSeq) : xorOnto (zeros k) p = p := by
  induction k generalizing p with
  | zero => rfl
  | succ k ih => cases p <;> simp [zeros_succ, xorOnto, ih]

/-- Adding onto the first elements twice restores them. -/
theorem xorOnto_xorOnto (u w : ByteSeq) : xorOnto u (xorOnto u w) = w := by
  induction u generalizing w with
  | nil => rfl
  | cons a u ih => cases w <;> simp [xorOnto, ih]

/-- Adding zeros, one by one, leaves a sequence. -/
theorem zipWith_xor_zeros (p : ByteSeq) : List.zipWith (· ^^^ ·) (zeros p.length) p = p := by
  induction p with
  | nil => rfl
  | cons a p ih => simpa [zeros_succ] using ih

/-- Additions of sequences commute. -/
theorem zipWith_xorOnto (u p q : ByteSeq) :
    List.zipWith (· ^^^ ·) (xorOnto u p) q = xorOnto u (List.zipWith (· ^^^ ·) p q) := by
  induction u generalizing p q with
  | nil => rfl
  | cons a u ih => cases p <;> cases q <;> simp [xorOnto, ih, BitVec.xor_assoc]

/-! ### Coefficients (R9, R140) -/

@[simp] theorem polyCoef_zeros (k j : Nat) : polyCoef (zeros k) j = 0#8 := by
  rw [polyCoef, zeros, List.reverse_replicate, ← zeros, getD_zeros]

/-- Leading zeros change no coefficient. -/
@[simp] theorem polyCoef_padTo (m : Nat) (p : ByteSeq) (j : Nat) :
    polyCoef (padTo m p) j = polyCoef p j := by
  rw [polyCoef, padTo, List.reverse_append]
  rcases Nat.lt_or_ge j p.reverse.length with hj | hj
  · rw [List.getD_append _ _ _ _ hj, polyCoef]
  · rw [List.getD_append_right _ _ _ _ hj, polyCoef, List.getD_eq_default _ _ hj]
    exact polyCoef_zeros ..

/-- Sequences of one length add coefficient by coefficient. -/
theorem polyCoef_zipWith_xor {p q : ByteSeq} (h : p.length = q.length) (j : Nat) :
    polyCoef (List.zipWith (· ^^^ ·) p q) j = polyCoef p j ^^^ polyCoef q j := by
  rw [polyCoef, List.reverse_zipWith h, polyCoef, polyCoef]
  rcases Nat.lt_or_ge j p.length with hj | hj <;> simp [hj, h ▸ hj]

/-- `poly_add` adds at matching degree (R140). -/
theorem polyCoef_polyAdd (p q : ByteSeq) (j : Nat) :
    polyCoef (polyAdd p q) j = polyCoef p j ^^^ polyCoef q j := by
  have hlen : (padTo (max p.length q.length) p).length =
      (padTo (max p.length q.length) q).length := by simp
  rw [polyAdd, polyCoef_zipWith_xor hlen, polyCoef_padTo, polyCoef_padTo]

/-- A shorter second operand is padded to the first's length (R140). -/
theorem polyAdd_eq_zipWith {p r : ByteSeq} {n : Nat} (h : p.length = n + r.length) :
    polyAdd p r = List.zipWith (· ^^^ ·) p (zeros n ++ r) := by
  simp [polyAdd, padTo, h, zeros]

/-! ### Products (R141) -/

/-- The ⊕ of the products of elements i of `p` and k - i of `q`, over the i where both exist. -/
def convolution (t : Tables) (p q : ByteSeq) (k : Nat) : Byte :=
  xorSum ((List.range (k + 1)).map fun i =>
    if i < p.length ∧ k - i < q.length then gfMul t (p.getD i 0#8) (q.getD (k - i) 0#8) else 0#8)

theorem convolution_nil (t : Tables) (q : ByteSeq) (k : Nat) : convolution t [] q k = 0#8 := by
  simpa [convolution] using xorSum_map_zero (List.range (k + 1))

theorem getD_map_gfMul (t : Tables) (a : Byte) (q : ByteSeq) (k : Nat) :
    (q.map (gfMul t a)).getD k 0#8 = if k < q.length then gfMul t a (q.getD k 0#8) else 0#8 := by
  by_cases hk : k < q.length <;> simp [hk]

theorem convolution_cons_zero (t : Tables) (a : Byte) (p q : ByteSeq) :
    convolution t (a :: p) q 0 = (q.map (gfMul t a)).getD 0 0#8 := by
  rw [getD_map_gfMul]
  simp [convolution]

/-- The first element of `p` adds its row of products, the others the convolution of the rest, one
element further on. -/
theorem convolution_cons_succ (t : Tables) (a : Byte) (p q : ByteSeq) (k : Nat) :
    convolution t (a :: p) q (k + 1) =
      (q.map (gfMul t a)).getD (k + 1) 0#8 ^^^ convolution t p q k := by
  rw [convolution, List.range_succ_eq_map, getD_map_gfMul]
  simp [convolution, Function.comp_def]

/-- Every element of `poly_mul` is the convolution's (R141). -/
theorem getD_polyMul (t : Tables) (p q : ByteSeq) {k : Nat} (hk : k < (polyMul t p q).length) :
    (polyMul t p q).getD k 0#8 = convolution t p q k := by
  induction p generalizing k with
  | nil => rw [polyMul, getD_zeros, convolution_nil]
  | cons a p ih =>
    rw [polyMul, length_xorOnto] at hk
    rw [polyMul, getD_xorOnto _ _ _ hk]
    cases k with
    | zero => rw [convolution_cons_zero, List.getD_cons_zero, BitVec.xor_zero]
    | succ k => rw [convolution_cons_succ, List.getD_cons_succ, ih (Nat.lt_of_succ_lt_succ hk)]

/-- The product with [0] is zero: its row of products is. -/
theorem polyMul_singleton_zero (t : Tables) (v0 : Byte) (vs : ByteSeq) :
    polyMul t [0#8] (v0 :: vs) = zeros (vs.length + 1) := by
  have hrow : (v0 :: vs).map (gfMul t 0#8) = zeros (vs.length + 1) := by
    rw [funext (gfMul_zero_left t), List.map_const', List.length_cons, zeros]
  rw [polyMul, hrow, xorOnto_zeros]
  rfl

/-! ### Horner's recursion (R143) -/

theorem polyEval_append_singleton (t : Tables) {p : ByteSeq} (c x : Byte) (hp : p ≠ []) :
    polyEval t (p ++ [c]) x = gfMul t (polyEval t p x) x ^^^ c := by
  cases p with
  | nil => exact absurd rfl hp
  | cons a p => rw [List.cons_append, polyEval, polyEval, List.foldl_append]; rfl

/-! ### Division (R144) -/

theorem gfMul_comm (t : Tables) (a b : Byte) : gfMul t a b = gfMul t b a := by
  simp only [gfMul, or_comm, Nat.add_comm]

/-- Multiplication undoes division, also of 0. -/
theorem Tables.Valid.gfMul_of_gfDiv {t : Tables} (h : t.Valid) {a b c : Byte} (hb : b ≠ 0#8)
    (hc : gfDiv t a b = .ok c) : gfMul t c b = a := by
  by_cases ha : a = 0#8
  · subst ha
    rw [gfDiv_zero_left t hb] at hc
    cases hc
    exact gfMul_zero_left t b
  · obtain ⟨q, hq, hmul⟩ := h.gfDiv_gfMul ha hb
    rw [hq] at hc
    cases hc
    exact hmul

/-- One turn of R144's loop: its quotient element, and the loop on what is left of W. -/
theorem divLoop_succ_ok {t : Tables} {v0 w0 : Byte} {vs w q r : ByteSeq} {n : Nat}
    (h : divLoop t v0 vs (n + 1) (w0 :: w) = .ok (q, r)) :
    ∃ c q', gfDiv t w0 v0 = .ok c ∧ q = c :: q' ∧
      divLoop t v0 vs n (xorOnto (vs.map (gfMul t c)) w) = .ok (q', r) := by
  have hcomm (c : Byte) : (fun x => gfMul t x c) = gfMul t c := funext fun x => gfMul_comm t x c
  simp only [divLoop, hcomm] at h
  split at h
  · cases h
  next c hc =>
    split at h <;> cases h
    exact ⟨c, _, hc, rfl, ‹_›⟩

/-- R144's loop, n turns: the quotient's elements times the divisor, plus what is left of W behind n
zeros, is W. -/
theorem Tables.Valid.divLoop_identity {t : Tables} (h : t.Valid) {v0 : Byte} (hv : v0 ≠ 0#8)
    {vs q r w : ByteSeq} {n : Nat} (hlen : w.length = n + vs.length)
    (hd : divLoop t v0 vs n w = .ok (q, r)) :
    List.zipWith (· ^^^ ·) (polyMul t q (v0 :: vs)) (zeros n ++ r) = w := by
  induction n generalizing w q with
  | zero =>
    cases hd
    rw [Nat.zero_add] at hlen
    have hz := zipWith_xor_zeros r
    rwa [hlen] at hz
  | succ n ih =>
    cases w with
    | nil =>
      rw [List.length_nil] at hlen
      omega
    | cons w0 w =>
      obtain ⟨c, q, hc, rfl, hrest⟩ := divLoop_succ_ok hd
      rw [List.length_cons] at hlen
      have hw := ih (by rw [length_xorOnto]; omega) hrest
      rw [polyMul, zeros_succ, List.cons_append, List.map_cons, xorOnto,
        List.zipWith_cons_cons, zipWith_xorOnto, hw, xorOnto_xorOnto, h.gfMul_of_gfDiv hv hc,
        BitVec.xor_zero, BitVec.xor_zero]

/-- A sequence that is not zero has a normal form with a leading coefficient that is not 0 (R9). -/
theorem exists_norm_eq_cons {p : ByteSeq} (h : isZero p = false) :
    ∃ v0 vs, norm p = v0 :: vs ∧ v0 ≠ 0#8 := by
  have hne : p ≠ [] := fun hp => by simp [hp, isZero] at h
  obtain ⟨v0, vs, hn⟩ := List.exists_cons_of_ne_nil (norm_ne_nil hne)
  exact ⟨v0, vs, hn, norm_head_ne_zero h v0 vs hn⟩

/-- An empty operand is no polynomial, and 0 no divisor. -/
theorem polyDivmod_error (t : Tables) {p v : ByteSeq} (h : p = [] ∨ isZero v = true) :
    polyDivmod t p v = .error .invalidInput := by
  unfold polyDivmod
  split
  · rfl
  next hlen =>
    rw [if_pos (h.resolve_left fun hp => hlen (.inl (by rw [hp]; rfl)))]

/-- Past the checks: a short dividend is the remainder, any other goes through the loop. -/
theorem polyDivmod_of_norm (t : Tables) {p v vs : ByteSeq} {v0 : Byte} (hp : p ≠ [])
    (hv : isZero v = false) (hn : norm v = v0 :: vs) :
    polyDivmod t p v = if p.length < vs.length + 1 then .ok ([0#8], padTo vs.length p)
      else divLoop t v0 vs (p.length - vs.length) p := by
  have hne : v ≠ [] := fun h => by simp [h, isZero] at hv
  have hturns : ¬ p.length < vs.length + 1 →
      p.length - (vs.length + 1) + 1 = p.length - vs.length := by omega
  simp +contextual [polyDivmod, hp, hne, hv, hn, hturns]

/-- Past the checks no division raises: the divisor's leading coefficient is not 0. -/
theorem polyDivmod_ok (t : Tables) {p v : ByteSeq} (hp : p ≠ []) (hv : isZero v = false) :
    ∃ quo rem, polyDivmod t p v = .ok (quo, rem) := by
  obtain ⟨v0, vs, hn, hv0⟩ := exists_norm_eq_cons hv
  rw [polyDivmod_of_norm t hp hv hn]
  split
  · exact ⟨_, _, rfl⟩
  · exact divLoop_ok t vs _ p hv0

/-- A short dividend gives quotient [0] and itself, padded. -/
theorem polyDivmod_short (t : Tables) {p v : ByteSeq} (hp : p ≠ []) (hv : isZero v = false)
    (hs : p.length < (norm v).length) :
    polyDivmod t p v = .ok ([0#8], padTo ((norm v).length - 1) p) := by
  obtain ⟨v0, vs, hn, -⟩ := exists_norm_eq_cons hv
  rw [hn, List.length_cons] at hs
  rw [polyDivmod_of_norm t hp hv hn, if_pos hs, hn]
  rfl

/-- The division identity (R144). -/
theorem Tables.Valid.polyDivmod_identity {t : Tables} (h : t.Valid) {p v quo rem : ByteSeq}
    (hd : polyDivmod t p v = .ok (quo, rem)) (j : Nat) :
    polyCoef (polyAdd (polyMul t quo (norm v)) rem) j = polyCoef p j := by
  by_cases hbad : p = [] ∨ isZero v = true
  · rw [polyDivmod_error t hbad] at hd
    cases hd
  obtain ⟨hp, hv⟩ := not_or.mp hbad
  rw [Bool.not_eq_true] at hv
  obtain ⟨v0, vs, hn, hv0⟩ := exists_norm_eq_cons hv
  rw [polyDivmod_of_norm t hp hv hn] at hd
  rw [hn]
  split at hd
  next hshort =>
    cases hd
    rw [polyCoef_polyAdd, polyMul_singleton_zero, polyCoef_zeros, polyCoef_padTo, BitVec.zero_xor]
  next hlong =>
    obtain ⟨hquo, hrem⟩ := length_divLoop (by omega) hd
    have hlen : (polyMul t quo (v0 :: vs)).length = p.length - vs.length + rem.length := by
      rw [length_polyMul, List.length_cons]
      omega
    rw [polyAdd_eq_zipWith hlen, h.divLoop_identity hv0 (by omega) hd]

end Sys2Proof.Machine
end
section
/-! The commands of the polynomial engine past their checks (R79, R146 to R150). -/

namespace Sys2Proof.Machine

section
variable {s : State} {a b : VReg} {p q : ByteSeq}

/-- Two written buffers are read. -/
theorem sourceV_sourceV (hp : s.readV a = some p) (hq : s.readV b = some q)
    (k : ByteSeq → ByteSeq → Result) :
    (sourceV s a fun p => sourceV s b fun q => k p q) = k p q := by
  rw [sourceV_some s a _ p hp, sourceV_some s b _ q hq]

/-- A table-using command with two buffers as sources. -/
theorem requireTables_sourceV_sourceV (hv : s.tv = true) (hp : s.readV a = some p)
    (hq : s.readV b = some q) (k : ByteSeq → ByteSeq → Result) :
    (requireTables s <| sourceV s a fun p => sourceV s b fun q => k p q) = k p q := by
  rw [requireTables_true s _ hv, sourceV_sourceV hp hq]

/-- A table-using command with a buffer and a scalar as sources. -/
theorem requireTables_sourceV_sourceS {c : SReg} {x : Byte} (hv : s.tv = true)
    (hp : s.readV a = some p) (hx : s.readS c = some x) (k : ByteSeq → Byte → Result) :
    (requireTables s <| sourceV s a fun p => sourceS s c fun x => k p x) = k p x := by
  rw [requireTables_true s _ hv, sourceV_some s a _ p hp, sourceS_some s c _ x hx]

end

theorem finishV_ok (s : State) (d : VReg) (q : ByteSeq) :
    finishV s d (.ok q) = .next { s with vreg := s.vreg.set d (some q), code := .ok } := rfl

/-- A raise writes the code alone (R305). -/
theorem finishV_error (s : State) (d : VReg) (c : Raise) :
    finishV s d (.error c) = .next { s with code := c.toCode } := rfl

theorem finishVV_ok (s : State) (d c : VReg) (q p : ByteSeq) :
    finishVV s d c (.ok (q, p)) =
      .next { s with vreg := (s.vreg.set d (some q)).set c (some p), code := .ok } := rfl

/-- A raise writes neither buffer (R305). -/
theorem finishVV_error (s : State) (d c : VReg) (e : Raise) :
    finishVV s d c (.error e) = .next { s with code := e.toCode } := rfl

/-! ### The commands -/

section
variable {s : State} {a b : VReg} {p q : ByteSeq} (hp : s.readV a = some p)
include hp

theorem exec_padd (d : VReg) (hq : s.readV b = some q) :
    exec (.padd d a b) s = finishV s d (paddOut p q) :=
  sourceV_sourceV hp hq fun p q => finishV s d (paddOut p q)

variable (hv : s.tv = true)
include hv

theorem exec_pmul (d : VReg) (hq : s.readV b = some q) :
    exec (.pmul d a b) s = finishV s d (pmulOut s.tables p q) :=
  requireTables_sourceV_sourceV hv hp hq fun p q => finishV s d (pmulOut s.tables p q)

theorem exec_pscale (d : VReg) {c : SReg} {x : Byte} (hx : s.readS c = some x) :
    exec (.pscale d a c) s = finishV s d (pscaleOut s.tables p x) :=
  requireTables_sourceV_sourceS hv hp hx fun p x => finishV s d (pscaleOut s.tables p x)

theorem exec_peval (d : SReg) {c : SReg} {x : Byte} (hx : s.readS c = some x) :
    exec (.peval d a c) s = finishS s d (pevalOut s.tables p x) :=
  requireTables_sourceV_sourceS hv hp hx fun p x => finishS s d (pevalOut s.tables p x)

theorem exec_pdiv {d c : VReg} (hdc : d ≠ c) (hq : s.readV b = some q) :
    exec (.pdiv d c a b) s = finishVV s d c (polyDivmod s.tables p q) :=
  (if_neg hdc).trans <|
    requireTables_sourceV_sourceV hv hp hq fun p q => finishVV s d c (polyDivmod s.tables p q)

end

/-! ### The values of the commands' functions -/

theorem paddOut_of_ne_nil {p q : ByteSeq} (hp : p ≠ []) (hq : q ≠ []) :
    paddOut p q = .ok (polyAdd p q) := by
  simp [paddOut, hp, hq]

theorem paddOut_of_nil {p q : ByteSeq} (h : p = [] ∨ q = []) :
    paddOut p q = .error .invalidInput := by
  simp [paddOut, h]

theorem length_polyMul_of_ne_nil (t : Tables) (p : ByteSeq) {q : ByteSeq} (hq : q ≠ []) :
    (polyMul t p q).length = p.length + q.length - 1 := by
  have hpos := List.length_pos_iff.mpr hq
  rw [length_polyMul]
  omega

theorem pmulOut_of_fits (t : Tables) {p q : ByteSeq} (hp : p ≠ []) (hq : q ≠ [])
    (hl : p.length + q.length - 1 ≤ 512) : pmulOut t p q = .ok (polyMul t p q) := by
  rw [← length_polyMul_of_ne_nil t p hq, ← Nat.not_lt] at hl
  simp [pmulOut, hp, hq, Config.vlenMax, -length_polyMul, hl]

theorem pmulOut_error (t : Tables) {p q : ByteSeq}
    (h : p = [] ∨ q = [] ∨ 512 < p.length + q.length - 1) :
    pmulOut t p q = .error .invalidInput := by
  by_cases hempty : p = [] ∨ q = []
  · simp [pmulOut, hempty]
  · obtain ⟨hp, hq⟩ := not_or.mp hempty
    have hl := (h.resolve_left hp).resolve_left hq
    rw [← length_polyMul_of_ne_nil t p hq] at hl
    simp [pmulOut, hp, hq, Config.vlenMax, -length_polyMul, hl]

theorem pscaleOut_of_ne_nil (t : Tables) {p : ByteSeq} (x : Byte) (hp : p ≠ []) :
    pscaleOut t p x = .ok (p.map fun c => gfMul t c x) := by
  simp [pscaleOut, hp, polyScale]

theorem pevalOut_of_ne_nil (t : Tables) {p : ByteSeq} (x : Byte) (hp : p ≠ []) :
    pevalOut t p x = .ok (polyEval t p x) := by
  simp [pevalOut, hp]

end Sys2Proof.Machine
end
section
/-! The obligations of the polynomial engine. -/

namespace Sys2Proof.Machine

/-- Settles O36: coefficients of a padded sequence are those of the sequence. -/
theorem paddAddsAlignedAtMatchingDegree : Obligations.PaddAddsAlignedAtMatchingDegree := by
  refine fun d a b p q s => ⟨hasEncoding_of_index 14 (by decide) (fieldOpc_packWord ..),
    fun hp hq hpn hqn => ⟨polyAdd p q, length_polyAdd p q, polyCoef_polyAdd p q, ?_⟩,
    fun hp hq hnil => ?_⟩
  · rw [exec_padd hp d hq, paddOut_of_ne_nil hpn hqn, finishV_ok]
  · rw [exec_padd hp d hq, paddOut_of_nil hnil, finishV_error, Raise.toCode]

/-- Settles O37, by induction on the first operand: each element adds its row of products. -/
theorem pmulConvolves : Obligations.PmulConvolves := by
  refine fun d a b p q s => ⟨hasEncoding_of_index 15 (by decide) (fieldOpc_packWord ..),
    fun hv => exec_tablesInvalid_iff.mpr ⟨rfl, rfl, hv⟩,
    fun hv hp hq hpn hqn hl => ⟨polyMul s.tables p q, length_polyMul_of_ne_nil _ p hqn,
      fun k hk => getD_polyMul s.tables p q hk, ?_⟩,
    fun hv hp hq hbad => ?_⟩
  · rw [exec_pmul hp hv d hq, pmulOut_of_fits s.tables hpn hqn hl, finishV_ok]
  · rw [exec_pmul hp hv d hq, pmulOut_error s.tables hbad, finishV_error, Raise.toCode]

/-- Settles O39: Horner's method takes the elements from the front. -/
theorem pevalIsHornersMethod : Obligations.PevalIsHornersMethod := by
  refine ⟨fun d a b p x s => ⟨hasEncoding_of_index 17 (by decide) (fieldOpc_packWord ..),
    fun hv => exec_tablesInvalid_iff.mpr ⟨rfl, rfl, hv⟩, fun hv hp hx hpn => ?_,
    fun hv hp hx => ?_⟩, fun _ _ _ => rfl, fun t _ c x hpn => polyEval_append_singleton t c x hpn⟩
  · rw [exec_peval hp hv d hx, pevalOut_of_ne_nil s.tables x hpn, finishS_ok]
  · exact (exec_peval hp hv d hx).trans (finishS_error s d .invalidInput)

/-- Settles O40: with a nonzero leading coefficient the division loop never raises. -/
theorem pdivWritesQuotientAndRemainder : Obligations.PdivWritesQuotientAndRemainder := by
  refine fun d c a b p q s hdc => ⟨hasEncoding_of_index 18 (by decide) (fieldOpc_packWord ..),
    fun hv => exec_tablesInvalid_iff.mpr ⟨by simp [Instr.wf, hdc], rfl, hv⟩,
    fun hv hp hq hpn hqz => ?_, fun hv hp hq hbad => ?_⟩
  · obtain ⟨quo, rem, hdiv⟩ := polyDivmod_ok s.tables hpn hqz
    obtain ⟨-, hquo, hrem⟩ := length_polyDivmod hdiv
    refine ⟨quo, rem, hdiv, hquo, hrem, fun hshort => ?_, ?_⟩
    · rw [polyDivmod_short s.tables hpn hqz hshort] at hdiv
      cases hdiv
      exact ⟨rfl, rfl⟩
    · rw [exec_pdiv hp hv hdc hq, hdiv, finishVV_ok]
  · rw [exec_pdiv hp hv hdc hq, polyDivmod_error s.tables hbad, finishVV_error, Raise.toCode]

/-- Settles O41, by the invariant of the division loop. -/
theorem quotientTimesDivisorPlusRemainder : Obligations.QuotientTimesDivisorPlusRemainder :=
  fun _ _ _ _ _ h hd j => h.polyDivmod_identity hd j

/-- Settles O38, by the run of a table-using command on a buffer and a scalar. -/
theorem pscaleScalesEveryCoefficient : Obligations.PscaleScalesEveryCoefficient := by
  refine fun d a b p x s => ⟨hasEncoding_of_index 16 (by decide) (fieldOpc_packWord ..),
    fun hv => exec_tablesInvalid_iff.mpr ⟨rfl, rfl, hv⟩, fun hv hp hx hpn => ?_,
    fun hv hp hx => ?_⟩
  · rw [exec_pscale hp hv d hx, pscaleOut_of_ne_nil s.tables x hpn, finishV_ok]
  · exact (exec_pscale hp hv d hx).trans (finishV_error s d .invalidInput)

end Sys2Proof.Machine
end
section
/-! Evaluation of polynomials (R143) over the tables of a full-period pair: it adds and multiplies
(R117). Horner's method reads a sequence from the front, so its inductions append elements at the
end. -/

namespace Sys2Proof.Machine

/-! ### The field (R117) -/

section
variable {primlo gen : Byte} (h : fullPeriod primlo gen = true)
include h

theorem gfMul_xor_left_buildTables (a b c : Byte) :
    gfMul (buildTables primlo gen) (a ^^^ b) c =
      gfMul (buildTables primlo gen) a c ^^^ gfMul (buildTables primlo gen) b c := by
  simp only [gfMul_buildTables h, ringMul_xor_left]

theorem gfMul_xor_right_buildTables (a b c : Byte) :
    gfMul (buildTables primlo gen) a (b ^^^ c) =
      gfMul (buildTables primlo gen) a b ^^^ gfMul (buildTables primlo gen) a c := by
  simp only [gfMul_buildTables h, ringMul_xor_right]

theorem gfMul_assoc_buildTables (a b c : Byte) :
    gfMul (buildTables primlo gen) (gfMul (buildTables primlo gen) a b) c =
      gfMul (buildTables primlo gen) a (gfMul (buildTables primlo gen) b c) := by
  simp only [gfMul_buildTables h, ringMul_assoc]

theorem gfMul_one_left_buildTables (a : Byte) : gfMul (buildTables primlo gen) 1#8 a = a := by
  rw [gfMul_buildTables h, ringMul_one_left]

end

@[simp] theorem gfMul_zero_right (t : Tables) (a : Byte) : gfMul t a 0#8 = 0#8 := by
  rw [gfMul_comm, gfMul_zero_left]

/-! ### Evaluation on any tables -/

@[simp] theorem polyEval_nil (t : Tables) (x : Byte) : polyEval t [] x = 0#8 := rfl

/-- Horner's step (R143), also from the empty sequence. -/
theorem polyEval_concat (t : Tables) (p : ByteSeq) (c x : Byte) :
    polyEval t (p ++ [c]) x = gfMul t (polyEval t p x) x ^^^ c := by
  by_cases hp : p = []
  · simp [hp, polyEval]
  · exact polyEval_append_singleton t c x hp

theorem polyEval_zero_cons (t : Tables) (p : ByteSeq) (x : Byte) :
    polyEval t (0#8 :: p) x = polyEval t p x := by
  cases p with
  | nil => rfl
  | cons a p => simp [polyEval]

/-- Leading zeros do not change the value. -/
theorem polyEval_zeros_append (t : Tables) (k : Nat) (p : ByteSeq) (x : Byte) :
    polyEval t (zeros k ++ p) x = polyEval t p x := by
  induction k with
  | zero => rfl
  | succ k ih => rw [zeros_succ, List.cons_append, polyEval_zero_cons, ih]

theorem polyEval_zeros (t : Tables) (k : Nat) (x : Byte) : polyEval t (zeros k) x = 0#8 := by
  rw [← List.append_nil (zeros k), polyEval_zeros_append, polyEval_nil]

/-! ### Products by the last element of the first factor -/

/-- Adding onto all elements adds the sequences. -/
theorem xorOnto_eq_zipWith {v p : ByteSeq} (hlen : v.length = p.length) :
    xorOnto v p = List.zipWith (· ^^^ ·) v p := by
  induction v generalizing p with
  | nil => rw [List.length_eq_zero_iff.mp hlen.symm, xorOnto, List.zipWith_nil_left]
  | cons a v ih =>
    cases p with
    | nil => cases hlen
    | cons b p => rw [xorOnto, ih (Nat.succ.inj hlen), List.zipWith_cons_cons]

/-- Adding onto the first elements leaves an element behind them. -/
theorem xorOnto_append {v p : ByteSeq} (hlen : v.length ≤ p.length) (q : ByteSeq) :
    xorOnto v (p ++ q) = xorOnto v p ++ q := by
  induction v generalizing p with
  | nil => rfl
  | cons a v ih =>
    cases p with
    | nil => exact absurd hlen (Nat.not_succ_le_zero _)
    | cons b p => simp [xorOnto, ih (Nat.le_of_succ_le_succ hlen)]

/-- The last element of the first factor adds its row of products at the end. -/
theorem polyMul_concat (t : Tables) (p : ByteSeq) (a : Byte) {q : ByteSeq} (hq : q ≠ []) :
    polyMul t (p ++ [a]) q = List.zipWith (· ^^^ ·) (polyMul t p q ++ [0#8])
      (zeros p.length ++ q.map (gfMul t a)) := by
  have hpos := List.length_pos_iff.mpr hq
  induction p with
  | nil =>
    have hconcat : zeros (q.length - 1) ++ [0#8] = 0#8 :: zeros (q.length - 1) :=
      List.replicate_succ'.symm
    have hlen : (q.map (gfMul t a)).length = (0#8 :: zeros (q.length - 1)).length := by
      rw [List.length_map, List.length_cons, length_zeros, Nat.sub_add_cancel hpos]
    change xorOnto (q.map (gfMul t a)) (0#8 :: zeros (q.length - 1)) =
      List.zipWith (· ^^^ ·) (zeros (q.length - 1) ++ [0#8]) (q.map (gfMul t a))
    rw [hconcat, xorOnto_eq_zipWith hlen, List.zipWith_comm_of_comm BitVec.xor_comm]
  | cons b p ih =>
    have hrow : (q.map (gfMul t b)).length ≤ (0#8 :: polyMul t p q).length := by
      rw [List.length_map, List.length_cons, length_polyMul]
      omega
    rw [List.cons_append, polyMul, ih, polyMul, ← xorOnto_append hrow, zipWith_xorOnto,
      List.length_cons, zeros_succ, List.cons_append, List.cons_append, List.zipWith_cons_cons,
      BitVec.xor_zero]

/-! ### Evaluation adds and multiplies -/

section
variable {primlo gen : Byte} (h : fullPeriod primlo gen = true)
include h

theorem polyEval_zipWith_xor {p q : ByteSeq} (hlen : p.length = q.length) (x : Byte) :
    polyEval (buildTables primlo gen) (List.zipWith (· ^^^ ·) p q) x =
      polyEval (buildTables primlo gen) p x ^^^ polyEval (buildTables primlo gen) q x := by
  induction p using List.reverseRecOn generalizing q with
  | nil =>
    rw [List.length_eq_zero_iff.mp hlen.symm, List.zipWith_nil_left, polyEval_nil, BitVec.xor_self]
  | append_singleton p a ih =>
    obtain rfl | ⟨q, b, rfl⟩ := q.eq_nil_or_concat'
    · simp at hlen
    · have hlen' : p.length = q.length := by simpa using hlen
      rw [List.zipWith_append hlen', List.zipWith_cons_cons, List.zipWith_nil_left,
        polyEval_concat, ih hlen', gfMul_xor_left_buildTables h, polyEval_concat, polyEval_concat]
      ac_rfl

theorem polyEval_map_gfMul (a : Byte) (p : ByteSeq) (x : Byte) :
    polyEval (buildTables primlo gen) (p.map (gfMul (buildTables primlo gen) a)) x =
      gfMul (buildTables primlo gen) a (polyEval (buildTables primlo gen) p x) := by
  induction p using List.reverseRecOn with
  | nil => exact (gfMul_zero_right _ a).symm
  | append_singleton p c ih =>
    rw [List.map_append, List.map_singleton, polyEval_concat, ih, polyEval_concat,
      gfMul_xor_right_buildTables h, gfMul_assoc_buildTables h]

/-- The value of a product is the product of the values. -/
theorem polyEval_polyMul (p : ByteSeq) {q : ByteSeq} (hq : q ≠ []) (x : Byte) :
    polyEval (buildTables primlo gen) (polyMul (buildTables primlo gen) p q) x =
      gfMul (buildTables primlo gen) (polyEval (buildTables primlo gen) p x)
        (polyEval (buildTables primlo gen) q x) := by
  induction p using List.reverseRecOn with
  | nil => rw [polyMul, polyEval_zeros, polyEval_nil, gfMul_zero_left]
  | append_singleton p a ih =>
    have hlen : (polyMul (buildTables primlo gen) p q ++ [0#8]).length =
        (zeros p.length ++ q.map (gfMul (buildTables primlo gen) a)).length := by
      have hpos := List.length_pos_iff.mpr hq
      rw [List.length_append, length_polyMul, List.length_append, length_zeros, List.length_map,
        List.length_singleton]
      omega
    rw [polyMul_concat _ p a hq, polyEval_zipWith_xor h hlen, polyEval_concat, ih,
      polyEval_zeros_append, polyEval_map_gfMul h, polyEval_concat, gfMul_xor_left_buildTables h,
      BitVec.xor_zero, gfMul_assoc_buildTables h, gfMul_assoc_buildTables h,
      gfMul_comm _ x]

end

end Sys2Proof.Machine
end
section
/-! The generator polynomial and systematic encoding (R170 to R174): the generator polynomial is
monic with the roots α^i, and a codeword is a multiple of it. -/

namespace Sys2Proof.Machine

/-! ### The generator polynomial -/

/-- The generator polynomial is monic: its factors are. -/
theorem Tables.Valid.generatorPoly_eq_one_cons {t : Tables} (h : t.Valid) (r : Nat) :
    ∃ vs : ByteSeq, vs.length = r ∧ generatorPoly t r = 1#8 :: vs := by
  have hone : gfMul t 1#8 1#8 = 1#8 := by
    rw [← h.alpha_eq_one (i := 0) rfl]
    exact h.gfMul_alpha 0 0
  have hcons : ∃ vs : ByteSeq, generatorPoly t r = 1#8 :: vs := by
    induction r with
    | zero => exact ⟨[], rfl⟩
    | succ r ih =>
      obtain ⟨vs, hvs⟩ := ih
      rw [generatorPoly_succ, hvs, polyMul, List.map_cons, xorOnto, hone, BitVec.xor_zero]
      exact ⟨_, rfl⟩
  obtain ⟨vs, hvs⟩ := hcons
  have hlen := length_generatorPoly t r
  rw [hvs, List.length_cons] at hlen
  exact ⟨vs, Nat.succ.inj hlen, hvs⟩

theorem Tables.Valid.norm_generatorPoly {t : Tables} (h : t.Valid) (r : Nat) :
    norm (generatorPoly t r) = generatorPoly t r := by
  obtain ⟨vs, -, hvs⟩ := h.generatorPoly_eq_one_cons r
  rw [hvs, norm_of_head (by decide)]

theorem Tables.Valid.isZero_generatorPoly {t : Tables} (h : t.Valid) (r : Nat) :
    isZero (generatorPoly t r) = false := by
  obtain ⟨vs, -, hvs⟩ := h.generatorPoly_eq_one_cons r
  simp [hvs, isZero]

/-- α^i with i < r is a root: the factor [1, α^i] is 0 there. -/
theorem polyEval_generatorPoly {primlo gen : Byte} (h : fullPeriod primlo gen = true) {i r : Nat}
    (hi : i < r) : polyEval (buildTables primlo gen) (generatorPoly (buildTables primlo gen) r)
      (alpha (buildTables primlo gen) i) = 0#8 := by
  induction r with
  | zero => exact absurd hi (Nat.not_lt_zero i)
  | succ r ih =>
    rw [generatorPoly_succ, polyEval_polyMul h _ (List.cons_ne_nil _ _)]
    rcases Nat.lt_succ_iff_lt_or_eq.mp hi with hlt | rfl
    · rw [ih hlt, gfMul_zero_left]
    · have hroot : polyEval (buildTables primlo gen) [1#8, alpha (buildTables primlo gen) i]
          (alpha (buildTables primlo gen) i) = 0#8 := by
        rw [polyEval, List.foldl_cons, List.foldl_nil, gfMul_one_left_buildTables h,
          BitVec.xor_self]
      rw [hroot, gfMul_zero_right]

/-! ### Systematic encoding -/

/-- The division of the shifted message by the generator polynomial never raises (R172). -/
theorem Tables.Valid.polyDivmod_generatorPoly_ok {t : Tables} (h : t.Valid) {m : ByteSeq}
    (hm : m ≠ []) (r : Nat) :
    ∃ quo rem, polyDivmod t (m ++ zeros r) (generatorPoly t r) = .ok (quo, rem) :=
  polyDivmod_ok t (List.append_ne_nil_of_left_ne_nil hm _) (h.isZero_generatorPoly r)

/-- The remainder has as many elements as the generator polynomial has factors (R172). -/
theorem Tables.Valid.length_remainder_generatorPoly {t : Tables} (h : t.Valid)
    {p quo rem : ByteSeq} {r : Nat} (hd : polyDivmod t p (generatorPoly t r) = .ok (quo, rem)) :
    rem.length = r := by
  obtain ⟨-, -, hrem⟩ := length_polyDivmod hd
  rwa [h.norm_generatorPoly, length_generatorPoly] at hrem

theorem zipWith_xor_cancel {p q : ByteSeq} (hlen : p.length = q.length) :
    List.zipWith (· ^^^ ·) (List.zipWith (· ^^^ ·) p q) q = p := by
  induction p generalizing q with
  | nil => rfl
  | cons a p ih =>
    cases q with
    | nil => cases hlen
    | cons b q => simp [ih (Nat.succ.inj hlen)]

/-- Adding r elements onto r zeros behind a message puts them behind it. -/
theorem zipWith_xor_append_zeros (m rem : ByteSeq) :
    List.zipWith (· ^^^ ·) (m ++ zeros rem.length) (zeros m.length ++ rem) = m ++ rem := by
  rw [List.zipWith_append (length_zeros _).symm, zipWith_xor_zeros,
    List.zipWith_comm_of_comm BitVec.xor_comm, zipWith_xor_zeros]

/-- Message and remainder are the quotient times the generator polynomial (R174). -/
theorem Tables.Valid.polyMul_quotient_generatorPoly {t : Tables} (h : t.Valid)
    {m quo rem : ByteSeq} {r : Nat} (hm : m ≠ [])
    (hd : polyDivmod t (m ++ zeros r) (generatorPoly t r) = .ok (quo, rem)) :
    polyMul t quo (generatorPoly t r) = m ++ rem := by
  have hrem := h.length_remainder_generatorPoly hd
  have hpos := List.length_pos_iff.mpr hm
  obtain ⟨vs, hvs, hg⟩ := h.generatorPoly_eq_one_cons r
  have hone : (1#8 : Byte) ≠ 0#8 := by decide
  have hlen : (m ++ zeros r).length = m.length + vs.length := by
    rw [List.length_append, length_zeros, hvs]
  rw [polyDivmod_of_norm t (List.append_ne_nil_of_left_ne_nil hm _) (h.isZero_generatorPoly r)
    ((h.norm_generatorPoly r).trans hg), if_neg (by omega), hlen, Nat.add_sub_cancel] at hd
  have hquo := (length_divLoop (by omega) hd).1
  have hsum := h.divLoop_identity hone hlen hd
  have hcancel := zipWith_xor_cancel (p := polyMul t quo (1#8 :: vs)) (q := zeros m.length ++ rem)
    (by simp [hquo, hrem, hvs])
  rw [hg, ← hcancel, hsum, ← hrem, zipWith_xor_append_zeros]

theorem rsEncode_of_fits {t : Tables} {m quo rem : ByteSeq} {r : Nat} (hm : m ≠ []) (hr : r ≠ 0)
    (hl : m.length + r ≤ 255)
    (hd : polyDivmod t (m ++ zeros r) (generatorPoly t r) = .ok (quo, rem)) :
    rsEncode t m r = .ok (m ++ rem) := by
  have hpos := List.length_pos_iff.mpr hm
  rw [rsEncode, if_neg (by rw [Config.nMax]; omega), hd]

theorem rsEncode_error (t : Tables) {m : ByteSeq} {r : Nat}
    (h : m = [] ∨ r = 0 ∨ 255 < m.length + r) : rsEncode t m r = .error .invalidInput := by
  rw [← List.length_eq_zero_iff] at h
  rw [rsEncode, if_pos (by rw [Config.nMax]; omega)]

/-- A codeword is a nonempty message and the remainder of its division. -/
theorem rsEncode_ok {t : Tables} {m c : ByteSeq} {r : Nat} (h : rsEncode t m r = .ok c) :
    m ≠ [] ∧ ∃ quo rem, polyDivmod t (m ++ zeros r) (generatorPoly t r) = .ok (quo, rem) ∧
      c = m ++ rem := by
  unfold rsEncode at h
  split at h
  · cases h
  next hn =>
    refine ⟨fun hm => hn (.inl (by simp [hm])), ?_⟩
    split at h <;> cases h
    exact ⟨_, _, ‹_›, rfl⟩

/-- A multiple of the generator polynomial has zero syndromes (R174, R180). -/
theorem syndromes_polyMul_generatorPoly {primlo gen : Byte} (h : fullPeriod primlo gen = true)
    (q : ByteSeq) (r : Nat) :
    syndromes (buildTables primlo gen)
      (polyMul (buildTables primlo gen) q (generatorPoly (buildTables primlo gen) r)) r =
      zeros r := by
  have hg : generatorPoly (buildTables primlo gen) r ≠ [] :=
    List.ne_nil_of_length_eq_add_one (length_generatorPoly _ r)
  refine List.eq_replicate_iff.mpr ⟨length_syndromes .., fun y hy => ?_⟩
  obtain ⟨j, hj, rfl⟩ := List.mem_map.mp hy
  rw [polyEval_polyMul h q hg, polyEval_generatorPoly h (List.mem_range.mp hj), gfMul_zero_right]

/-! ### The commands -/

theorem exec_genpoly {s : State} (hv : s.tv = true) (d : VReg) (r : Byte) :
    exec (.genpoly d r) s = finishV s d (genpolyOut s.tables r.toNat) :=
  requireTables_true s _ hv

theorem exec_encode {s : State} {a : VReg} {m : ByteSeq} (hv : s.tv = true)
    (hm : s.readV a = some m) (d : VReg) (r : Byte) :
    exec (.encode d a r) s = finishV s d (rsEncode s.tables m r.toNat) :=
  (requireTables_true s _ hv).trans (sourceV_some s a _ m hm)

theorem toNat_ne_zero {r : Byte} (hr : r ≠ 0#8) : r.toNat ≠ 0 :=
  mt (BitVec.toNat_inj (y := 0#8)).mp hr

theorem genpolyOut_of_ne_zero (t : Tables) {r : Nat} (hr : r ≠ 0) :
    genpolyOut t r = .ok (generatorPoly t r) :=
  if_neg hr

end Sys2Proof.Machine
end
section
/-! The obligations of the encoder. -/

namespace Sys2Proof.Machine

/-- Settles O42, by induction on the number of factors: each has leading coefficient 1. -/
theorem genpolyMultipliesTheFactors : Obligations.GenpolyMultipliesTheFactors := by
  refine ⟨fun d r s => ⟨hasEncoding_of_index 19 (by decide) (fieldOpc_packWord ..),
      fun hv => exec_tablesInvalid_iff.mpr ⟨rfl, rfl, hv⟩, fun hv hr => ?_,
      fun hv => (exec_genpoly hv d 0#8).trans (finishV_error s d .invalidInput)⟩,
    fun t => ⟨rfl, fun r => ⟨generatorPoly_succ t r, length_generatorPoly t r⟩, fun h r => ?_⟩⟩
  · rw [exec_genpoly hv, genpolyOut_of_ne_zero s.tables (toNat_ne_zero hr), finishV_ok]
  · obtain ⟨vs, -, hvs⟩ := h.generatorPoly_eq_one_cons r
    rw [hvs, List.getD_cons_zero]

/-- Settles O43: the generator polynomial is monic, so the division never raises. -/
theorem encodeAppendsTheRemainder : Obligations.EncodeAppendsTheRemainder := by
  refine fun d a r m s => ⟨hasEncoding_of_index 20 (by decide) (fieldOpc_packWord ..),
    fun hv => exec_tablesInvalid_iff.mpr ⟨rfl, rfl, hv⟩, fun hv ht hm hmn hr hl => ?_,
    fun hv hm hbad => ?_⟩
  · obtain ⟨quo, rem, hdiv⟩ := ht.polyDivmod_generatorPoly_ok hmn r.toNat
    refine ⟨quo, rem, hdiv, ht.length_remainder_generatorPoly hdiv, ?_⟩
    rw [exec_encode hv hm, rsEncode_of_fits hmn (toNat_ne_zero hr) hl hdiv, finishV_ok]
  · have hbad' := hbad.imp_right (Or.imp_left (congrArg BitVec.toNat))
    rw [exec_encode hv hm, rsEncode_error s.tables hbad', finishV_error, Raise.toCode]

/-- Settles O44: a codeword is a multiple of the generator polynomial, whose roots are the α^j. -/
theorem codewordsHaveZeroSyndromes : Obligations.CodewordsHaveZeroSyndromes := by
  intro primlo gen m c r h henc
  obtain ⟨hm, quo, rem, hdiv, rfl⟩ := rsEncode_ok henc
  have ht := buildTables_valid h
  refine ⟨by rw [List.length_append, ht.length_remainder_generatorPoly hdiv],
    List.take_left, ?_⟩
  rw [← ht.polyMul_quotient_generatorPoly hm hdiv]
  exact syndromes_polyMul_generatorPoly h quo r

end Sys2Proof.Machine
end
section
/-! The commands of the syndrome calculator past their checks (R79), and the values of their
functions (R182, R184, R187). -/

namespace Sys2Proof.Machine

/-! ### The commands -/

section
variable {s : State} {a : VReg} {p : ByteSeq} (hv : s.tv = true) (hp : s.readV a = some p)
include hv hp

/-- A table-using command with one buffer as source. -/
theorem requireTables_sourceV (k : ByteSeq → Result) : requireTables s (sourceV s a k) = k p := by
  rw [requireTables_true s _ hv, sourceV_some s a k p hp]

theorem exec_synd (d : VReg) (r : Byte) :
    exec (.synd d a r) s = finishV s d (syndOut s.tables p r.toNat) :=
  requireTables_sourceV hv hp fun w => finishV s d (syndOut s.tables w r.toNat)

theorem exec_eloc (d : VReg) (n : Byte) :
    exec (.eloc d a n) s = finishV s d (elocOut s.tables p n.toNat) :=
  requireTables_sourceV hv hp fun ps => finishV s d (elocOut s.tables ps n.toNat)

theorem exec_fsynd (d : VReg) {b : VReg} {g : ByteSeq} (hg : s.readV b = some g) :
    exec (.fsynd d a b) s = finishV s d (fsyndOut s.tables p g) :=
  requireTables_sourceV_sourceV hv hp hg fun x g => finishV s d (fsyndOut s.tables x g)

end

/-! ### Syndromes (R180, R182) -/

theorem syndOut_of_fits (t : Tables) {w : ByteSeq} {r : Nat} (hw : w ≠ []) (hl : w.length ≤ 255)
    (hr : r ≠ 0) : syndOut t w r = .ok (syndromes t w r) := by
  have hpos := List.length_pos_iff.mpr hw
  rw [syndOut, if_neg (by rw [Config.nMax]; omega)]

theorem syndOut_error (t : Tables) {w : ByteSeq} {r : Nat}
    (h : w = [] ∨ 255 < w.length ∨ r = 0) : syndOut t w r = .error .invalidInput := by
  rw [← List.length_eq_zero_iff] at h
  exact if_pos h

/-! ### Errata locators (R183, R184) -/

/-- ELOC's first test reads the positions one by one: some position is not below n. -/
theorem any_position_ge_iff {ps : ByteSeq} {n : Nat} :
    ps.any (fun p => decide (n ≤ p.toNat)) = true ↔ ∃ p ∈ ps, n ≤ p.toNat := by
  simp only [List.any_eq_true, decide_eq_true_eq]

theorem elocOut_of_fits (t : Tables) {ps : ByteSeq} {n : Nat} (hn : n ≠ 0)
    (hps : ∀ p ∈ ps, p.toNat < n) (hl : ps.length + 1 ≤ 512) :
    elocOut t ps n = .ok (errataLocator t ps n) := by
  have hbelow : ¬ ∃ p ∈ ps, n ≤ p.toNat := fun ⟨p, hp, hle⟩ => Nat.not_le.mpr (hps p hp) hle
  exact (if_neg (not_or.mpr ⟨hn, mt any_position_ge_iff.mp hbelow⟩)).trans
    (if_neg (Nat.not_lt.mpr hl))

theorem elocOut_error (t : Tables) {ps : ByteSeq} {n : Nat}
    (h : n = 0 ∨ (∃ p ∈ ps, n ≤ p.toNat) ∨ 512 < ps.length + 1) :
    elocOut t ps n = .error .invalidInput := by
  rw [← any_position_ge_iff, ← or_assoc] at h
  unfold elocOut
  split
  · rfl
  next hfirst => exact if_pos (h.resolve_left hfirst)

/-! ### Forney syndromes (R186, R187) -/

/-- T[j] in terms of Γ's coefficients (R186): its elements in reverse order are the coefficients. -/
theorem forneySyndrome_reverse (t : Tables) (sy g : ByteSeq) (k : Nat) :
    forneySyndrome t sy g.reverse k = fun j => xorSum ((List.range (k + 1)).map fun i =>
      gfMul t (polyCoef g i) (sy.getD (j + k - i) 0#8)) := rfl

/-- Past the test for empty operands FSYND is R186's function. -/
theorem fsyndOut_of_ne_nil (t : Tables) {sy g : ByteSeq} (hsy : sy ≠ []) (hg : g ≠ []) :
    fsyndOut t sy g = forneySyndromes t sy g :=
  if_neg (not_or.mpr ⟨mt List.length_eq_zero_iff.mp hsy, mt List.length_eq_zero_iff.mp hg⟩)

theorem fsyndOut_of_nil (t : Tables) {sy g : ByteSeq} (h : sy = [] ∨ g = []) :
    fsyndOut t sy g = .error .invalidInput :=
  if_pos (h.imp List.length_eq_zero_iff.mpr List.length_eq_zero_iff.mpr)

theorem forneySyndromes_of_le (t : Tables) {sy g : ByteSeq} (h : g.length - 1 ≤ sy.length) :
    forneySyndromes t sy g = .ok ((List.range (sy.length - (g.length - 1))).map
      (forneySyndrome t sy g.reverse (g.length - 1))) :=
  if_neg (Nat.not_lt.mpr h)

theorem forneySyndromes_of_lt (t : Tables) {sy g : ByteSeq} (h : sy.length < g.length - 1) :
    forneySyndromes t sy g = .error .uncorrectable :=
  if_pos h

end Sys2Proof.Machine
end
section
/-! The obligations of the syndrome calculator. -/

namespace Sys2Proof.Machine

/-- Settles O46: the fold over the positions appends one factor for each. -/
theorem elocMultipliesTheLocators : Obligations.ElocMultipliesTheLocators := by
  refine ⟨fun d a n ps s => ⟨hasEncoding_of_index 22 (by decide) (fieldOpc_packWord ..),
      fun hv => exec_tablesInvalid_iff.mpr ⟨rfl, rfl, hv⟩, fun hv hp hn hps hl => ?_,
      fun hv hp hbad => ?_⟩,
    fun t n => ⟨rfl, fun ps p => ⟨errataLocator_append t ps p n, length_errataLocator t ps n⟩⟩⟩
  · rw [exec_eloc hv hp, elocOut_of_fits s.tables (toNat_ne_zero hn) hps hl, finishV_ok]
  · have hbad' := hbad.imp_left (congrArg BitVec.toNat)
    rw [exec_eloc hv hp, elocOut_error s.tables hbad', finishV_error, Raise.toCode]

/-- Settles O47: the lengths of S and Γ decide between r - s sums and a raise. -/
theorem fsyndComputesTheForneySyndromes : Obligations.FsyndComputesTheForneySyndromes := by
  refine fun d a b sy g s => ⟨hasEncoding_of_index 23 (by decide) (fieldOpc_packWord ..),
    fun hv => exec_tablesInvalid_iff.mpr ⟨rfl, rfl, hv⟩, fun hv hsy hg hsyn hgn hle => ?_,
    fun hv hsy hg hsyn hgn hlt => ?_, fun hv hsy hg hnil => ?_⟩
  · rw [exec_fsynd hv hsy d hg, fsyndOut_of_ne_nil s.tables hsyn hgn,
      forneySyndromes_of_le s.tables hle, forneySyndrome_reverse, finishV_ok]
  · rw [exec_fsynd hv hsy d hg, fsyndOut_of_ne_nil s.tables hsyn hgn,
      forneySyndromes_of_lt s.tables hlt, finishV_error, Raise.toCode]
  · rw [exec_fsynd hv hsy d hg, fsyndOut_of_nil s.tables hnil, finishV_error, Raise.toCode]

/-- Settles O45: SYND's one test decides between the values at the roots and a raise. -/
theorem syndEvaluatesAtTheRoots : Obligations.SyndEvaluatesAtTheRoots := by
  refine fun d a r w s => ⟨hasEncoding_of_index 21 (by decide) (fieldOpc_packWord ..),
    fun hv => exec_tablesInvalid_iff.mpr ⟨rfl, rfl, hv⟩, fun hv hw hwn hl hr => ?_,
    fun hv hw hbad => ?_⟩
  · rw [exec_synd hv hw, syndOut_of_fits s.tables hwn hl (toNat_ne_zero hr), finishV_ok, syndromes]
  · have hbad' := hbad.imp_right (Or.imp_right (congrArg BitVec.toNat))
    rw [exec_synd hv hw, syndOut_error s.tables hbad', finishV_error, Raise.toCode]

end Sys2Proof.Machine
end
section
/-! The degree of a polynomial by its coefficients (R9). -/

namespace Sys2Proof.Machine

/-- A leading 0 is no coefficient. -/
theorem polyCoef_zero_cons (p : ByteSeq) (j : Nat) : polyCoef (0#8 :: p) j = polyCoef p j := by
  have hpad : padTo (p.length + 1) p = 0#8 :: p := by
    rw [padTo, Nat.add_sub_cancel_left]
    rfl
  rw [← hpad, polyCoef_padTo]

@[simp] theorem polyCoef_norm (p : ByteSeq) (j : Nat) : polyCoef (norm p) j = polyCoef p j := by
  induction p with
  | nil => rfl
  | cons a p ih =>
    cases p with
    | nil => rfl
    | cons b p =>
      rw [norm]
      split
      next ha => rw [ih, ha, polyCoef_zero_cons]
      next => rfl

/-- The first element is the coefficient of the highest degree. -/
theorem polyCoef_cons_length (a : Byte) (p : ByteSeq) : polyCoef (a :: p) p.length = a := by
  rw [polyCoef, List.reverse_cons, List.getD_append_right _ _ _ _ (by simp)]
  simp

theorem polyCoef_of_length_le {p : ByteSeq} {j : Nat} (h : p.length ≤ j) : polyCoef p j = 0#8 :=
  List.getD_eq_default _ _ (by simpa using h)

theorem isZero_eq_false_of_polyCoef {p : ByteSeq} {j : Nat} (h : polyCoef p j ≠ 0#8) :
    isZero p = false := by
  rw [← Bool.not_eq_true, isZero_iff]
  intro hp
  have hj : j < p.reverse.length := not_le.mp fun hle => h (List.getD_eq_default _ _ hle)
  rw [polyCoef, List.getD_eq_getElem _ _ hj] at h
  exact h (hp _ (List.mem_reverse.mp (List.getElem_mem hj)))

/-- The degree of a polynomial other than 0 is the highest degree with a coefficient other than 0. -/
theorem polyDeg_eq_iff {p : ByteSeq} (h : isZero p = false) (l : Nat) :
    polyDeg p = l ↔ polyCoef p l ≠ 0#8 ∧ ∀ i, l < i → polyCoef p i = 0#8 := by
  obtain ⟨v0, vs, hn, hv0⟩ := exists_norm_eq_cons h
  have hlead : polyCoef p vs.length = v0 := by rw [← polyCoef_norm, hn, polyCoef_cons_length]
  have habove : ∀ i, vs.length < i → polyCoef p i = 0#8 := fun i hi => by
    rw [← polyCoef_norm, hn, polyCoef_of_length_le hi]
  have hdeg : polyDeg p = vs.length := by simp [polyDeg, h, hn]
  rw [hdeg]
  constructor
  · rintro rfl
    exact ⟨hlead ▸ hv0, habove⟩
  · rintro ⟨hl, hl'⟩
    rcases Nat.lt_trichotomy vs.length l with hlt | heq | hgt
    · exact absurd (habove l hlt) hl
    · exact heq
    · exact absurd (hlead.symm.trans (hl' _ hgt)) hv0

/-- A leading element other than 0 gives the degree. -/
theorem polyDeg_of_head {p : ByteSeq} (h : p.getD 0 0#8 ≠ 0#8) : polyDeg p = p.length - 1 := by
  cases p with
  | nil => exact absurd rfl h
  | cons a p =>
    rw [List.getD_cons_zero] at h
    simp [polyDeg, isZero, h, norm_of_head h]

/-- The last element is the constant term. -/
@[simp] theorem polyCoef_concat_zero (p : ByteSeq) (a : Byte) : polyCoef (p ++ [a]) 0 = a := by
  simp [polyCoef]

end Sys2Proof.Machine
end
section
/-! The run of Berlekamp-Massey (R200): what every turn keeps, the variables at each turn, and the
result by R201's tests. -/

namespace Sys2Proof.Machine

/-! ### What every turn keeps -/

/-- What holds of R200's variables before turn k: b is not 0, so `gf_div(d, b)` never raises; m ≥ 1, so
an update leaves C_0 alone; C_0 = 1; and L ≤ k. -/
structure BmInv (k : Nat) (z : BmState) : Prop where
  disc_ne_zero : z.disc ≠ 0#8
  m_pos : 0 < z.m
  constant : lowCoef z.c 0 = 1#8
  len_le : z.len ≤ k

theorem bmInv_bmStart : BmInv 0 bmStart := ⟨by decide, by decide, rfl, Nat.le_refl 0⟩

/-- An update shifts B up by m ≥ 1 degrees, so it does not reach C_0. -/
theorem lowCoef_bmUpdate_zero (t : Tables) {z : BmState} (hm : 0 < z.m) (q : Byte) :
    lowCoef (bmUpdate t z q) 0 = lowCoef z.c 0 := by
  rw [lowCoef_bmUpdate, if_pos hm]

theorem BmInv.bmTurn_ok {t : Tables} {ts : ByteSeq} {k : Nat} {z : BmState} (h : BmInv k z) :
    ∃ z', bmTurn t ts z k = .ok z' ∧ BmInv (k + 1) z' := by
  obtain ⟨hdisc, hm, hc, hlen⟩ := h
  by_cases hd : bmDiscrepancy t ts z k = 0#8
  · exact ⟨_, bmTurn_zero hd, hdisc, Nat.succ_pos _, hc, Nat.le_succ_of_le hlen⟩
  · obtain ⟨q, -, hturn⟩ := bmTurn_ne_zero hd hdisc
    have hc' : lowCoef (bmUpdate t z q) 0 = 1#8 := (lowCoef_bmUpdate_zero t hm q).trans hc
    refine ⟨_, hturn, ?_⟩
    split
    · exact ⟨hd, Nat.one_pos, hc', Nat.sub_le ..⟩
    · exact ⟨hdisc, Nat.succ_pos _, hc', Nat.le_succ_of_le hlen⟩

theorem bmLoop_range_ok (t : Tables) (ts : ByteSeq) (k : Nat) :
    ∃ z, bmLoop t ts (List.range k) bmStart = .ok z ∧ BmInv k z := by
  induction k with
  | zero => exact ⟨bmStart, rfl, bmInv_bmStart⟩
  | succ k ih =>
    obtain ⟨z, hz, hinv⟩ := ih
    obtain ⟨z', hturn, hinv'⟩ := hinv.bmTurn_ok (t := t) (ts := ts)
    exact ⟨z', by rw [List.range_succ, bmLoop_append, hz]; exact hturn, hinv'⟩

/-! ### The variables before turn k -/

/-- R200's variables before turn k. The loop never raises (`bmLoop_eq_bmAt`), so the default stands for
nothing. -/
def bmAt (t : Tables) (ts : ByteSeq) (k : Nat) : BmState :=
  (bmLoop t ts (List.range k) bmStart).toOption.getD bmStart

section
variable (t : Tables) (ts : ByteSeq) (k : Nat)

theorem bmLoop_eq_bmAt : bmLoop t ts (List.range k) bmStart = .ok (bmAt t ts k) := by
  obtain ⟨z, hz, -⟩ := bmLoop_range_ok t ts k
  rw [bmAt, hz]
  rfl

theorem bmInv_bmAt : BmInv k (bmAt t ts k) := by
  obtain ⟨z, hz, hinv⟩ := bmLoop_range_ok t ts k
  obtain rfl : z = bmAt t ts k := Except.ok.inj (hz.symm.trans (bmLoop_eq_bmAt t ts k))
  exact hinv

theorem bmTurn_bmAt : bmTurn t ts (bmAt t ts k) k = .ok (bmAt t ts (k + 1)) := by
  have h := bmLoop_eq_bmAt t ts (k + 1)
  rwa [List.range_succ, bmLoop_append, bmLoop_eq_bmAt] at h

end

section
variable {t : Tables} {ts : ByteSeq} {k : Nat}

/-- A turn with discrepancy 0 moves m on. -/
theorem bmAt_succ_of_zero (hd : bmDiscrepancy t ts (bmAt t ts k) k = 0#8) :
    bmAt t ts (k + 1) = { bmAt t ts k with m := (bmAt t ts k).m + 1 } :=
  Except.ok.inj ((bmTurn_bmAt t ts k).symm.trans (bmTurn_zero hd))

/-- A turn with another discrepancy updates C by q = d / b; 2L ≤ k decides on the new best prior. -/
theorem bmAt_succ_of_ne_zero (hd : bmDiscrepancy t ts (bmAt t ts k) k ≠ 0#8) :
    ∃ q, gfDiv t (bmDiscrepancy t ts (bmAt t ts k) k) (bmAt t ts k).disc = .ok q ∧
      bmAt t ts (k + 1) = if 2 * (bmAt t ts k).len ≤ k
        then { c := bmUpdate t (bmAt t ts k) q, b := (bmAt t ts k).c,
               len := k + 1 - (bmAt t ts k).len, m := 1,
               disc := bmDiscrepancy t ts (bmAt t ts k) k }
        else { bmAt t ts k with
               c := bmUpdate t (bmAt t ts k) q, m := (bmAt t ts k).m + 1 } := by
  obtain ⟨q, hq, hturn⟩ := bmTurn_ne_zero hd (bmInv_bmAt t ts k).disc_ne_zero
  exact ⟨q, hq, Except.ok.inj ((bmTurn_bmAt t ts k).symm.trans hturn)⟩

end

/-! ### R201's tests and the result -/

/-- R200's two tests at the end, passed: 2L ≤ N, and C has degree L. -/
def BmPasses (n : Nat) (z : BmState) : Prop :=
  2 * z.len ≤ n ∧ lowCoef z.c z.len ≠ 0#8 ∧ ∀ i, z.len < i → lowCoef z.c i = 0#8

theorem lowCoef_eq_polyCoef (c : ByteSeq) (i : Nat) : lowCoef c i = polyCoef c.reverse i := by
  rw [polyCoef, List.reverse_reverse, lowCoef]

/-- With C_0 = 1 the model's test of deg(C) is a test of C's coefficients. -/
theorem BmInv.lowDeg_eq_iff {k : Nat} {z : BmState} (h : BmInv k z) (l : Nat) :
    lowDeg z.c = l ↔ lowCoef z.c l ≠ 0#8 ∧ ∀ i, l < i → lowCoef z.c i = 0#8 := by
  have h0 : polyCoef z.c.reverse 0 ≠ 0#8 := by
    rw [← lowCoef_eq_polyCoef, h.constant]
    decide
  simp only [lowDeg, polyDeg_eq_iff (isZero_eq_false_of_polyCoef h0), lowCoef_eq_polyCoef]

section
variable {t : Tables} {ts : ByteSeq}

theorem bmPasses_bmAt_iff :
    BmPasses ts.length (bmAt t ts ts.length) ↔
      ¬ (ts.length < 2 * (bmAt t ts ts.length).len ∨
        lowDeg (bmAt t ts ts.length).c ≠ (bmAt t ts ts.length).len) := by
  rw [BmPasses, ← (bmInv_bmAt t ts ts.length).lowDeg_eq_iff, not_or, not_lt, not_not]

theorem berlekampMassey_of_passes (h : BmPasses ts.length (bmAt t ts ts.length)) :
    berlekampMassey t ts = .ok ((List.range ((bmAt t ts ts.length).len + 1)).map fun i =>
      lowCoef (bmAt t ts ts.length).c ((bmAt t ts ts.length).len - i)) := by
  rw [berlekampMassey, bmLoop_eq_bmAt]
  exact if_neg (bmPasses_bmAt_iff.mp h)

theorem berlekampMassey_of_not_passes (h : ¬ BmPasses ts.length (bmAt t ts ts.length)) :
    berlekampMassey t ts = .error .uncorrectable := by
  rw [bmPasses_bmAt_iff, not_not] at h
  rw [berlekampMassey, bmLoop_eq_bmAt]
  exact if_pos h

/-- UNCORRECTABLE is the only raise. -/
theorem berlekampMassey_error {x : Raise} (h : berlekampMassey t ts = .error x) :
    x = .uncorrectable := by
  by_cases hp : BmPasses ts.length (bmAt t ts ts.length)
  · rw [berlekampMassey_of_passes hp] at h
    cases h
  · rw [berlekampMassey_of_not_passes hp] at h
    exact (Except.error.inj h).symm

/-- R203's first property, with Λ's leading element besides. -/
theorem berlekampMassey_ok {lam : ByteSeq} (h : berlekampMassey t ts = .ok lam) :
    lam ≠ [] ∧ polyCoef lam 0 = 1#8 ∧ lam.getD 0 0#8 ≠ 0#8 ∧
      polyDeg lam = lam.length - 1 ∧ 2 * (lam.length - 1) ≤ ts.length := by
  by_cases hp : BmPasses ts.length (bmAt t ts ts.length)
  · obtain rfl := Except.ok.inj ((berlekampMassey_of_passes hp).symm.trans h)
    obtain ⟨hbudget, hlead, -⟩ := hp
    refine ⟨by simp, ?_, ?head, polyDeg_of_head ?head, by simpa using hbudget⟩
    · rw [List.range_succ, List.map_append, List.map_singleton, Nat.sub_self, polyCoef_concat_zero]
      exact (bmInv_bmAt t ts ts.length).constant
    · rw [List.range_succ_eq_map, List.map_cons, List.getD_cons_zero, Nat.sub_zero]
      exact hlead
  · rw [berlekampMassey_of_not_passes hp] at h
    cases h

/-! ### A zero operand (R202) -/

theorem getD_of_isZero (h : isZero ts = true) (j : Nat) : ts.getD j 0#8 = 0#8 := by
  rcases lt_or_ge j ts.length with hj | hj
  · rw [List.getD_eq_getElem _ _ hj]
    exact (isZero_iff ts).mp h _ (List.getElem_mem hj)
  · exact List.getD_eq_default _ _ hj

theorem bmDiscrepancy_of_isZero (h : isZero ts = true) (z : BmState) (k : Nat) :
    bmDiscrepancy t ts z k = 0#8 := by
  simp only [bmDiscrepancy, getD_of_isZero h, gfMul_zero_right, xorSum_map_zero, BitVec.xor_zero]

/-- With no discrepancy C and L stay as they start. -/
theorem bmAt_of_isZero (h : isZero ts = true) (k : Nat) :
    bmAt t ts k = { bmStart with m := k + 1 } := by
  induction k with
  | zero => rfl
  | succ k ih => rw [bmAt_succ_of_zero (bmDiscrepancy_of_isZero h _ k), ih]

theorem berlekampMassey_of_isZero (h : isZero ts = true) :
    berlekampMassey t ts = .ok [1#8] := by
  have hat := bmAt_of_isZero (t := t) h ts.length
  have hpass : BmPasses ts.length (bmAt t ts ts.length) := by
    rw [hat]
    exact ⟨Nat.zero_le _, (by decide : (1#8 : Byte) ≠ 0#8), fun i hi => List.getD_eq_default _ _ hi⟩
  rw [berlekampMassey_of_passes hpass, hat]
  rfl

end

/-! ### The command -/

theorem exec_bma {s : State} {a : VReg} {p : ByteSeq} (hv : s.tv = true)
    (hp : s.readV a = some p) (d : VReg) :
    exec (.bma d a) s = finishV s d (berlekampMassey s.tables p) :=
  requireTables_sourceV hv hp fun ts => finishV s d (berlekampMassey s.tables ts)

end Sys2Proof.Machine
end
section
/-! The obligations of Berlekamp-Massey. -/

namespace Sys2Proof.Machine

/-- Settles O48: the function's one raise is UNCORRECTABLE, and no discrepancy leaves Λ = 1. -/
theorem bmaWritesTheLocator : Obligations.BmaWritesTheLocator := by
  refine fun d a ts s => ⟨hasEncoding_of_index 24 (by decide) (fieldOpc_packWord ..),
    fun hv => exec_tablesInvalid_iff.mpr ⟨rfl, rfl, hv⟩, fun lam hv hts hlam => ?_,
    fun c hv hts herr => ?_, fun hv hts hz => ?_⟩
  · rw [exec_bma hv hts, hlam, finishV_ok]
  · rw [exec_bma hv hts, herr, berlekampMassey_error herr, finishV_error, Raise.toCode]
  · rw [exec_bma hv hts, berlekampMassey_of_isZero hz, finishV_ok]

/-- Settles O49: the variables of the recurrence are those of the model's run at each turn. -/
theorem berlekampMasseyResultShape : Obligations.BerlekampMasseyResultShape := by
  refine fun t ts => ⟨⟨fun k => lowCoef (bmAt t ts k).c, fun k => lowCoef (bmAt t ts k).b,
    fun k => (bmAt t ts k).len, fun k => (bmAt t ts k).m, fun k => (bmAt t ts k).disc,
    ⟨fun i => ?_, fun _ => rfl, rfl, rfl, rfl⟩, fun k _ => (bmInv_bmAt t ts k).len_le,
    fun k d _ hd => ⟨fun hzero => ?_, fun hne => ?_⟩, ?_⟩,
    fun _ => berlekampMassey_ok, fun _ => berlekampMassey_error⟩
  · cases i <;> rfl
  · have hturn := bmAt_succ_of_zero (hd.symm.trans hzero)
    simp only [hturn, and_self]
  · obtain rfl : d = bmDiscrepancy t ts (bmAt t ts k) k := hd
    obtain ⟨q, hq, hturn⟩ := bmAt_succ_of_ne_zero hne
    refine ⟨q, hq, fun i => ?_, fun hswap => ?_, fun hkeep => ?_⟩
    · have hc : (bmAt t ts (k + 1)).c = bmUpdate t (bmAt t ts k) q := by
        rw [hturn]
        split <;> rfl
      simp only [hc, lowCoef_bmUpdate]
    · rw [if_pos hswap] at hturn
      simp only [hturn, and_self]
    · rw [if_neg (Nat.not_le.mpr hkeep)] at hturn
      simp only [hturn, and_self]
  · rintro n l rfl rfl
    exact ⟨berlekampMassey_of_passes, berlekampMassey_of_not_passes⟩

end Sys2Proof.Machine
end
section
/-! The root finder (R220): the positions found, the cases of its functions, and ROOTS past its checks
(R79, R221). -/

namespace Sys2Proof.Machine

/-! ### The root positions -/

section
variable (t : Tables) (lam : ByteSeq) (n : Nat)

theorem mem_rootPositions {p : Nat} :
    p ∈ rootPositions t lam n ↔ p < n ∧ polyEval t lam (locatorInverse t p n) = 0#8 := by
  rw [rootPositions, List.mem_filter, List.mem_range, beq_iff_eq]

theorem pairwise_lt_rootPositions : (rootPositions t lam n).Pairwise (· < ·) :=
  List.pairwise_lt_range.filter _

/-- R181 reduces the exponent of X_p^(-1) modulo 255, the order of α. -/
theorem alpha_inverse_exponent (p : Nat) :
    alpha t ((255 - (n - 1 - p)) % 255) = locatorInverse t p n :=
  alpha_congr t (Nat.mod_mod _ _)

end

/-- As a byte, a position below n ≤ 256 keeps its value. -/
theorem toNat_ofNat_of_mem_rootPositions {t : Tables} {lam : ByteSeq} {n p : Nat} (hn : n ≤ 256)
    (hp : p ∈ rootPositions t lam n) : (BitVec.ofNat 8 p).toNat = p := by
  obtain ⟨hlt, -⟩ := (mem_rootPositions t lam n).mp hp
  exact Nat.mod_eq_of_lt (hlt.trans_le hn)

/-! ### The cases of the functions -/

section
variable {t : Tables} {lam : ByteSeq} {n : Nat}

theorem findRoots_of_length_eq (h : (rootPositions t lam n).length = polyDeg lam) :
    findRoots t lam n = .ok ((rootPositions t lam n).map (BitVec.ofNat 8)) :=
  if_neg (not_not.mpr h)

theorem findRoots_of_length_ne (h : (rootPositions t lam n).length ≠ polyDeg lam) :
    findRoots t lam n = .error .uncorrectable :=
  if_pos h

theorem findRoots_ok {ps : ByteSeq} (h : findRoots t lam n = .ok ps) :
    (rootPositions t lam n).length = polyDeg lam ∧
      ps = (rootPositions t lam n).map (BitVec.ofNat 8) := by
  by_cases hlen : (rootPositions t lam n).length = polyDeg lam
  · rw [findRoots_of_length_eq hlen] at h
    exact ⟨hlen, (Except.ok.inj h).symm⟩
  · rw [findRoots_of_length_ne hlen] at h
    cases h

/-- A sequence that is not zero is not empty, so the middle test of R221 asks nothing more. -/
theorem rootsOut_of_ne_zero_of_isZero_false (hn : n ≠ 0) (hlam : isZero lam = false) :
    rootsOut t lam n = findRoots t lam n := by
  have hlen : lam.length ≠ 0 := fun h => by simp [List.length_eq_zero_iff.mp h, isZero] at hlam
  simp [rootsOut, hn, hlen, hlam]

/-- The empty sequence counts as zero (R9). -/
theorem rootsOut_error (h : n = 0 ∨ isZero lam = true) :
    rootsOut t lam n = .error .invalidInput :=
  if_pos (h.imp_right Or.inr)

/-- The degree of a polynomial other than 0 is one less than its normalized length (R9). -/
theorem polyDeg_of_isZero_false (h : isZero lam = false) : polyDeg lam = (norm lam).length - 1 :=
  if_neg (Bool.eq_false_iff.mp h)

end

/-! ### The command -/

theorem exec_roots {s : State} {a : VReg} {lam : ByteSeq} (hv : s.tv = true)
    (hlam : s.readV a = some lam) (d : VReg) (n : Byte) :
    exec (.roots d a n) s = finishV s d (rootsOut s.tables lam n.toNat) :=
  requireTables_sourceV hv hlam fun p => finishV s d (rootsOut s.tables p n.toNat)

end Sys2Proof.Machine
end
section
/-! The obligations of the root finder. -/

namespace Sys2Proof.Machine

/-- Settles O50: R181's exponent is the model's modulo 255, so the positions listed are the model's;
their number against deg(Λ) decides between them and the raise. -/
theorem rootsListsTheRootPositions : Obligations.RootsListsTheRootPositions := by
  refine fun d a n lam s => ⟨hasEncoding_of_index 25 (by decide) (fieldOpc_packWord ..),
    fun hv => exec_tablesInvalid_iff.mpr ⟨rfl, rfl, hv⟩, fun ps hps hv hlam hn hz => ?_,
    fun hv hlam hbad => ?_⟩
  · simp only [alpha_inverse_exponent] at hps
    obtain rfl : ps = rootPositions s.tables lam n.toNat := hps
    rw [← polyDeg_of_isZero_false hz, exec_roots hv hlam,
      rootsOut_of_ne_zero_of_isZero_false (toNat_ne_zero hn) hz]
    constructor
    · intro hlen
      rw [findRoots_of_length_eq hlen, finishV_ok]
    · intro hlen
      rw [findRoots_of_length_ne hlen, finishV_error, Raise.toCode]
  · rw [exec_roots hv hlam, rootsOut_error (hbad.imp_left (congrArg BitVec.toNat)), finishV_error,
      Raise.toCode]

/-- Settles O51: the search filters the ascending range below n, and n ≤ 255 keeps each position whole
as a byte. -/
theorem foundRootsAreAscendingPositions : Obligations.FoundRootsAreAscendingPositions := by
  intro t lam ps n hn h
  have hbyte : ∀ p ∈ rootPositions t lam n, (BitVec.ofNat 8 p).toNat = p := fun p =>
    toNat_ofNat_of_mem_rootPositions (hn.trans (by decide))
  obtain ⟨hlen, rfl⟩ := findRoots_ok h
  refine ⟨by rw [List.length_map, hlen], ?_, fun p => ?_⟩
  · refine List.pairwise_map.mpr ((pairwise_lt_rootPositions t lam n).imp_of_mem ?_)
    intro p q hp hq hlt
    rwa [hbyte p hp, hbyte q hq]
  · rw [← mem_rootPositions, List.mem_map]
    constructor
    · rintro ⟨q, hq, rfl⟩
      rwa [hbyte q hq]
    · exact fun hp => ⟨p.toNat, hp, (BitVec.ofNat_toNat 8 p).trans p.setWidth_eq⟩

end Sys2Proof.Machine
end
section
/-! The Forney corrector: the coefficients of Ω (R230), the denominators (R231), the magnitudes and what
adding them does (R232), and EEVAL and FCORR past their checks (R79, R233, R234). -/

namespace Sys2Proof.Machine

/-! ### The error evaluator (R230) -/

/-- Every coefficient of Ω: past P's length its coefficients are 0, and so are the products. -/
theorem polyCoef_errorEvaluator (t : Tables) (sy psi : ByteSeq) {k : Nat} (hk : k < sy.length) :
    polyCoef (errorEvaluator t sy psi) k = xorSum ((List.range (k + 1)).map fun i =>
      if k - i < psi.length then gfMul t (sy.getD i 0#8) (polyCoef psi (k - i)) else 0#8) := by
  have hcoef : polyCoef (errorEvaluator t sy psi) k = evaluatorCoef t sy psi.reverse k := by
    simp [polyCoef, errorEvaluator, hk]
  rw [hcoef, evaluatorCoef]
  refine congrArg xorSum (List.map_congr_left fun i _ => ?_)
  split
  · rfl
  next hle =>
    have hzero : polyCoef psi (k - i) = 0#8 := polyCoef_of_length_le (Nat.not_lt.mp hle)
    exact (congrArg (gfMul t _) hzero).trans (gfMul_zero_right t _)

/-- Sequences of one length with the same coefficients are equal. -/
theorem eq_of_polyCoef_eq {p q : ByteSeq} (hlen : p.length = q.length)
    (h : ∀ k, k < q.length → polyCoef p k = polyCoef q k) : p = q := by
  refine List.reverse_injective (List.ext_getElem (by simpa using hlen) fun k hp hq => ?_)
  have hk := h k (by simpa using hq)
  rwa [polyCoef, polyCoef, List.getD_eq_getElem _ _ hp, List.getD_eq_getElem _ _ hq] at hk

/-- R230's length and coefficients determine Ω. -/
theorem eq_errorEvaluator {t : Tables} {sy psi om : ByteSeq} (hlen : om.length = sy.length)
    (h : ∀ k, k < sy.length → polyCoef om k = xorSum ((List.range (k + 1)).map fun i =>
      if k - i < psi.length then gfMul t (sy.getD i 0#8) (polyCoef psi (k - i)) else 0#8)) :
    om = errorEvaluator t sy psi := by
  refine eq_of_polyCoef_eq (by rw [hlen, length_errorEvaluator]) fun k hk => ?_
  rw [length_errorEvaluator] at hk
  rw [h k hk, polyCoef_errorEvaluator t sy psi hk]

/-! ### The denominator (R231) -/

/-- A sum over some of the terms is a sum over all, with 0 for the others. -/
theorem xorSum_map_filter {α : Type} (l : List α) (c : α → Bool) (f : α → Byte) :
    xorSum ((l.filter c).map f) = xorSum (l.map fun x => if c x = true then f x else 0#8) := by
  induction l with
  | nil => rfl
  | cons a l ih => by_cases ha : c a = true <;> simp [ha, ih]

/-- The sum over the odd powers only, as a sum over all powers. -/
theorem derivEval_eq (t : Tables) (psi : ByteSeq) (x : Byte) :
    derivEval t psi x = xorSum ((List.range psi.length).map fun k =>
      if k % 2 = 1 then gfMul t (polyCoef psi k) (gfPow t x (k - 1)) else 0#8) := by
  simp only [derivEval, xorSum_map_filter, beq_iff_eq, polyCoef]

/-! ### The magnitudes (R232) -/

section
variable {t : Tables} {psi om : ByteSeq} {n : Nat}

theorem magnitude_of_den_eq_zero {p : Nat} (h : derivEval t psi (locatorInverse t p n) = 0#8) :
    magnitude t psi om p n = .error .uncorrectable :=
  if_pos h

theorem magnitude_of_den_ne_zero {p : Nat} (h : derivEval t psi (locatorInverse t p n) ≠ 0#8) :
    magnitude t psi om p n =
      gfDiv t (gfMul t (locatorValue t p n) (polyEval t om (locatorInverse t p n)))
        (derivEval t psi (locatorInverse t p n)) :=
  if_neg h

theorem magnitude_ok {p : Nat} (h : derivEval t psi (locatorInverse t p n) ≠ 0#8) :
    ∃ e, magnitude t psi om p n = .ok e := by
  rw [magnitude_of_den_ne_zero h]
  exact gfDiv_ok t _ h

/-- Without a zero denominator every magnitude exists: the division does not raise. -/
theorem magnitudes_ok {ps : ByteSeq}
    (h : ∀ p ∈ ps, derivEval t psi (locatorInverse t p.toNat n) ≠ 0#8) :
    ∃ es, magnitudes t psi om n ps = .ok es ∧
      ∀ k, k < ps.length →
        magnitude t psi om (ps.getD k 0#8).toNat n = .ok (es.getD k 0#8) := by
  induction ps with
  | nil => exact ⟨[], rfl, fun k hk => absurd hk (Nat.not_lt_zero k)⟩
  | cons p ps ih =>
    obtain ⟨hp, hps⟩ := List.forall_mem_cons.mp h
    obtain ⟨es, hes, hk⟩ := ih hps
    obtain ⟨e, he⟩ := magnitude_ok (om := om) hp
    refine ⟨e :: es, by simp only [magnitudes, he, hes], fun k hlt => ?_⟩
    cases k with
    | zero => exact he
    | succ k => exact hk k (Nat.lt_of_succ_lt_succ hlt)

/-- A zero denominator ends them: whatever stands before it raises nothing else. -/
theorem magnitudes_error {ps : ByteSeq}
    (h : ∃ p ∈ ps, derivEval t psi (locatorInverse t p.toNat n) = 0#8) :
    magnitudes t psi om n ps = .error .uncorrectable := by
  induction ps with
  | nil => simp at h
  | cons p ps ih =>
    by_cases hp : derivEval t psi (locatorInverse t p.toNat n) = 0#8
    · simp only [magnitudes, magnitude_of_den_eq_zero hp]
    · obtain ⟨e, he⟩ := magnitude_ok (om := om) hp
      have hrest := ih (by simpa [hp] using h)
      simp only [magnitudes, he, hrest]

end

/-! ### Adding the magnitudes (R232) -/

/-- One write changes the symbol at its position alone. -/
theorem getD_modify_xor (w : ByteSeq) (p : Nat) (e : Byte) {i : Nat} (hi : i < w.length) :
    (w.modify p (· ^^^ e)).getD i 0#8 = w.getD i 0#8 ^^^ if p = i then e else 0#8 := by
  rw [List.getD_eq_getElem?_getD, List.getElem?_modify, List.getD_eq_getElem?_getD,
    List.getElem?_eq_getElem hi]
  split <;> simp

/-- Every symbol takes the magnitudes of its position, the others none. -/
theorem getD_applyMagnitudes (w : ByteSeq) (pes : List (Byte × Byte)) {i : Nat}
    (hi : i < w.length) :
    (applyMagnitudes w pes).getD i 0#8 =
      w.getD i 0#8 ^^^ xorSum ((pes.filter fun pe => pe.1.toNat == i).map (·.2)) := by
  induction pes generalizing w with
  | nil => exact (BitVec.xor_zero).symm
  | cons pe pes ih =>
    have hi' : i < (w.modify pe.1.toNat (· ^^^ pe.2)).length := by rwa [List.length_modify]
    rw [applyMagnitudes, List.foldl_cons, ← applyMagnitudes, ih _ hi', getD_modify_xor w _ _ hi]
    by_cases hpe : pe.1.toNat = i <;> simp [hpe, BitVec.xor_assoc]

/-! ### The cases of the functions -/

theorem eevalOut_of_ne_nil (t : Tables) {sy psi : ByteSeq} (hsy : sy ≠ []) (hpsi : psi ≠ []) :
    eevalOut t sy psi = .ok (errorEvaluator t sy psi) :=
  if_neg (not_or.mpr ⟨mt List.length_eq_zero_iff.mp hsy, mt List.length_eq_zero_iff.mp hpsi⟩)

theorem eevalOut_of_nil (t : Tables) {sy psi : ByteSeq} (h : sy = [] ∨ psi = []) :
    eevalOut t sy psi = .error .invalidInput :=
  if_pos (h.imp List.length_eq_zero_iff.mpr List.length_eq_zero_iff.mpr)

section
variable {t : Tables} {w sy ps : ByteSeq}

theorem forneyCorrect_of_magnitudes {es : ByteSeq} (hlen : ps.length ≤ sy.length)
    (h : magnitudes t (errataLocator t ps w.length)
      (errorEvaluator t sy (errataLocator t ps w.length)) w.length ps = .ok es) :
    forneyCorrect t w sy ps = .ok (applyMagnitudes w (ps.zip es)) := by
  simp only [forneyCorrect, if_neg (Nat.not_lt.mpr hlen), h]

/-- More positions than syndromes, or a zero denominator: either way the raise is UNCORRECTABLE. -/
theorem forneyCorrect_error (h : sy.length < ps.length ∨ ∃ p ∈ ps,
      derivEval t (errataLocator t ps w.length) (locatorInverse t p.toNat w.length) = 0#8) :
    forneyCorrect t w sy ps = .error .uncorrectable := by
  by_cases hlen : sy.length < ps.length
  · exact if_pos hlen
  · simp only [forneyCorrect, if_neg hlen, magnitudes_error (h.resolve_left hlen)]

/-- Past its checks FCORR is R232's function. -/
theorem fcorrOut_of_fits (hw : w ≠ []) (hl : w.length ≤ 255) (hsy : sy ≠ [])
    (hps : ∀ p ∈ ps, p.toNat < w.length) : fcorrOut t w sy ps = forneyCorrect t w sy ps := by
  have hbelow : ¬ ∃ p ∈ ps, w.length ≤ p.toNat := fun ⟨p, hp, hle⟩ => Nat.not_le.mpr (hps p hp) hle
  exact if_neg (not_or.mpr ⟨mt List.length_eq_zero_iff.mp hw, not_or.mpr ⟨Nat.not_lt.mpr hl,
    not_or.mpr ⟨mt List.length_eq_zero_iff.mp hsy, mt any_position_ge_iff.mp hbelow⟩⟩⟩)

theorem fcorrOut_error
    (h : w = [] ∨ 255 < w.length ∨ sy = [] ∨ ∃ p ∈ ps, w.length ≤ p.toNat) :
    fcorrOut t w sy ps = .error .invalidInput := by
  rw [← List.length_eq_zero_iff, ← List.length_eq_zero_iff, ← any_position_ge_iff] at h
  exact if_pos h

end

/-! ### The commands -/

section
variable {s : State} {a b : VReg} (d : VReg) (hv : s.tv = true)
include hv

theorem exec_eeval {sy psi : ByteSeq} (hsy : s.readV a = some sy) (hpsi : s.readV b = some psi) :
    exec (.eeval d a b) s = finishV s d (eevalOut s.tables sy psi) :=
  requireTables_sourceV_sourceV hv hsy hpsi fun x p => finishV s d (eevalOut s.tables x p)

theorem exec_fcorr {c : VReg} {w sy ps : ByteSeq} (hw : s.readV a = some w)
    (hsy : s.readV b = some sy) (hps : s.readV c = some ps) :
    exec (.fcorr d a b c) s = finishV s d (fcorrOut s.tables w sy ps) := by
  rw [exec, execFcorr, requireTables_sourceV hv hw, sourceV_sourceV hsy hps]

end

end Sys2Proof.Machine
end
section
/-! The obligations of the Forney corrector. -/

namespace Sys2Proof.Machine

/-- Settles O52: the model's Ω has R230's coefficients, a coefficient of Ψ past its length being 0. -/
theorem eevalComputesOmega : Obligations.EevalComputesOmega := by
  refine fun d a b sy psi s => ⟨hasEncoding_of_index 26 (by decide) (fieldOpc_packWord ..),
    fun hv => exec_tablesInvalid_iff.mpr ⟨rfl, rfl, hv⟩,
    fun hv hsy hpsi hsyn hpsin => ⟨errorEvaluator s.tables sy psi, length_errorEvaluator ..,
      fun k hk => polyCoef_errorEvaluator s.tables sy psi hk, ?_⟩,
    fun hv hsy hpsi hnil => ?_⟩
  · rw [exec_eeval d hv hsy hpsi, eevalOut_of_ne_nil s.tables hsyn hpsin, finishV_ok]
  · rw [exec_eeval d hv hsy hpsi, eevalOut_of_nil s.tables hnil, finishV_error, Raise.toCode]

/-- Settles O53: the Ω, X, X^(-1) and denominators of the statement are the model's, and a denominator
of 0 is the one thing that keeps a magnitude from existing. -/
theorem fcorrAddsTheMagnitudes : Obligations.FcorrAddsTheMagnitudes := by
  refine fun d a b c w sy ps psi om x xi den s =>
    ⟨hasEncoding_of_index 27 (by decide) (fieldOpc_packWord ..),
    fun hv => exec_tablesInvalid_iff.mpr ⟨rfl, rfl, hv⟩, ?_, fun hv hw hsy hps hbad => ?_⟩
  · intro hpsi homl hom hx hxi hden hv hw hsy hps hwn hwl hsyn hbelow
    obtain rfl := eq_errorEvaluator homl hom
    obtain rfl : xi = fun p => locatorInverse s.tables p.toNat w.length :=
      funext fun p => (hxi p).trans (alpha_inverse_exponent ..)
    obtain rfl : x = fun p => locatorValue s.tables p.toNat w.length := funext hx
    obtain rfl : den = fun p => derivEval s.tables psi (locatorInverse s.tables p.toNat w.length) :=
      funext fun p => (hden p).trans (derivEval_eq ..).symm
    subst hpsi
    rw [exec_fcorr d hv hw hsy hps, fcorrOut_of_fits hwn hwl hsyn hbelow]
    refine ⟨fun hlen hne => ?_, fun hbad => ?_⟩
    · obtain ⟨es, hes, hk⟩ := magnitudes_ok (om := errorEvaluator s.tables sy
        (errataLocator s.tables ps w.length)) hne
      refine ⟨applyMagnitudes w (ps.zip es), es, length_magnitudes hes, ?_,
        length_applyMagnitudes .., fun i hi => getD_applyMagnitudes w _ hi, ?_⟩
      · rintro k p hlt rfl
        have hmem : ps.getD k 0#8 ∈ ps := by
          rw [List.getD_eq_getElem _ _ hlt]
          exact List.getElem_mem hlt
        rw [← magnitude_of_den_ne_zero (hne _ hmem)]
        exact hk k hlt
      · rw [forneyCorrect_of_magnitudes hlen hes, finishV_ok]
    · rw [forneyCorrect_error hbad, finishV_error, Raise.toCode]
  · rw [exec_fcorr d hv hw hsy hps, fcorrOut_error hbad, finishV_error, Raise.toCode]

end Sys2Proof.Machine
end
section
/-! The pipeline of `rs_correct` (R250): its operand checks, how its stages end, and CORRECT past
its checks (R79, R251). -/

namespace Sys2Proof.Machine

/-! ### Syndromes that are all zero -/

theorem isZero_syndromes_iff (t : Tables) (w : ByteSeq) (r : Nat) :
    isZero (syndromes t w r) = true ↔ ∀ j, j < r → polyEval t w (alpha t j) = 0#8 := by
  simp only [isZero_iff, syndromes, List.forall_mem_map, List.mem_range]

/-! ### The stages -/

section
variable {t : Tables} {w sy er ts lam found : ByteSeq} {x : Raise}
variable (hts : forneySyndromes t sy (errataLocator t er w.length) = .ok ts)
include hts

theorem correctStages_of_berlekampMassey_error (h : berlekampMassey t ts = .error x) :
    correctStages t w sy er = .error x := by
  simp only [correctStages, hts, h]

variable (hlam : berlekampMassey t ts = .ok lam)
include hlam

theorem correctStages_of_findRoots_error (h : findRoots t lam w.length = .error x) :
    correctStages t w sy er = .error x := by
  simp only [correctStages, hts, hlam, h]

/-- Once the positions are found, the corrector's outcome is the stages'. -/
theorem correctStages_of_findRoots_ok (h : findRoots t lam w.length = .ok found) :
    correctStages t w sy er = forneyCorrect t w sy (er ++ found) := by
  simp only [correctStages, hts, hlam, h]

end

/-! ### The operand checks -/

/-- What R250 asks of its operands before it counts the erasures. -/
structure CorrectOperands (w er : ByteSeq) (r : Nat) : Prop where
  pos : 1 ≤ r
  lt : r < w.length
  length_le : w.length ≤ 255
  nodup : er.Nodup
  below : ∀ p ∈ er, p.toNat < w.length

/-- The two tests of R250 that raise INVALID_INPUT. -/
theorem correctOperands_iff {w er : ByteSeq} {r : Nat} : CorrectOperands w er r ↔
    (1 ≤ r ∧ r < w.length ∧ w.length ≤ Config.nMax) ∧
      ¬ (distinct er = false ∨ er.any (fun p => decide (w.length ≤ p.toNat)) = true) := by
  rw [← Bool.not_eq_true, distinct_iff, any_position_ge_iff, not_or, not_not, not_exists]
  simp only [not_and, not_le]
  exact ⟨fun ⟨hpos, hlt, hle, hnodup, hbelow⟩ => ⟨⟨hpos, hlt, hle⟩, hnodup, hbelow⟩,
    fun ⟨⟨hpos, hlt, hle⟩, hnodup, hbelow⟩ => ⟨hpos, hlt, hle, hnodup, hbelow⟩⟩

section
variable {t : Tables} {w er : ByteSeq} {r : Nat}

theorem rsCorrect_of_not_operands (h : ¬ CorrectOperands w er r) :
    rsCorrect t w er r = .error .invalidInput := by
  rw [correctOperands_iff] at h
  unfold rsCorrect
  dsimp only
  split
  · rfl
  next hlen => exact if_pos (not_not.mp fun her => h ⟨not_not.mp hlen, her⟩)

variable (h : CorrectOperands w er r)
include h

/-- More erasures than parity symbols. -/
theorem rsCorrect_of_lt (hlt : r < er.length) : rsCorrect t w er r = .error .uncorrectable := by
  obtain ⟨hlen, her⟩ := correctOperands_iff.mp h
  exact (if_neg (not_not.mpr hlen)).trans <| (if_neg her).trans <| if_pos hlt

variable (hle : er.length ≤ r)
include hle

/-- The early return (R252): the erasures are not looked at. -/
theorem rsCorrect_of_isZero (hz : isZero (syndromes t w r) = true) :
    rsCorrect t w er r = .ok (splitWord w r) := by
  obtain ⟨hlen, her⟩ := correctOperands_iff.mp h
  exact (if_neg (not_not.mpr hlen)).trans <| (if_neg her).trans <|
    (if_neg (Nat.not_lt.mpr hle)).trans <| if_pos hz

variable (hz : isZero (syndromes t w r) = false)
include hz

theorem rsCorrect_of_stages_error {x : Raise}
    (hst : correctStages t w (syndromes t w r) er = .error x) :
    rsCorrect t w er r = .error x := by
  obtain ⟨hlen, her⟩ := correctOperands_iff.mp h
  simp only [rsCorrect, if_neg (not_not.mpr hlen), if_neg her, if_neg (Nat.not_lt.mpr hle), hz, hst,
    Bool.false_eq_true, if_false]

/-- The post-check (R253). -/
theorem rsCorrect_of_stages_ok {fixed : ByteSeq}
    (hst : correctStages t w (syndromes t w r) er = .ok fixed) :
    rsCorrect t w er r = if isZero (syndromes t fixed r) then .ok (splitWord fixed r)
      else .error .uncorrectable := by
  obtain ⟨hlen, her⟩ := correctOperands_iff.mp h
  simp only [rsCorrect, if_neg (not_not.mpr hlen), if_neg her, if_neg (Nat.not_lt.mpr hle), hz, hst,
    Bool.false_eq_true, if_false]

end

/-- An answer is a codeword of the received word's length, split (R253). -/
theorem rsCorrect_ok_splitWord {t : Tables} {w er : ByteSeq} {r : Nat} {mp : ByteSeq × ByteSeq}
    (h : rsCorrect t w er r = .ok mp) :
    ∃ fixed : ByteSeq, r < w.length ∧ fixed.length = w.length ∧
      isZero (syndromes t fixed r) = true ∧ mp = splitWord fixed r := by
  by_cases hop : CorrectOperands w er r
  case neg => cases (rsCorrect_of_not_operands hop).symm.trans h
  by_cases hle : er.length ≤ r
  case neg => cases (rsCorrect_of_lt hop (Nat.not_le.mp hle)).symm.trans h
  cases hz : isZero (syndromes t w r) with
  | true =>
    rw [rsCorrect_of_isZero hop hle hz] at h
    exact ⟨w, hop.lt, rfl, hz, (Except.ok.inj h).symm⟩
  | false =>
    cases hst : correctStages t w (syndromes t w r) er with
    | error x => cases (rsCorrect_of_stages_error hop hle hz hst).symm.trans h
    | ok fixed =>
      rw [rsCorrect_of_stages_ok hop hle hz hst] at h
      split at h <;> cases h
      next hfix => exact ⟨fixed, hop.lt, length_correctStages hst, hfix, rfl⟩

/-- Message and parity put together are the codeword again (R253). -/
theorem rsCorrect_ok_codeword {t : Tables} {w er mm pp : ByteSeq} {r : Nat}
    (h : rsCorrect t w er r = .ok (mm, pp)) :
    pp.length = r ∧ (mm ++ pp).length = w.length ∧ isZero (syndromes t (mm ++ pp) r) = true := by
  obtain ⟨fixed, hlt, hlen, hz, hsplit⟩ := rsCorrect_ok_splitWord h
  obtain ⟨rfl, rfl⟩ := Prod.mk.inj hsplit
  rw [List.take_append_drop, List.length_drop]
  exact ⟨by omega, hlen, hz⟩

/-! ### The command -/

theorem exec_correct {s : State} {d c a b : VReg} {w er : ByteSeq} (hdc : d ≠ c)
    (hv : s.tv = true) (hw : s.readV a = some w) (her : s.readV b = some er) (r : Byte) :
    exec (.correct d c a b r) s = finishVV s d c (rsCorrect s.tables w er r.toNat) :=
  (if_neg hdc).trans <| requireTables_sourceV_sourceV hv hw her fun w e =>
    finishVV s d c (rsCorrect s.tables w e r.toNat)

/-- CORRECT's answer with a word: its first n - r symbols to D, its last r to C. -/
theorem finishVV_splitWord (s : State) (d c : VReg) {w fixed : ByteSeq}
    (hlen : fixed.length = w.length) (r : Nat) :
    finishVV s d c (.ok (splitWord fixed r)) = .next { s with
      vreg := (s.vreg.set d (some (fixed.take (w.length - r)))).set c
        (some (fixed.drop (w.length - r))), code := .ok } := by
  rw [splitWord, finishVV_ok, hlen]

end Sys2Proof.Machine
end
section
/-! The obligations of whole-pipeline correction. -/

namespace Sys2Proof.Machine

/-- Settles O54: the operand checks, the count of erasures, the syndromes, the stages and the
post-check decide in this order. -/
theorem correctRunsTheStages : Obligations.CorrectRunsTheStages := by
  refine fun d c a b r w e s hdc => ⟨hasEncoding_of_index 28 (by decide) (fieldOpc_packWord ..),
    fun hv => exec_tablesInvalid_iff.mpr ⟨by simpa [Instr.wf] using hdc, rfl, hv⟩,
    fun hv hw he hbad => ?_, fun hv hw he hr hlt hl hnd hbelow => ?_⟩
  · have hop : ¬ CorrectOperands w e r.toNat := by
      rintro ⟨hpos, hlt, hl, hnd, hbelow⟩
      obtain rfl | hle | hgt | hdup | ⟨p, hp, hge⟩ := hbad
      · exact absurd hpos (by decide)
      · omega
      · omega
      · exact hdup hnd
      · exact Nat.not_le.mpr (hbelow p hp) hge
    rw [exec_correct hdc hv hw he, rsCorrect_of_not_operands hop, finishVV_error, Raise.toCode]
  have hop : CorrectOperands w e r.toNat :=
    ⟨Nat.pos_of_ne_zero (toNat_ne_zero hr), hlt, hl, hnd, hbelow⟩
  rw [exec_correct hdc hv hw he]
  refine ⟨fun hgt => ?_, fun hle hz => ?_, fun hle hz => ⟨?_, ?_⟩⟩
  · rw [rsCorrect_of_lt hop hgt, finishVV_error, Raise.toCode]
  · rw [rsCorrect_of_isZero hop hle ((isZero_syndromes_iff ..).mpr hz),
      finishVV_splitWord s d c rfl]
  · intro ts lam found fixed hts hlam hfound hfixed
    rw [rsCorrect_of_stages_ok hop hle hz
      ((correctStages_of_findRoots_ok hts hlam hfound).trans hfixed)]
    refine ⟨fun hfix => ?_, fun hfix => ?_⟩
    · rw [if_pos hfix, finishVV_splitWord s d c (length_forneyCorrect hfixed)]
    · rw [if_neg (Bool.eq_false_iff.mp hfix), finishVV_error, Raise.toCode]
  · intro ts x hts hraise
    have hst : correctStages s.tables w (syndromes s.tables w r.toNat) e = .error x := by
      obtain hbma | ⟨lam, hlam, hroots | ⟨found, hfound, hforney⟩⟩ := hraise
      · exact correctStages_of_berlekampMassey_error hts hbma
      · exact correctStages_of_findRoots_error hts hlam hroots
      · exact (correctStages_of_findRoots_ok hts hlam hfound).trans hforney
    rw [rsCorrect_of_stages_error hop hle hz hst, finishVV_error]

/-- Settles O55: only an outcome of the pipeline leaves the code OK, and the word it splits is a
codeword. -/
theorem correctReturnsOnlyCodewords : Obligations.CorrectReturnsOnlyCodewords := by
  intro d c a b r w s t hw h hok
  obtain ⟨-, rfl⟩ | ⟨hdc, -, w', hw', e, -, hfin⟩ := execCorrect_next.mp h
  · cases hok
  obtain rfl : w = w' := Option.some.inj (hw.symm.trans hw')
  obtain ⟨mm, pp, hout, rfl⟩ | ⟨x, -, rfl⟩ := finishVV_next.mp hfin
  case inr => exact absurd hok x.toCode_ne_ok
  obtain ⟨hpp, hlen, hz⟩ := rsCorrect_ok_codeword hout
  have hd : ((s.writeV d mm).writeV c pp).readV d = some mm := by
    rw [State.readV_writeV, if_neg hdc.symm, State.readV_writeV_self]
  exact ⟨mm, pp, hd, State.readV_writeV_self .., hpp, hlen, (isZero_syndromes_iff ..).mp hz⟩

end Sys2Proof.Machine
end
section
/-! Control and data movement past the checks (R79), and the values of their functions (R270 to
R275). -/

namespace Sys2Proof.Machine

/-! ### The commands -/

theorem exec_vget {s : State} {a : VReg} {q : ByteSeq} (hq : s.readV a = some q) (d : SReg)
    (index : Byte) : exec (.vget d a index) s = finishS s d (vgetOut q index.toNat) :=
  sourceV_some s a _ q hq

theorem exec_vset {s : State} {d : VReg} {a : SReg} {q : ByteSeq} {v : Byte}
    (hq : s.readV d = some q) (hv : s.readS a = some v) (index : Byte) :
    exec (.vset d a index) s = finishV s d (vsetOut q index.toNat v) :=
  (sourceV_some s d _ q hq).trans (sourceS_some s a _ v hv)

theorem exec_vcat {s : State} {a b : VReg} {p q : ByteSeq} (hp : s.readV a = some p)
    (hq : s.readV b = some q) (d : VReg) :
    exec (.vcat d a b) s = finishV s d (vcatOut p q) :=
  sourceV_sourceV hp hq fun p q => finishV s d (vcatOut p q)

/-- A command that uses no tables faults on an unwritten source. -/
theorem exec_of_source_unwritten {i : Instr} {s : State} {o : Operand} (ho : o ∈ i.sources)
    (h : o.written s = false) (hw : i.wf = true) (ht : i.tableUsing = false) :
    exec i s = .fault .unwritten :=
  unwrittenSourceFaults i s hw (fun hu => absurd hu (Bool.eq_false_iff.mp ht))
    (sourcesWritten_false ho h)

theorem written_v_of_readV_none {s : State} {a : VReg} (h : s.readV a = none) :
    (Operand.v a).written s = false := by
  rw [Operand.written, h, Option.isSome_none]

theorem written_s_of_readS_none {s : State} {a : SReg} (h : s.readS a = none) :
    (Operand.s a).written s = false := by
  rw [Operand.written, h, Option.isSome_none]

/-! ### The values of their functions -/

section
variable {p q : ByteSeq} {index : Nat}

theorem vgetOut_of_lt (h : index < q.length) : vgetOut q index = .ok q[index] := by
  rw [vgetOut, List.getElem?_eq_getElem h]

theorem vgetOut_of_le (h : q.length ≤ index) : vgetOut q index = .error .invalidInput := by
  rw [vgetOut, List.getElem?_eq_none h]

theorem vsetOut_of_lt (v : Byte) (h : index < q.length) :
    vsetOut q index v = .ok (q.set index v) :=
  if_neg (Nat.not_le.mpr h)

theorem vsetOut_of_le (v : Byte) (h : q.length ≤ index) :
    vsetOut q index v = .error .invalidInput :=
  if_pos h

theorem vcatOut_of_fits (h : p.length + q.length ≤ 512) : vcatOut p q = .ok (p ++ q) := by
  rw [← List.length_append] at h
  exact if_neg (Nat.not_lt.mpr h)

theorem vcatOut_of_lt (h : 512 < p.length + q.length) : vcatOut p q = .error .invalidInput := by
  rw [← List.length_append] at h
  exact if_pos h

end

end Sys2Proof.Machine
end
section
/-! The obligations of control and data movement. -/

namespace Sys2Proof.Machine

/-- Settles O33: neither command has a source, so both run in every state. -/
theorem nopAndSldiRun : Obligations.NopAndSldiRun :=
  fun d imm s => ⟨hasEncoding_of_index 0 (by decide) (by decide),
    hasEncoding_of_index 2 (by decide) (fieldOpc_packWord ..), rfl, finishS_ok s d imm⟩

/-- Settles O34: the index against the buffer's length decides between one element and a raise. -/
theorem vgetAndVsetMoveOneElement : Obligations.VgetAndVsetMoveOneElement := by
  refine fun ds as dv av index v q s => ⟨hasEncoding_of_index 10 (by decide) (fieldOpc_packWord ..),
    hasEncoding_of_index 11 (by decide) (fieldOpc_packWord ..), fun hlt hq => ?_, fun hle hq => ?_,
    fun hlt hq hv => ?_, fun hle hq hv => ?_, fun hq => ?_, fun hnone => ?_⟩
  · rw [exec_vget hq, vgetOut_of_lt hlt, finishS_ok]
  · rw [exec_vget hq, vgetOut_of_le hle, finishS_error, Raise.toCode]
  · rw [exec_vset hq hv, vsetOut_of_lt v hlt, finishV_ok]
  · rw [exec_vset hq hv, vsetOut_of_le v hle, finishV_error, Raise.toCode]
  · exact exec_of_source_unwritten (by simp [Instr.sources]) (written_v_of_readV_none hq) rfl rfl
  · rcases hnone with hq | hv
    · exact exec_of_source_unwritten (by simp [Instr.sources]) (written_v_of_readV_none hq) rfl rfl
    · exact exec_of_source_unwritten (by simp [Instr.sources]) (written_s_of_readS_none hv) rfl rfl

/-- Settles O35: VLEN_MAX decides between the concatenation and a raise. -/
theorem vcatAndVzeroMakeBuffers : Obligations.VcatAndVzeroMakeBuffers := by
  refine fun d a b len p q s => ⟨hasEncoding_of_index 12 (by decide) (fieldOpc_packWord ..),
    hasEncoding_of_index 13 (by decide) (fieldOpc_packWord ..), fun hp hq hl => ?_,
    fun hp hq hl => ?_, fun hnone => ?_, finishV_ok s d (List.replicate len.toNat 0#8)⟩
  · rw [exec_vcat hp hq, vcatOut_of_fits hl, finishV_ok]
  · rw [exec_vcat hp hq, vcatOut_of_lt hl, finishV_error, Raise.toCode]
  · rcases hnone with hp | hq
    · exact exec_of_source_unwritten (by simp [Instr.sources]) (written_v_of_readV_none hp) rfl rfl
    · exact exec_of_source_unwritten (by simp [Instr.sources]) (written_v_of_readV_none hq) rfl rfl

end Sys2Proof.Machine
end
section
/-! How a command ends (R301, R305, R311): it completes past the fault checks, it is illegal, or it
raises and leaves the registers alone. -/

namespace Sys2Proof.Machine

/-- A command faults F_UNWRITTEN exactly when the checks before it pass and a source is unwritten
(R79, R307). -/
theorem exec_unwritten_iff {i : Instr} {s : State} :
    exec i s = .fault .unwritten ↔ i.MayReadSources s ∧ i.sourcesWritten s = false := by
  refine ⟨fun h => ?_, fun ⟨⟨hw, ht⟩, hs⟩ => unwrittenSourceFaults i s hw ht hs⟩
  have ha := exec_answers i s
  rw [h] at ha
  generalize hr : Host.Outcome.fault Fault.unwritten = r at ha
  cases ha with
  | illegal => cases hr
  | noTables => cases hr
  | unwritten hmay hs => exact ⟨hmay, hs⟩
  | nop => cases hr
  | tblinit primlo gen => exact absurd hr.symm (execTblinit_ne_fault primlo gen s _)
  | scalar d out => exact absurd hr.symm (finishS_ne_fault s d out _)
  | buffer d out => exact absurd hr.symm (finishV_ne_fault s d out _)
  | buffers d c out => exact absurd hr.symm (finishVV_ne_fault s d c out _)

/-- Past every check a command completes (R311). -/
theorem exec_completes {i : Instr} {s : State} (h : i.MayExecute s) : ∃ t, exec i s = .next t := by
  obtain ⟨⟨-, htables⟩, hsources⟩ := h
  rcases exec_resolves i s with hnext | hfault | hfault
  · exact hnext
  · obtain ⟨-, hu, hv⟩ := exec_tablesInvalid_iff.mp hfault
    exact absurd (htables hu) (Bool.eq_false_iff.mp hv)
  · exact absurd hsources (Bool.eq_false_iff.mp (exec_unwritten_iff.mp hfault).2)

/-- D = C is all that makes a command illegal (R77), and it is settled first (R307). -/
theorem exec_of_not_wf {i : Instr} (hw : i.wf = false) (s : State) : exec i s = illegal s := by
  cases i with
  | pdiv d c a b =>
    obtain rfl : d = c := by simpa [Instr.wf] using hw
    exact exec_pdiv_self d a b s
  | correct d c a b r =>
    obtain rfl : d = c := by simpa [Instr.wf] using hw
    exact exec_correct_self d a b r s
  | _ => cases hw

/-! ### Raising (R305) -/

theorem finishS_next_of_code_ne_ok {s t : State} {d : SReg} {out : Except Raise Byte}
    (h : finishS s d out = .next t) (hc : t.code ≠ .ok) : t = s.setCode t.code := by
  rcases finishS_next.mp h with ⟨v, -, rfl⟩ | ⟨c, -, rfl⟩
  · exact absurd rfl hc
  · rfl

theorem finishV_next_of_code_ne_ok {s t : State} {d : VReg} {out : Except Raise ByteSeq}
    (h : finishV s d out = .next t) (hc : t.code ≠ .ok) : t = s.setCode t.code := by
  rcases finishV_next.mp h with ⟨q, -, rfl⟩ | ⟨c, -, rfl⟩
  · exact absurd rfl hc
  · rfl

theorem finishVV_next_of_code_ne_ok {s t : State} {d c : VReg}
    {out : Except Raise (ByteSeq × ByteSeq)} (h : finishVV s d c out = .next t)
    (hc : t.code ≠ .ok) : t = s.setCode t.code := by
  rcases finishVV_next.mp h with ⟨q, p, -, rfl⟩ | ⟨e, -, rfl⟩
  · exact absurd rfl hc
  · rfl

/-- A command that leaves a code other than OK writes the code alone, or is a refused TBLINIT, which
drops the tables too. -/
theorem exec_next_of_code_ne_ok {i : Instr} {s t : State} (h : exec i s = .next t)
    (hc : t.code ≠ .ok) :
    (∃ primlo gen, i = .tblinit primlo gen ∧ t = s.dropTables.setCode .configError) ∨
      (∀ primlo gen, i ≠ .tblinit primlo gen) ∧ t = s.setCode t.code := by
  by_cases hi : ∃ primlo gen, i = .tblinit primlo gen
  · obtain ⟨primlo, gen, rfl⟩ := hi
    rcases execTblinit_next.mp h with ⟨-, rfl⟩ | ⟨-, ht⟩
    · exact absurd rfl hc
    · exact .inl ⟨primlo, gen, rfl, ht⟩
  refine .inr ⟨fun primlo gen he => hi ⟨primlo, gen, he⟩, ?_⟩
  have ha := exec_answers i s
  rw [h] at ha
  generalize hr : Host.Outcome.next t = r at ha
  cases ha with
  | illegal => cases hr; rfl
  | noTables => cases hr
  | unwritten => cases hr
  | nop => cases hr; rfl
  | tblinit primlo gen he => exact absurd ⟨primlo, gen, he⟩ hi
  | scalar => exact finishS_next_of_code_ne_ok hr.symm hc
  | buffer => exact finishV_next_of_code_ne_ok hr.symm hc
  | buffers => exact finishVV_next_of_code_ne_ok hr.symm hc

end Sys2Proof.Machine
end
section
/-! What the functions of the commands raise (R104 to R250). -/

namespace Sys2Proof.Machine

/-! ### The functions with one kind of test -/

/-- A function that is one test raises what the test names. -/
theorem eq_of_guard_error {α : Type} {p : Prop} [Decidable p] {x c : Raise} {v : α}
    (h : (if p then .error x else .ok v : Except Raise α) = .error c) : c = x := by
  split at h <;> cases h
  rfl

/-- After a test the rest of the function decides. -/
theorem error_of_guard_error {α : Type} {p : Prop} [Decidable p] {x c : Raise}
    {out : Except Raise α} (h : (if p then .error x else out) = .error c) :
    c = x ∨ out = .error c := by
  split at h
  · exact .inl (Except.error.inj h).symm
  · exact .inr h

section
variable {t : Tables} {c : Raise}

theorem gfDiv_raises {a b : Byte} (h : gfDiv t a b = .error c) : c = .divByZero ∧ b = 0#8 := by
  by_cases hb : b = 0#8
  · rw [gfDiv, if_pos hb] at h
    exact ⟨(Except.error.inj h).symm, hb⟩
  · rw [gfDiv_of_ne_zero t a hb] at h
    cases h

theorem gfInv_raises {a : Byte} (h : gfInv t a = .error c) : c = .divByZero ∧ a = 0#8 := by
  unfold gfInv at h
  split at h <;> cases h
  exact ⟨rfl, ‹_›⟩

theorem vgetOut_raises {q : ByteSeq} {index : Nat} (h : vgetOut q index = .error c) :
    c = .invalidInput := by
  unfold vgetOut at h
  split at h <;> cases h
  rfl

theorem pmulOut_raises {p q : ByteSeq} (h : pmulOut t p q = .error c) : c = .invalidInput :=
  (error_of_guard_error h).elim id eq_of_guard_error

theorem elocOut_raises {ps : ByteSeq} {n : Nat} (h : elocOut t ps n = .error c) :
    c = .invalidInput :=
  (error_of_guard_error h).elim id eq_of_guard_error

/-! ### Division and encoding -/

/-- Past its tests the division never raises. -/
theorem polyDivmod_raises {p v : ByteSeq} (h : polyDivmod t p v = .error c) :
    c = .invalidInput := by
  by_cases hbad : p = [] ∨ isZero v = true
  · rw [polyDivmod_error t hbad] at h
    exact (Except.error.inj h).symm
  · obtain ⟨hp, hv⟩ := not_or.mp hbad
    obtain ⟨quo, rem, hd⟩ := polyDivmod_ok t hp (Bool.not_eq_true _ ▸ hv)
    cases hd.symm.trans h

theorem rsEncode_raises {m : ByteSeq} {r : Nat} (h : rsEncode t m r = .error c) :
    c = .invalidInput := by
  rcases error_of_guard_error h with hc | hdiv
  · exact hc
  · split at hdiv <;> cases hdiv
    exact polyDivmod_raises ‹_›

/-! ### The decoder's stages -/

/-- A magnitude is not divided by 0: the test for a zero denominator comes first. -/
theorem magnitude_raises {psi om : ByteSeq} {p n : Nat} (h : magnitude t psi om p n = .error c) :
    c = .uncorrectable := by
  by_cases hden : derivEval t psi (locatorInverse t p n) = 0#8
  · rw [magnitude_of_den_eq_zero hden] at h
    exact (Except.error.inj h).symm
  · obtain ⟨e, he⟩ := magnitude_ok (om := om) hden
    cases he.symm.trans h

theorem magnitudes_raises {psi om : ByteSeq} {n : Nat} {ps : ByteSeq}
    (h : magnitudes t psi om n ps = .error c) : c = .uncorrectable := by
  induction ps with
  | nil => cases h
  | cons p ps ih =>
    unfold magnitudes at h
    split at h
    · cases h
      exact magnitude_raises ‹_›
    split at h <;> cases h
    exact ih ‹_›

theorem forneyCorrect_raises {w sy ps : ByteSeq} (h : forneyCorrect t w sy ps = .error c) :
    c = .uncorrectable := by
  rcases error_of_guard_error h with hc | hmag
  · exact hc
  · split at hmag <;> cases hmag
    exact magnitudes_raises ‹_›

theorem fsyndOut_raises {sy g : ByteSeq} (h : fsyndOut t sy g = .error c) :
    c = .invalidInput ∨ c = .uncorrectable :=
  (error_of_guard_error h).imp_right eq_of_guard_error

theorem rootsOut_raises {lam : ByteSeq} {n : Nat} (h : rootsOut t lam n = .error c) :
    c = .invalidInput ∨ c = .uncorrectable :=
  (error_of_guard_error h).imp_right eq_of_guard_error

theorem fcorrOut_raises {w sy ps : ByteSeq} (h : fcorrOut t w sy ps = .error c) :
    c = .invalidInput ∨ c = .uncorrectable :=
  (error_of_guard_error h).imp_right forneyCorrect_raises

/-! ### The whole pipeline -/

/-- The stages raise nothing else, whichever of them ends the pipeline (R304). -/
theorem correctStages_raises {w sy er : ByteSeq} (h : correctStages t w sy er = .error c) :
    c = .uncorrectable := by
  unfold correctStages at h
  split at h
  next hts => cases h; exact eq_of_guard_error hts
  split at h
  next hbma => cases h; exact berlekampMassey_error hbma
  split at h
  next hroots => cases h; exact eq_of_guard_error hroots
  exact forneyCorrect_raises h

theorem rsCorrect_raises {w er : ByteSeq} {r : Nat} (h : rsCorrect t w er r = .error c) :
    c = .invalidInput ∨ c = .uncorrectable := by
  by_cases hop : CorrectOperands w er r
  case neg =>
    rw [rsCorrect_of_not_operands hop] at h
    exact .inl (Except.error.inj h).symm
  right
  by_cases hle : er.length ≤ r
  case neg =>
    rw [rsCorrect_of_lt hop (Nat.not_le.mp hle)] at h
    exact (Except.error.inj h).symm
  cases hz : isZero (syndromes t w r) with
  | true => cases (rsCorrect_of_isZero hop hle hz).symm.trans h
  | false =>
    cases hst : correctStages t w (syndromes t w r) er with
    | error x =>
      rw [rsCorrect_of_stages_error hop hle hz hst] at h
      exact Except.error.inj h ▸ correctStages_raises hst
    | ok fixed =>
      rw [rsCorrect_of_stages_ok hop hle hz hst] at h
      split at h <;> cases h
      rfl

end

end Sys2Proof.Machine
end
section
/-! Which codes a command can leave: the last column of R300, for every command. -/

namespace Sys2Proof

/-- R300's last column, by command, for the codes a rule raises; with R304's condition on the
operand of GDIV and GINV. -/
def Instr.MayRaise (s : Machine.State) (c : Machine.Raise) : Instr → Prop
  | .nop | .sldi _ _ | .gadd _ _ _ | .gmul _ _ _ | .gpow _ _ _ | .vzero _ _ => False
  | .tblinit _ _ => c = .configError
  | .gdiv _ _ b => c = .divByZero ∧ s.readS b = some 0#8
  | .ginv _ a => c = .divByZero ∧ s.readS a = some 0#8
  | .bma _ _ => c = .uncorrectable
  | .fsynd _ _ _ | .roots _ _ _ | .fcorr _ _ _ _ | .correct _ _ _ _ _ =>
    c = .invalidInput ∨ c = .uncorrectable
  | .glog _ _ | .gexp _ _ | .vget _ _ _ | .vset _ _ _ | .vcat _ _ _ | .padd _ _ _ | .pmul _ _ _
  | .pscale _ _ _ | .peval _ _ _ | .pdiv _ _ _ _ | .genpoly _ _ | .encode _ _ _ | .synd _ _ _
  | .eloc _ _ _ | .eeval _ _ _ => c = .invalidInput

end Sys2Proof

namespace Sys2Proof.Machine

/-- A next state's code is OK, ILLEGAL_COMMAND of an illegal command, or a code in the command's row
of R300. -/
def CodesInColumn (i : Instr) (s : State) (r : Result) : Prop :=
  ∀ t, r = .next t → t.code = .ok ∨ (i.wf = false ∧ t.code = .illegalCommand) ∨
    ∃ c, i.MayRaise s c ∧ t.code = c.toCode

/-! ### One rule per shared operation of the cycle -/

section
variable {i : Instr} {s : State}

theorem codesInColumn_illegal (hw : i.wf = false) : CodesInColumn i s (illegal s) := by
  intro t h
  cases h
  exact .inr (.inl ⟨hw, rfl⟩)

theorem codesInColumn_requireTables {k : Result} (hk : CodesInColumn i s k) :
    CodesInColumn i s (requireTables s k) :=
  fun t h => hk t (requireTables_next.mp h).2

theorem codesInColumn_sourceS {a : SReg} {k : Byte → Result}
    (hk : ∀ v, s.readS a = some v → CodesInColumn i s (k v)) : CodesInColumn i s (sourceS s a k) :=
  fun t h => by
    obtain ⟨v, hv, hnext⟩ := sourceS_next.mp h
    exact hk v hv t hnext

theorem codesInColumn_sourceV {a : VReg} {k : ByteSeq → Result}
    (hk : ∀ q, CodesInColumn i s (k q)) : CodesInColumn i s (sourceV s a k) :=
  fun t h => by
    obtain ⟨q, -, hnext⟩ := sourceV_next.mp h
    exact hk q t hnext

theorem codesInColumn_finishS {d : SReg} {out : Except Raise Byte}
    (ho : ∀ c, out = .error c → i.MayRaise s c) : CodesInColumn i s (finishS s d out) := by
  intro t h
  rcases finishS_next.mp h with ⟨v, -, rfl⟩ | ⟨c, hc, rfl⟩
  · exact .inl rfl
  · exact .inr (.inr ⟨c, ho c hc, rfl⟩)

theorem codesInColumn_finishV {d : VReg} {out : Except Raise ByteSeq}
    (ho : ∀ c, out = .error c → i.MayRaise s c) : CodesInColumn i s (finishV s d out) := by
  intro t h
  rcases finishV_next.mp h with ⟨q, -, rfl⟩ | ⟨c, hc, rfl⟩
  · exact .inl rfl
  · exact .inr (.inr ⟨c, ho c hc, rfl⟩)

theorem codesInColumn_finishVV {d c : VReg} {out : Except Raise (ByteSeq × ByteSeq)}
    (ho : ∀ e, out = .error e → i.MayRaise s e) : CodesInColumn i s (finishVV s d c out) := by
  intro t h
  rcases finishVV_next.mp h with ⟨q, p, -, rfl⟩ | ⟨e, he, rfl⟩
  · exact .inl rfl
  · exact .inr (.inr ⟨e, ho e he, rfl⟩)

end

/-- Every command leaves a code of its row of R300. -/
theorem exec_codesInColumn (i : Instr) (s : State) : CodesInColumn i s (exec i s) := by
  cases i with
  | nop => exact fun t h => .inl (by cases h; rfl)
  | tblinit primlo gen =>
    intro t h
    rcases execTblinit_next.mp h with ⟨-, rfl⟩ | ⟨-, rfl⟩
    · exact .inl rfl
    · exact .inr (.inr ⟨.configError, rfl, rfl⟩)
  | sldi d imm =>
    rw [exec, execSldi]
    exact codesInColumn_finishS nofun
  | gadd d a b =>
    exact codesInColumn_sourceS fun x _ => codesInColumn_sourceS fun y _ =>
      codesInColumn_finishS nofun
  | gmul d a b =>
    exact codesInColumn_requireTables <| codesInColumn_sourceS fun x _ =>
      codesInColumn_sourceS fun y _ => codesInColumn_finishS nofun
  | gdiv d a b =>
    exact codesInColumn_requireTables <| codesInColumn_sourceS fun x _ =>
      codesInColumn_sourceS fun y hy => codesInColumn_finishS fun c hc =>
        have ⟨hraise, hzero⟩ := gfDiv_raises hc
        ⟨hraise, hzero ▸ hy⟩
  | gpow d a b =>
    exact codesInColumn_requireTables <| codesInColumn_sourceS fun x _ =>
      codesInColumn_sourceS fun y _ => codesInColumn_finishS nofun
  | ginv d a =>
    exact codesInColumn_requireTables <| codesInColumn_sourceS fun x hx =>
      codesInColumn_finishS fun c hc =>
        have ⟨hraise, hzero⟩ := gfInv_raises hc
        ⟨hraise, hzero ▸ hx⟩
  | glog d a =>
    exact codesInColumn_requireTables <| codesInColumn_sourceS fun x _ =>
      codesInColumn_finishS fun c hc => eq_of_guard_error hc
  | gexp d a =>
    exact codesInColumn_requireTables <| codesInColumn_sourceS fun x _ =>
      codesInColumn_finishS fun c hc => eq_of_guard_error hc
  | vget d a index =>
    exact codesInColumn_sourceV fun q => codesInColumn_finishS fun c hc => vgetOut_raises hc
  | vset d a index =>
    exact codesInColumn_sourceV fun q => codesInColumn_sourceS fun v _ =>
      codesInColumn_finishV fun c hc => eq_of_guard_error hc
  | vcat d a b =>
    exact codesInColumn_sourceV fun p => codesInColumn_sourceV fun q =>
      codesInColumn_finishV fun c hc => eq_of_guard_error hc
  | vzero d len =>
    rw [exec, execVzero]
    exact codesInColumn_finishV nofun
  | padd d a b =>
    exact codesInColumn_sourceV fun p => codesInColumn_sourceV fun q =>
      codesInColumn_finishV fun c hc => eq_of_guard_error hc
  | pmul d a b =>
    exact codesInColumn_requireTables <| codesInColumn_sourceV fun p =>
      codesInColumn_sourceV fun q => codesInColumn_finishV fun c hc => pmulOut_raises hc
  | pscale d a b =>
    exact codesInColumn_requireTables <| codesInColumn_sourceV fun p =>
      codesInColumn_sourceS fun x _ => codesInColumn_finishV fun c hc => eq_of_guard_error hc
  | peval d a b =>
    exact codesInColumn_requireTables <| codesInColumn_sourceV fun p =>
      codesInColumn_sourceS fun x _ => codesInColumn_finishS fun c hc => eq_of_guard_error hc
  | pdiv d c a b =>
    by_cases hdc : d = c
    · rw [exec, execPdiv, if_pos hdc]
      exact codesInColumn_illegal (by simp [Instr.wf, hdc])
    · rw [exec, execPdiv, if_neg hdc]
      exact codesInColumn_requireTables <| codesInColumn_sourceV fun p =>
        codesInColumn_sourceV fun q => codesInColumn_finishVV fun c hc => polyDivmod_raises hc
  | genpoly d r =>
    exact codesInColumn_requireTables <| codesInColumn_finishV fun c hc => eq_of_guard_error hc
  | encode d a r =>
    exact codesInColumn_requireTables <| codesInColumn_sourceV fun m =>
      codesInColumn_finishV fun c hc => rsEncode_raises hc
  | synd d a r =>
    exact codesInColumn_requireTables <| codesInColumn_sourceV fun w =>
      codesInColumn_finishV fun c hc => eq_of_guard_error hc
  | eloc d a n =>
    exact codesInColumn_requireTables <| codesInColumn_sourceV fun ps =>
      codesInColumn_finishV fun c hc => elocOut_raises hc
  | fsynd d a b =>
    exact codesInColumn_requireTables <| codesInColumn_sourceV fun sy =>
      codesInColumn_sourceV fun g => codesInColumn_finishV fun c hc => fsyndOut_raises hc
  | bma d a =>
    exact codesInColumn_requireTables <| codesInColumn_sourceV fun ts =>
      codesInColumn_finishV fun c hc => berlekampMassey_error hc
  | roots d a n =>
    exact codesInColumn_requireTables <| codesInColumn_sourceV fun lam =>
      codesInColumn_finishV fun c hc => rootsOut_raises hc
  | eeval d a b =>
    exact codesInColumn_requireTables <| codesInColumn_sourceV fun sy =>
      codesInColumn_sourceV fun psi => codesInColumn_finishV fun c hc => eq_of_guard_error hc
  | fcorr d a b c =>
    exact codesInColumn_requireTables <| codesInColumn_sourceV fun w =>
      codesInColumn_sourceV fun sy => codesInColumn_sourceV fun ps =>
        codesInColumn_finishV fun c hc => fcorrOut_raises hc
  | correct d c a b r =>
    by_cases hdc : d = c
    · rw [exec, execCorrect, if_pos hdc]
      exact codesInColumn_illegal (by simp [Instr.wf, hdc])
    · rw [exec, execCorrect, if_neg hdc]
      exact codesInColumn_requireTables <| codesInColumn_sourceV fun w =>
        codesInColumn_sourceV fun er => codesInColumn_finishVV fun c hc => rsCorrect_raises hc

/-- Different raises leave different codes. -/
theorem Raise.toCode_injective : Function.Injective Raise.toCode := by
  intro c c'
  cases c <;> cases c' <;> decide

/-- A code that a rule raises comes from a command with it in its row of R300. -/
theorem exec_mayRaise {i : Instr} {s t : State} (h : exec i s = .next t) (c : Raise)
    (hc : t.code = c.toCode) : i.MayRaise s c := by
  rcases exec_codesInColumn i s t h with hok | ⟨-, hill⟩ | ⟨c', hraise, hc'⟩
  · exact absurd (hc.symm.trans hok) c.toCode_ne_ok
  · exact absurd (hc.symm.trans hill) c.toCode_ne_illegal
  · exact Raise.toCode_injective (hc.symm.trans hc') ▸ hraise

/-- ILLEGAL_COMMAND is the code of the illegal commands and of no other (R77, R300). -/
theorem exec_code_illegalCommand_iff {i : Instr} {s t : State} (h : exec i s = .next t) :
    t.code = .illegalCommand ↔ i.wf = false := by
  refine ⟨fun hill => ?_, fun hw => ?_⟩
  · rcases exec_codesInColumn i s t h with hok | ⟨hw, -⟩ | ⟨c, -, hc⟩
    · cases hill.symm.trans hok
    · exact hw
    · exact absurd (hc.symm.trans hill) c.toCode_ne_illegal
  · rw [exec_of_not_wf hw, illegal_next] at h
    rw [h, State.setCode_code]

/-! ### R300's column, read by code -/

section
variable {s : State} {i : Instr}

theorem mayRaise_configError (h : i.MayRaise s .configError) :
    ∃ primlo gen, i = .tblinit primlo gen := by
  cases i <;> simp_all [Instr.MayRaise]

theorem mayRaise_divByZero (h : i.MayRaise s .divByZero) :
    (∃ d a b, i = .gdiv d a b ∧ s.readS b = some 0#8) ∨
      ∃ d a, i = .ginv d a ∧ s.readS a = some 0#8 := by
  cases i <;> simp_all [Instr.MayRaise]

theorem mayRaise_uncorrectable (h : i.MayRaise s .uncorrectable) :
    (∃ d a b, i = .fsynd d a b) ∨ (∃ d a, i = .bma d a) ∨ (∃ d a n, i = .roots d a n) ∨
      (∃ d a b c, i = .fcorr d a b c) ∨ ∃ d c a b r, i = .correct d c a b r := by
  cases i <;> simp_all [Instr.MayRaise]

theorem mayRaise_invalidInput (h : i.MayRaise s .invalidInput) :
    i ≠ .nop ∧ (∀ primlo gen, i ≠ .tblinit primlo gen) ∧
      (∀ d imm, i ≠ .sldi d imm) ∧ (∀ d a b, i ≠ .gadd d a b) ∧ (∀ d a b, i ≠ .gmul d a b) ∧
      (∀ d a b, i ≠ .gdiv d a b) ∧ (∀ d a b, i ≠ .gpow d a b) ∧ (∀ d a, i ≠ .ginv d a) ∧
      (∀ d len, i ≠ .vzero d len) ∧ (∀ d a, i ≠ .bma d a) := by
  cases i <;> simp_all [Instr.MayRaise]

end

end Sys2Proof.Machine
end
section
/-! CODE between commands (R309). -/

namespace Sys2Proof.Machine

theorem hostEffect_code {op : HostOp} {s : State} {u : State × HostReply}
    (h : hostEffect op s = .next u) : u.1.code = s.code := by
  cases op with
  | rds i =>
    cases hr : s.readS i with
    | some v => rw [hostEffect_rds_some hr] at h; cases h; rfl
    | none => rw [hostEffect_rds_none hr] at h; cases h
  | rdv i =>
    cases hr : s.readV i with
    | some q => rw [hostEffect_rdv_some hr] at h; cases h; rfl
    | none => rw [hostEffect_rdv_none hr] at h; cases h
  | _ => cases h; rfl

/-- A host operation that happens has its effect. -/
theorem hostEffect_of_hostStep_next {op : HostOp} {s : State} {u : State × HostReply}
    (h : hostStep op s = .next u) : hostEffect op s = .next u := by
  unfold hostStep at h
  split at h
  · cases h
  split at h
  · cases h
  split at h
  · cases h
  · exact h

/-- A move that faults or is refused keeps CODE, so only the next states are left to look at. -/
theorem stateAfter_code {m : Move} {s : State} (h : ∀ u, move m s = .next u → u.1.code = s.code) :
    (stateAfter m s).code = s.code := by
  rcases stateAfter_cases m s with ⟨u, hu, heq⟩ | ⟨f, -, heq⟩ | heq <;> rw [heq]
  · exact h u hu
  · exact s.recordFault_code f

theorem step_next_of_idle {s t : State} (hp : s.pending = none) (h : step s = .next t) : t = s := by
  obtain ⟨-, ⟨-, ht⟩ | ⟨w, u, hw, -⟩⟩ := coreStep_next.mp h
  · exact ht
  · cases hp.symm.trans hw

end Sys2Proof.Machine
end
section
/-! The obligations of the status codes, and of reset. -/

namespace Sys2Proof.Machine

/-- Settles O14: past its checks a command completes, and an illegal word sets the code alone. -/
theorem pastTheFaultChecksACommandCompletes : Obligations.PastTheFaultChecksACommandCompletes :=
  ⟨fun _ _ hw ht hs => exec_completes ⟨⟨hw, ht⟩, hs⟩,
    fun _ s hw => ⟨_, exec_of_not_wf hw s, rfl⟩,
    fun _ _ s hd => ⟨_, executeWord_error hd s, rfl⟩⟩

/-- Settles O15: a raise writes the code alone, but a refused TBLINIT drops the tables too. -/
theorem raisingCommandsWriteNothing : Obligations.RaisingCommandsWriteNothing := by
  intro i s t h hc
  rcases exec_next_of_code_ne_ok h hc with ⟨primlo, gen, hi, rfl⟩ | ⟨hi, ht⟩
  · exact ⟨by simp, by simp, by simp, by simp, fun hne => absurd hi (hne primlo gen),
      fun _ _ _ => ⟨by simp, by simp⟩⟩
  · rw [ht]
    exact ⟨rfl, rfl, rfl, rfl, fun _ => ⟨rfl, rfl⟩, fun primlo gen he => absurd he (hi primlo gen)⟩

/-- Settles O17, by R300's column of every command. -/
theorem eachCodeComesFromItsCommands : Obligations.EachCodeComesFromItsCommands :=
  fun _ _ _ h => ⟨fun hc => mayRaise_configError (exec_mayRaise h .configError hc),
    fun hc => mayRaise_divByZero (exec_mayRaise h .divByZero hc),
    fun hc => mayRaise_uncorrectable (exec_mayRaise h .uncorrectable hc),
    fun hc => mayRaise_invalidInput (exec_mayRaise h .invalidInput hc),
    exec_code_illegalCommand_iff h⟩

/-- Settles O60: no effect of a host operation is on CODE, and an idle core keeps the state. -/
theorem codeKeepsItsValue : Obligations.CodeKeepsItsValue :=
  ⟨fun _ _ => stateAfter_code fun _ h => hostEffect_code (hostEffect_of_hostStep_next h),
    fun _ hp => stateAfter_code fun _ h => by rw [step_next_of_idle hp (coreMove_next h)], rfl⟩

/-- Settles O1: the values stand in the definition of the reset state. -/
theorem resetLeavesTheResetValues : Obligations.ResetLeavesTheResetValues :=
  ⟨State.reset_readS, State.reset_readV, rfl, rfl, rfl, by decide, by decide, rfl, rfl, rfl,
    fun _ => rfl⟩

end Sys2Proof.Machine
end
